-- ==== Sys2Proof/Word.lean ====
section
/-!
DEFINITION. The widths of 00_scope.md R12: data bytes, 32-bit command words and arguments,
16-bit argument B and results, 7-bit addresses and interrupt registers, 6-bit tokens.
-/

namespace Sys2Proof

/-- A data byte (R12). -/
abbrev Byte := BitVec 8

/-- A command word, ARG_A, ARG_C, a host address, a register word (R12). -/
abbrev Word := BitVec 32

/-- ARG_B and RESULT (R12). -/
abbrev Half := BitVec 16

/-- A device address, IEN or IPEND (R12). -/
abbrev Bits7 := BitVec 7

/-- A token: an event bitmask of endpoint events (R12, 10_state.md R45). -/
abbrev Token := BitVec 6

end Sys2Proof
end

