-- ==== Sys2Proof/Syntax.lean ====
section
/-!
DEFINITION. The 19 commands of 30_encoding.md R95, one constructor per row of the opcode table.
The argument is the endpoint number e of the EP field (R92); every other operand comes from the
argument registers (R93, R94).
-/

namespace Sys2Proof

/-- One command (30_encoding.md R95). -/
inductive Instr where
  | qInit (e : Nat)
  | qReset (e : Nat)
  | qPush (e : Nat)
  | qPop (e : Nat)
  | qPeek (e : Nat)
  | qAvailable (e : Nat)
  | qFull (e : Nat)
  | qEmpty (e : Nat)
  | qFailed (e : Nat)
  | qClrfail (e : Nat)
  | epWrite (e : Nat)
  | epRead (e : Nat)
  | epFlush (e : Nat)
  | epFlushComplete (e : Nat)
  | epDataReady (e : Nat)
  | epSetCallback (e : Nat)
  | epSetStall (e : Nat)
  | epSetInterrupts (e : Nat)
  | devSetAddress
deriving DecidableEq, Repr

end Sys2Proof
end

