-- ==== Sys2Proof/WellFormed.lean ====
section
/-!
DEFINITION. When a command can be encoded: its endpoint number fits the 4-bit EP field
(30_encoding.md R92).
-/

namespace Sys2Proof

/-- The endpoint number a command names; 0 for DEV_SET_ADDRESS, whose EP field must be 0 (R92). -/
def Instr.endpoint : Instr → Nat
  | .qInit e | .qReset e | .qPush e | .qPop e | .qPeek e | .qAvailable e | .qFull e
  | .qEmpty e | .qFailed e | .qClrfail e | .epWrite e | .epRead e | .epFlush e
  | .epFlushComplete e | .epDataReady e | .epSetCallback e | .epSetStall e
  | .epSetInterrupts e => e
  | .devSetAddress => 0

/-- The endpoint number fits its field: "endpoint number e, 0 to 15" (R92). -/
abbrev WellFormed (i : Instr) : Prop := i.endpoint < 16

end Sys2Proof
end

