-- ==== Sys2Proof/Decode.lean ====
section
/-!
DEFINITION. The command word: decoder and encoder (30_encoding.md R90 to R97).
-/

namespace Sys2Proof

/-- Why a word is no command; each is the command error of the same name (60_exceptions.md R280). -/
inductive DecodeError where
  /-- OP is none of the 19 opcodes (30_encoding.md R96). -/
  | illegalOpcode
  /-- A legal OP with RSV not 0, or DEV_SET_ADDRESS with EP not 0 (30_encoding.md R97). -/
  | reservedBits
deriving DecidableEq, Repr

/-- OP, bits 7:0 (R92). -/
def fieldOp (w : Word) : BitVec 8 := w.extractLsb' 0 8

/-- EP, bits 11:8 (R92). -/
def fieldEp (w : Word) : BitVec 4 := w.extractLsb' 8 4

/-- RSV, bits 31:12 (R92). -/
def fieldRsv (w : Word) : BitVec 20 := w.extractLsb' 12 20

/-- The opcode map (R95): the command that opcode `op` selects on endpoint `e`. -/
def opcodeRow (op e : Nat) : Option Instr :=
  match op with
  | 0x01 => some (.qInit e)
  | 0x02 => some (.qReset e)
  | 0x03 => some (.qPush e)
  | 0x04 => some (.qPop e)
  | 0x05 => some (.qPeek e)
  | 0x06 => some (.qAvailable e)
  | 0x07 => some (.qFull e)
  | 0x08 => some (.qEmpty e)
  | 0x09 => some (.qFailed e)
  | 0x0A => some (.qClrfail e)
  | 0x10 => some (.epWrite e)
  | 0x11 => some (.epRead e)
  | 0x12 => some (.epFlush e)
  | 0x13 => some (.epFlushComplete e)
  | 0x14 => some (.epDataReady e)
  | 0x15 => some (.epSetCallback e)
  | 0x16 => some (.epSetStall e)
  | 0x17 => some (.epSetInterrupts e)
  | 0x18 => some .devSetAddress
  | _ => none

/-- Whether the reserved bits of the word are 0 for the command: RSV always, and EP too for
DEV_SET_ADDRESS (R92, R97). -/
def reservedOk (w : Word) : Instr → Bool
  | .devSetAddress => fieldRsv w == 0 && fieldEp w == 0
  | _ => fieldRsv w == 0

/-- Decoding a command word. The opcode is checked before the reserved bits (60_exceptions.md R282). -/
def decode (w : Word) : Except DecodeError Instr :=
  match opcodeRow (fieldOp w).toNat (fieldEp w).toNat with
  | none => .error .illegalOpcode
  | some i => if reservedOk w i then .ok i else .error .reservedBits

/-- The opcode of a command (R95). -/
def opcodeOf : Instr → BitVec 8
  | .qInit _ => 0x01
  | .qReset _ => 0x02
  | .qPush _ => 0x03
  | .qPop _ => 0x04
  | .qPeek _ => 0x05
  | .qAvailable _ => 0x06
  | .qFull _ => 0x07
  | .qEmpty _ => 0x08
  | .qFailed _ => 0x09
  | .qClrfail _ => 0x0A
  | .epWrite _ => 0x10
  | .epRead _ => 0x11
  | .epFlush _ => 0x12
  | .epFlushComplete _ => 0x13
  | .epDataReady _ => 0x14
  | .epSetCallback _ => 0x15
  | .epSetStall _ => 0x16
  | .epSetInterrupts _ => 0x17
  | .devSetAddress => 0x18

/-- The command word: RSV = 0, EP and OP from high to low (R92; R99 writes it (e << 8) | OP). -/
def encode (i : Instr) : Word :=
  0#20 ++ BitVec.ofNat 4 i.endpoint ++ opcodeOf i

/-- What the decoder reads from a word given as the opcode table numbers it: bit 0 is the least
significant bit, and the bits from `nbits` up are 0. -/
def decodeTableWord (nbits w : Nat) : Option Instr :=
  match decode (BitVec.ofNat 32 (w % 2 ^ nbits)) with
  | .ok i => some i
  | .error _ => none

end Sys2Proof
end

