-- ==== Sys2Proof/Config.lean ====
section
/-!
DEFINITION. What a platform fixes (00_scope.md R7 to R11, 20_memory.md R73, R87), the inputs the
environment gives, and the free values. A configuration is plain data that State carries and no
step changes, so every statement about a state holds for every configuration.
-/

namespace Sys2Proof

/-- EPTYPE (00_scope.md R8). -/
inductive EpType where
  /-- UNCONF: an unconfigured slot, which has no state (10_state.md R50). -/
  | unconf
  /-- CONTROL: one bank, both directions. -/
  | control
  /-- IN: device to host. -/
  | inn
  /-- OUT: host to device. -/
  | out
deriving DecidableEq, Repr, Inhabited

/-- The parameters of one endpoint slot (R8, R9). -/
structure EpCfg where
  /-- EPTYPE[e] -/
  kind : EpType
  /-- NBANKS[e], 1 or 2 -/
  nbanks : Nat
  /-- BSIZE[e], the bank size and maximum packet size -/
  bsize : Nat
  /-- QMAX[e], the size of the queue's storage -/
  qmax : Nat
deriving DecidableEq, Repr, Inhabited

/-- A range of host addresses whose one-byte accesses the platform admits (20_memory.md R73). -/
structure HostRegion where
  base : Nat
  size : Nat
  readable : Bool
  writable : Bool
deriving DecidableEq, Repr, Inhabited

/-- The parameters of the model (93_implementation_defined.md U19 to U21). -/
structure Config where
  /-- The endpoint slots; NUM_EP is the list's length (R7, R8). -/
  eps : List EpCfg
  /-- DEV_DESC (R11) -/
  devDesc : List Byte
  /-- CFG_DESC (R11) -/
  cfgDesc : List Byte
  /-- CFG_HDR_LEN (R11) -/
  cfgHdrLen : Nat
  /-- STATUS_BYTES (R11) -/
  statusBytes : List Byte
  /-- REG_BASE, the processor address of register offset 0 (20_memory.md R87); its 32 bits are the model's
  (log entry 19). -/
  regBase : Word
  /-- The host accesses admitted; an access outside every region is refused (20_memory.md R73). -/
  host : List HostRegion
deriving DecidableEq, Repr, Inhabited

/-- The width of a processor access to the registers (20_memory.md R71). -/
inductive Width where
  | byte
  | half
  | word
  | dword
deriving DecidableEq, Repr, Inhabited

/-- A bus transaction (43_bus_agent.md R210): address `a`, endpoint `e`, data `d`. -/
inductive BusTxn where
  | setup (a : Bits7) (e : Nat) (d : List Byte)
  | out (a : Bits7) (e : Nat) (d : List Byte)
  | inn (a : Bits7) (e : Nat)
  | flowerr (e : Nat)
  | reset
deriving DecidableEq, Repr, Inhabited

/-- What the environment does next: which agent steps (00_scope.md R6), with the choices that are its own. -/
inductive Action where
  /-- The processor reads a register (20_memory.md R71, R72). -/
  | load (addr : Word) (width : Width)
  /-- The processor writes a register (20_memory.md R71, R72); a write of CMD is a CMD step. -/
  | store (addr : Word) (width : Width) (v : Word)
  /-- The scheduler offers the SVC agent a step (42_engine_service.md R170). -/
  | svc
  /-- The scheduler offers the DISP agent a step (44_control_fsm.md R240). -/
  | disp
  /-- One bus transaction (43_bus_agent.md R210). -/
  | bus (t : BusTxn)
  /-- Power-on reset (70_reset_and_hazards.md R310). -/
  | powerOn
  /-- The processor stores a byte into its own host memory. DESIGN CHOICE (log entry 5, safe). -/
  | hostStore (addr : Word) (v : Byte)
deriving DecidableEq, Repr, Inhabited

/-- One input: an action and the level of IMASK with it, "a free input at every step" (10_state.md R55). -/
structure Input where
  imask : Bool
  action : Action
deriving DecidableEq, Repr, Inhabited

/-- FREE VALUE. The n-th input drawn when State lists none: any interleaving and any choice of the
host (93_implementation_defined.md U10, U11, U22; log entry 2, safe). -/
opaque Config.freeInput : Nat → Input

/-- FREE VALUE. Whether the byte whose host write is refused has already left the queue in EP_READ:
41_endpoint_commands.md R141 pops it before the write, 20_memory.md R73 keeps only "the effects of the
bytes already moved" (log entry 7, safe). -/
opaque Config.refusedByteHasLeft : Bool

/-- The reference configuration of 95_test_vectors.md section 0. CFG_DESC is "any values" there.
DESIGN CHOICE (log entry 3, unsafe): State.reset carries it; no statement rests on it. -/
def Config.reference : Config where
  eps := [⟨.control, 1, 8, 64⟩, ⟨.inn, 2, 8, 16⟩, ⟨.out, 2, 8, 16⟩]
  devDesc :=
    [0x12, 0x01, 0x00, 0x02, 0x00, 0x00, 0x00, 0x08, 0x34,
     0x12, 0x78, 0x56, 0x00, 0x01, 0x01, 0x02, 0x00, 0x01]
  cfgDesc := (List.range 32).map (BitVec.ofNat 8 ·)
  cfgHdrLen := 9
  statusBytes := [0x00, 0x00]
  regBase := 0
  host := [⟨0, 2 ^ 32, true, true⟩]

end Sys2Proof
end

