-- ==== Sys2Proof/Machine/State.lean ====
section
/-!
DEFINITION. The engine's state as plain data (10_state.md), the reasons a step can stop, and the
state after power-on reset (70_reset_and_hazards.md R310, R312).
-/

namespace Sys2Proof.Machine

/-- Bytes at addresses, sorted by address with no repeats (`Mem.canon`). In QMEM and BDATA an address
not listed is unwritten (10_state.md R51); in HOST memory it reads 0x00 (log entry 4). -/
abbrev Mem := List Host.Cell

/-- BST, the state of a bank (10_state.md R44). -/
inductive BankState where
  /-- FILL = 0: owned by the engine, receiving IN data. -/
  | fill
  /-- COMMITTED = 1: handed to the bus side, to send on the next IN. -/
  | committed
  /-- FREE_RX = 2: owned by the bus side, free to receive an OUT packet. -/
  | freeRx
  /-- HELD = 3: holds a received SETUP or OUT packet. -/
  | held
deriving DecidableEq, Repr

/-- One hardware bank (10_state.md R44). -/
structure Bank where
  /-- BST -/
  st : BankState
  /-- BCNT, the byte count -/
  cnt : Nat
  /-- BRDP, the software read position of a HELD bank -/
  rdp : Nat
  /-- BDATA -/
  data : Mem
deriving DecidableEq, Repr

/-- DIR, the current transfer direction (10_state.md R35); the value 3 is never written and cannot be represented. -/
inductive Dir where
  | none
  | inn
  | out
deriving DecidableEq, Repr

/-- The byte queue of an endpoint (10_state.md R42). -/
structure Queue where
  /-- QCAP -/
  cap : Nat
  /-- QRD, the read cursor -/
  rd : Nat
  /-- QSIZE, the number of bytes held -/
  size : Nat
  /-- QFAIL, the sticky failed flag -/
  fail : Bool
  /-- QMEM -/
  mem : Mem
deriving DecidableEq, Repr

/-- The state of one endpoint (10_state.md R33). With one bank, bank 1 and the pointers stay as reset left them. -/
structure Ep where
  /-- EPFLAGS bit 0, FLUSH (R34) -/
  flush : Bool
  /-- EPFLAGS bits 2:1, DIR (R35) -/
  dir : Dir
  /-- EPFLAGS bit 3, DATA_READY (R36) -/
  dataReady : Bool
  /-- STALL (R37) -/
  stall : Bool
  /-- CB, 0 meaning none (R38) -/
  cb : Word
  /-- CBCTX (R38) -/
  cbctx : Word
  /-- IEN (R39) -/
  ien : Bits7
  /-- IPEND (R40) -/
  ipend : Bits7
  /-- Q (R42) -/
  q : Queue
  /-- bank 0 (R44) -/
  bank0 : Bank
  /-- bank 1 (R44) -/
  bank1 : Bank
  /-- CUR, the bank the engine services (R44); false is bank 0 -/
  cur : Bool
  /-- BUSPTR, the bank the bus side uses next (R44); false is bank 0 -/
  busPtr : Bool
deriving DecidableEq, Repr

/-- CTL_STATE (10_state.md R29); the value 3 is never written and cannot be represented. -/
inductive CtlState where
  | setup
  | awaitFlush
  | awaitInForAddress
deriving DecidableEq, Repr

/-- The model faults (60_exceptions.md R283). -/
inductive FaultKind where
  | mmioAccess
  | hostAccess
  | unwrittenRead
deriving DecidableEq, Repr

/-- The handshake the device gives to a bus transaction (43_bus_agent.md R210). -/
inductive Reply where
  | ack
  | nak
  | stall
  | data (bytes : List Byte)
  | none
deriving DecidableEq, Repr

/-- An entry of the event history (20_memory.md R81). -/
inductive Event where
  | cmd (word : Word) (status : BitVec 4) (result : Half)
  | svc (e : Nat) (tok : Token)
  | callback (e : Nat) (tok : Token) (cb ctx : Word)
  | disp (tok : Token) (old new : CtlState)
  | bus (t : BusTxn) (r : Reply)
  | fault (k : FaultKind)
deriving DecidableEq, Repr

/-- The machine's state. -/
structure State where
  /-- The parameters (00_scope.md R7 to R11); no step changes them. -/
  cfg : Config
  /-- CMD (R22) -/
  cmd : Word
  /-- ARG_A (R23) -/
  argA : Word
  /-- ARG_B (R24) -/
  argB : Half
  /-- ARG_C (R25) -/
  argC : Word
  /-- RESULT (R26) -/
  result : Half
  /-- STATUS.ERR (R27) -/
  status : BitVec 4
  /-- FADDR (R28) -/
  faddr : Bits7
  /-- CTL_STATE (R29) -/
  ctlState : CtlState
  /-- CTL_ADDR (R30) -/
  ctlAddr : Bits7
  /-- TOKEN_LATCH (R31) -/
  tokenLatch : Token
  /-- TOKEN_PENDING (R32) -/
  tokenPending : Bool
  /-- The endpoints, one entry per slot of `cfg.eps` (R33); an UNCONF slot's entry is never read or written (R50). -/
  eps : List Ep
  /-- Sticky fault bit MMIO_ACCESS (R283) -/
  faultMmio : Bool
  /-- Sticky fault bit HOST_ACCESS (R283) -/
  faultHost : Bool
  /-- Sticky fault bit UNWRITTEN_READ (R283) -/
  faultUnwritten : Bool
  /-- The event history, oldest first (R81) -/
  history : List Event
  /-- HOST memory (R70, R73); an unlisted byte reads 0x00 (log entry 4) -/
  hostMem : Mem
  /-- MODEL: the value the last register read returned (log entry 6) -/
  rdata : Word
  /-- MODEL: the inputs still to come, oldest first (log entry 1) -/
  inputs : List Input
  /-- MODEL: how many free inputs have been drawn (log entry 2) -/
  draws : Nat
deriving DecidableEq, Repr

/-- Why a step stops the machine. -/
inductive Fault where
  /-- A rule read a QMEM or BDATA byte that nothing has written (10_state.md R51, 60_exceptions.md R283).
  Raised by Q_POP, Q_PEEK, EP_READ and by SVC, DISP and BUS steps, in states no run from reset reaches.
  `after` is the state before the step with the FAULT event and the sticky bit recorded. SAFE. -/
  | unwrittenRead (after : State)
deriving DecidableEq, Repr

/-- Why the model gives no step. -/
inductive Refusal where
  /-- An instruction with no meaning yet; raised by no arm of `exec` in this model. SAFE. -/
  | notModelled (mnemonic : String)
  /-- The configuration breaks 00_scope.md R7 to R11, or the endpoint list does not have one entry per
  slot: "the model has no machine for it" (R10). Raised by `step`. SAFE. -/
  | illFormedConfiguration
  /-- A SETUP of other than 8 bytes or an OUT of more than BSIZE bytes: the host has no such move
  (43_bus_agent.md R212). Raised by the BUS agent. SAFE. -/
  | noSuchBusMove
deriving DecidableEq, Repr

/-- A bank after either reset, less its data (10_state.md R46). -/
def Bank.por (c : EpCfg) : Bank where
  st := if c.kind = .out then .freeRx else .fill
  cnt := 0
  rdp := 0
  data := []

/-- A queue after power-on reset (10_state.md R42). -/
def Queue.por (c : EpCfg) : Queue where
  cap := c.qmax
  rd := 0
  size := 0
  fail := false
  mem := []

/-- An endpoint after power-on reset (10_state.md R34 to R46). -/
def Ep.por (c : EpCfg) : Ep where
  flush := false
  dir := .none
  dataReady := false
  stall := false
  cb := 0
  cbctx := 0
  ien := match c.kind with
    | .control => 0x05
    | .out => 0x04
    | .inn | .unconf => 0x00
  ipend := match c.kind with
    | .inn => 0x02
    | .control | .out | .unconf => 0x00
  q := Queue.por c
  bank0 := Bank.por c
  bank1 := Bank.por c
  cur := false
  busPtr := false

/-- The machine of configuration `c` after power-on reset (70_reset_and_hazards.md R310, R312). -/
def State.por (c : Config) : State where
  cfg := c
  cmd := 0
  argA := 0
  argB := 0
  argC := 0
  result := 0
  status := 0
  faddr := 0
  ctlState := .setup
  ctlAddr := 0
  tokenLatch := 0
  tokenPending := false
  eps := c.eps.map Ep.por
  faultMmio := false
  faultHost := false
  faultUnwritten := false
  history := []
  hostMem := []
  rdata := 0
  inputs := []
  draws := 0

/-- The machine right after reset, in the reference configuration (log entry 3). -/
def State.reset : State := State.por Config.reference

end Sys2Proof.Machine
end

