-- ==== Sys2Proof/Machine/Flags.lean ====
section
/-!
DEFINITION. The interrupt-enable and pending bits (10_state.md R39, R40), the interrupt request (R41)
and the token (10_state.md R45, 42_engine_service.md R171).
-/

namespace Sys2Proof.Machine

/-- Bit 0 of IEN and IPEND: SETUP, RXSTP. -/
abbrev bitSetup : Nat := 0
/-- Bit 1: IN, TXIN. -/
abbrev bitIn : Nat := 1
/-- Bit 2: OUT, RXOUT. -/
abbrev bitOut : Nat := 2
/-- Bit 3: NAK-IN, NAKIN. -/
abbrev bitNakIn : Nat := 3
/-- Bit 4: NAK-OUT, NAKOUT. -/
abbrev bitNakOut : Nat := 4
/-- Bit 5: FLOW-ERROR, FLERR. -/
abbrev bitFlowErr : Nat := 5
/-- Bit 6: STALLED. -/
abbrev bitStalled : Nat := 6

/-- Bit `k` of `v` becomes `b`; the other bits keep their values. -/
def setBit (v : Bits7) (k : Nat) (b : Bool) : Bits7 :=
  if b then v ||| (1#7 <<< k) else v &&& ~~~(1#7 <<< k)

/-- Token bits (10_state.md R45). -/
abbrev tokSetup : Token := 0x01
abbrev tokIn : Token := 0x02
abbrev tokOut : Token := 0x04
abbrev tokStall : Token := 0x08
abbrev tokNak : Token := 0x10
abbrev tokFlowErr : Token := 0x20

/-- `m ∈ t`: the token holds the bit. -/
def tokHas (t m : Token) : Bool := (t &&& m) != 0

/-- The enabled pending flags, IPEND[e] & IEN[e] (42_engine_service.md R171). -/
def Ep.pending (p : Ep) : Bits7 := p.ipend &&& p.ien

/-- IRQ[e] (10_state.md R41). -/
def Ep.irq (p : Ep) : Bool := p.pending != 0

/-- The token of a service step from the enabled pending flags (42_engine_service.md R171). -/
def tokenOf (p : Bits7) : Token :=
  (if p.getLsbD bitSetup then tokSetup else 0)
  ||| (if p.getLsbD bitIn then tokIn else 0)
  ||| (if p.getLsbD bitOut then tokOut else 0)
  ||| (if p.getLsbD bitStalled then tokStall else 0)
  ||| (if p.getLsbD bitNakIn || p.getLsbD bitNakOut then tokNak else 0)
  ||| (if p.getLsbD bitFlowErr then tokFlowErr else 0)

/-- The auxiliary flags: NAKIN, NAKOUT, FLERR, STALLED (42_engine_service.md R196). -/
abbrev auxMask : Bits7 := 0x78

/-- The auxiliary flags that were serviced are cleared (42_engine_service.md R196). -/
def clearAux (ipend serviced : Bits7) : Bits7 := ipend &&& ~~~(serviced &&& auxMask)

end Sys2Proof.Machine
end

