-- ==== Sys2Proof/Machine/Ops.lean ====
section
/-!
DEFINITION. The operations that commands, the service engine, the bus side and the dispatcher share:
memory, the queue primitives (40_queue_commands.md R110 to R115), the bank primitives
(42_engine_service.md R173 to R177), the endpoint primitives (41_endpoint_commands.md R149 to R151),
how a command ends (60_exceptions.md R281, 30_encoding.md R91) and how a model fault is recorded
(60_exceptions.md R283).
-/

namespace Sys2Proof.Machine

/-- What a step, an instruction or an agent answers. -/
abbrev Result := Host.Outcome State Fault Refusal

/-! ### Memory -/

/-- The byte listed at `k`, if any. -/
def Mem.read : Mem → Nat → Option Byte
  | [], _ => none
  | (a, v) :: m, k => if a = k then some v else Mem.read m k

/-- List `v` at `k`, in address order. -/
def Mem.write : Mem → Nat → Byte → Mem
  | [], k, v => [(k, v)]
  | (a, w) :: m, k, v =>
    if k < a then (k, v) :: (a, w) :: m
    else if k = a then (k, v) :: m
    else (a, w) :: Mem.write m k v

/-- List nothing at `k`. -/
def Mem.erase : Mem → Nat → Mem
  | [], _ => []
  | (a, w) :: m, k => if a = k then m else (a, w) :: Mem.erase m k

/-- Every address is at least `lo`, and addresses strictly rise. -/
def Mem.canonFrom : Nat → Mem → Bool
  | _, [] => true
  | lo, (a, _) :: m => decide (lo ≤ a) && Mem.canonFrom (a + 1) m

/-- The canonical form: addresses strictly rising. -/
def Mem.canon (m : Mem) : Bool := Mem.canonFrom 0 m

/-- Every listed address is below `n`. -/
def Mem.below (n : Nat) (m : Mem) : Bool := m.all fun c => decide (c.1 < n)

/-- Write the bytes at `k`, `k + 1`, ... -/
def Mem.writeAll (m : Mem) (k : Nat) : List Byte → Mem
  | [] => m
  | v :: vs => Mem.writeAll (Mem.write m k v) (k + 1) vs

/-- Read `n` bytes from `k`; nothing if one of them is unwritten. -/
def Mem.readAll (m : Mem) (k : Nat) : Nat → Option (List Byte)
  | 0 => some []
  | n + 1 =>
    match Mem.read m k with
    | none => none
    | some v =>
      match Mem.readAll m (k + 1) n with
      | none => none
      | some vs => some (v :: vs)

/-- What an unlisted HOST byte reads as. DESIGN CHOICE (log entry 4, unsafe). -/
abbrev hostDefault : Byte := 0

/-- MemRead(a, 1) (20_memory.md R73). -/
def hostRead (m : Mem) (a : Word) : Byte := (Mem.read m a.toNat).getD hostDefault

/-- MemWrite(a, 1, v) (20_memory.md R73); writing what an unlisted byte reads as removes the entry. -/
def hostWrite (m : Mem) (a : Word) (v : Byte) : Mem :=
  if v = hostDefault then Mem.erase m a.toNat else Mem.write m a.toNat v

/-- The canonical form of HOST memory: rising 32-bit addresses, no entry equal to the default. -/
def Mem.wf (m : Mem) : Bool :=
  Mem.canon m && Mem.below (2 ^ 32) m && m.all fun c => c.2 != hostDefault

/-- Whether the platform admits the one-byte access at `a` (20_memory.md R73). -/
def hostAdmits (c : Config) (isWrite : Bool) (a : Word) : Bool :=
  c.host.any fun r =>
    decide (r.base ≤ a.toNat) && decide (a.toNat < r.base + r.size)
      && (if isWrite then r.writable else r.readable)

/-! ### Configuration -/

/-- R8 and R9 for one slot; an unconfigured slot has no parameters to check. -/
def slotOk (c : EpCfg) : Bool :=
  match c.kind with
  | .unconf => true
  | .control | .inn | .out =>
    (decide (c.nbanks = 1) || (decide (c.nbanks = 2) && decide (c.kind ≠ .control)))
      && decide (c.bsize = 8 ∨ c.bsize = 16 ∨ c.bsize = 32 ∨ c.bsize = 64)
      && decide (1 ≤ c.qmax) && decide (c.qmax ≤ 65535)

/-- 00_scope.md R7 to R11. -/
def configOk (c : Config) : Bool :=
  decide (1 ≤ c.eps.length) && decide (c.eps.length ≤ 16)
    && decide ((c.eps[0]?.map EpCfg.kind) = some .control)
    && c.eps.all slotOk
    && decide (1 ≤ c.devDesc.length) && decide (c.devDesc.length ≤ 65535)
    && decide (1 ≤ c.cfgDesc.length) && decide (c.cfgDesc.length ≤ 65535)
    && decide (1 ≤ c.cfgHdrLen) && decide (c.cfgHdrLen ≤ c.cfgDesc.length)
    && decide (c.statusBytes.length = 2)

/-- The configuration is well formed and the endpoint list has one entry per slot. -/
def State.shapeOk (s : State) : Bool :=
  configOk s.cfg && decide (s.eps.length = s.cfg.eps.length)

/-! ### Endpoints of a state -/

/-- Endpoint `e` with its parameters, if it is configured: e < NUM_EP and EPTYPE[e] ≠ UNCONF (10_state.md R50). -/
def State.ep? (s : State) (e : Nat) : Option (EpCfg × Ep) :=
  match s.cfg.eps[e]?, s.eps[e]? with
  | some c, some p => if c.kind = .unconf then none else some (c, p)
  | _, _ => none

/-- Endpoint `e` becomes `p`. -/
def State.setEp (s : State) (e : Nat) (p : Ep) : State := { s with eps := s.eps.set e p }

/-- `emit Event` (00_scope.md R14, 20_memory.md R81). -/
def State.emit (s : State) (ev : Event) : State := { s with history := s.history ++ [ev] }

/-! ### How a command ends, and faults -/

/-- Command error codes (60_exceptions.md R280). -/
abbrev errIllegalOpcode : BitVec 4 := 1
abbrev errReservedBits : BitVec 4 := 2
abbrev errBadEndpoint : BitVec 4 := 3
abbrev errBadArgument : BitVec 4 := 4

/-- A command ends: STATUS and RESULT are written and its event is recorded with the word in CMD
(30_encoding.md R91, 20_memory.md R81). -/
def State.finish (s : State) (code : BitVec 4) (r : Half) : State :=
  { s with status := code, result := r, history := s.history ++ [.cmd s.cmd code r] }

/-- Completion: STATUS <- 0, RESULT <- r (30_encoding.md R91). -/
def State.complete (s : State) (r : Half) : State := s.finish 0 r

/-- `raise CmdError(code)`: STATUS.ERR <- code, RESULT <- 0, no other change (60_exceptions.md R281). -/
def State.cmdError (s : State) (code : BitVec 4) : State := s.finish code 0

/-- A model fault is recorded as an event and as its sticky bit (60_exceptions.md R283). -/
def State.recordFault (s : State) (k : FaultKind) : State :=
  match k with
  | .mmioAccess => { s with faultMmio := true, history := s.history ++ [.fault .mmioAccess] }
  | .hostAccess => { s with faultHost := true, history := s.history ++ [.fault .hostAccess] }
  | .unwrittenRead => { s with faultUnwritten := true, history := s.history ++ [.fault .unwrittenRead] }

/-- A rule read an unwritten byte: the step that began in `s` stops (10_state.md R51, 60_exceptions.md R283). -/
def unwrittenFault (s : State) : Result := .fault (.unwrittenRead (s.recordFault .unwrittenRead))

/-! ### Queue primitives -/

/-- `Q.init(cap)` (40_queue_commands.md R110). -/
def Queue.init (q : Queue) (cap : Nat) : Queue :=
  { q with cap := cap, rd := 0, size := 0, fail := false }

/-- `Q.reset()` (R111). -/
def Queue.reset (q : Queue) : Queue := { q with rd := 0, size := 0 }

/-- full(Q) (R115). -/
def Queue.full (q : Queue) : Bool := decide (q.size = q.cap)

/-- empty(Q) (R115). -/
def Queue.empty (q : Queue) : Bool := decide (q.size = 0)

/-- available(Q) (R115). -/
def Queue.available (q : Queue) : Nat := q.cap - q.size

/-- `Q.push(v) -> ok` (R112). -/
def Queue.push (q : Queue) (v : Byte) : Bool × Queue :=
  if q.size = q.cap then (false, { q with fail := true })
  else (true, { q with mem := Mem.write q.mem ((q.rd + q.size) % q.cap) v, size := q.size + 1 })

/-- `Q.pop() -> v` (R113); nothing if the byte is unwritten (10_state.md R51). -/
def Queue.pop (q : Queue) : Option (Byte × Queue) :=
  if q.size = 0 then some (0, { q with fail := true })
  else
    match Mem.read q.mem q.rd with
    | none => none
    | some v => some (v, { q with rd := (q.rd + 1) % q.cap, size := q.size - 1 })

/-- `Q.peek() -> v` (R114); nothing if the byte is unwritten (10_state.md R51). -/
def Queue.peek (q : Queue) : Option (Byte × Queue) :=
  if q.size = 0 then some (0, { q with fail := true })
  else
    match Mem.read q.mem q.rd with
    | none => none
    | some v => some (v, q)

/-- Push the bytes in order. -/
def Queue.pushAll (q : Queue) : List Byte → Queue
  | [] => q
  | v :: vs => Queue.pushAll (q.push v).2 vs

/-- Push `n` bytes of HOST memory from address `a` upward, wrapping modulo 2^32; false when a read
is refused, with the bytes before it pushed (20_memory.md R73, 41_endpoint_commands.md R140). -/
def hostToQueue (c : Config) (m : Mem) : Nat → Word → Queue → Bool × Queue
  | 0, _, q => (true, q)
  | n + 1, a, q =>
    if hostAdmits c false a then hostToQueue c m n (a + 1) (q.push (hostRead m a)).2
    else (false, q)

/-- Pop `n` bytes into HOST memory from address `a` upward, wrapping modulo 2^32; false when a write
is refused, with the bytes before it moved (20_memory.md R73, 41_endpoint_commands.md R141). Nothing
if a byte is unwritten. Whether the refused byte has left the queue is free (log entry 7). -/
def queueToHost (c : Config) : Nat → Word → Queue → Mem → Option (Bool × Queue × Mem)
  | 0, _, q, m => some (true, q, m)
  | n + 1, a, q, m =>
    match q.pop with
    | none => none
    | some (v, q') =>
      if hostAdmits c true a then queueToHost c n (a + 1) q' (hostWrite m a v)
      else some (false, if Config.refusedByteHasLeft then q' else q, m)

/-! ### Endpoint primitives -/

/-- The IN enable is set and DIR becomes IN (41_endpoint_commands.md R140, R149, R150). -/
def Ep.startIn (p : Ep) : Ep := { p with ien := setBit p.ien bitIn true, dir := .inn }

/-- `enqueue_tx(e, src, len)` with the `len` source bytes `src` (41_endpoint_commands.md R149). -/
def Ep.enqueueTx (p : Ep) (src : List Byte) : Ep :=
  let bytes := src.take (min src.length p.q.available)
  let p' := { p with q := p.q.pushAll bytes }
  if bytes.length > 0 then p'.startIn else p'

/-- `do_flush(e)` (41_endpoint_commands.md R150). -/
def Ep.doFlush (p : Ep) : Ep := { p.startIn with flush := true }

/-- `do_stall(e)` (41_endpoint_commands.md R151). -/
def Ep.doStall (p : Ep) : Ep := { p with stall := true }

/-! ### Bank primitives -/

/-- Bank 0 or bank 1. -/
def Ep.bank (p : Ep) (b : Bool) : Bank := if b then p.bank1 else p.bank0

/-- The bank becomes `bk`. -/
def Ep.setBank (p : Ep) (b : Bool) (bk : Bank) : Ep :=
  if b then { p with bank1 := bk } else { p with bank0 := bk }

/-- The bank after `b`: the other one when there are two (10_state.md R44). -/
def nextBank (c : EpCfg) (b : Bool) : Bool := if c.nbanks = 2 then !b else b

/-- The state of a bank that holds nothing: FREE_RX on an OUT endpoint, else FILL
(42_engine_service.md R173, R194). -/
def idleState (c : EpCfg) : BankState := if c.kind = .out then .freeRx else .fill

/-- A bank emptied: idle, count and read position 0, the data bytes kept. -/
def Bank.emptied (c : EpCfg) (bk : Bank) : Bank := { bk with st := idleState c, cnt := 0, rdp := 0 }

/-- `release_out(e)` (42_engine_service.md R173). -/
def Ep.releaseOut (c : EpCfg) (p : Ep) : Ep :=
  { p.setBank p.cur (Bank.emptied c (p.bank p.cur)) with
    dataReady := decide ((p.bank p.cur).cnt < c.bsize)
    cur := nextBank c p.cur }

/-- The current bank is HELD. -/
def Ep.curHeld (p : Ep) : Bool := decide ((p.bank p.cur).st = .held)

/-- `clear_out_ack(e)` (42_engine_service.md R174). -/
def Ep.clearOutAck (c : EpCfg) (p : Ep) : Ep :=
  let p1 := if (p.bank p.cur).st = .held ∧ (p.bank p.cur).rdp = (p.bank p.cur).cnt
    then p.releaseOut c else p
  { p1 with ipend := setBit p1.ipend bitOut p1.curHeld }

/-- `commit(e)` (42_engine_service.md R175). -/
def Ep.commit (c : EpCfg) (p : Ep) : Ep :=
  { p.setBank p.cur { p.bank p.cur with st := .committed } with cur := nextBank c p.cur }

/-- `clear_tx_ack(e)` (42_engine_service.md R176). -/
def Ep.clearTxAck (c : EpCfg) (p : Ep) : Ep :=
  let p1 := if (p.bank p.cur).st = .fill then p.commit c else p
  { p1 with
    ipend := setBit p1.ipend bitIn (decide (c.kind = .inn ∧ (p1.bank p1.cur).st = .fill)) }

/-- `clear_setup_ack(e)` (42_engine_service.md R177). -/
def Ep.clearSetupAck (p : Ep) : Ep :=
  { p with
    ipend := setBit (setBit p.ipend bitSetup false) bitIn true
    bank0 := { p.bank0 with st := .fill, cnt := 0, rdp := 0 } }

end Sys2Proof.Machine
end

