-- ==== Sys2Proof/Machine/Bus.lean ====
section
/-!
DEFINITION. The BUS agent: one transaction a step (43_bus_agent.md R210 to R221) and the bus reset
(70_reset_and_hazards.md R311).
-/

namespace Sys2Proof.Machine

/-- A bank that has just received a packet (R213, R215, R217). -/
def Bank.receive (bk : Bank) (d : List Byte) : Bank :=
  { st := .held, cnt := d.length, rdp := 0, data := Mem.writeAll bk.data 0 d }

/-- SETUP reception on a CONTROL endpoint (R213, R214). -/
def Ep.receiveSetup (p : Ep) (d : List Byte) : Ep :=
  { p with
    bank0 := p.bank0.receive d
    ipend := setBit (setBit (setBit p.ipend bitSetup true) bitIn false) bitOut false
    stall := false }

/-- OUT on a CONTROL endpoint (R215). -/
def Ep.outControl (p : Ep) (d : List Byte) : Ep × Reply :=
  if p.stall then ({ p with ipend := setBit p.ipend bitStalled true }, .stall)
  else if p.ien.getLsbD bitOut = false ∨ p.ipend.getLsbD bitSetup ∨ p.bank0.st = .held then
    ({ p with ipend := setBit p.ipend bitNakOut true }, .nak)
  else
    let displaced := if p.bank0.st = .committed then setBit p.ipend bitIn true else p.ipend
    ({ p with ipend := setBit displaced bitOut true, bank0 := p.bank0.receive d }, .ack)

/-- OUT on an OUT endpoint (R217). -/
def Ep.outData (c : EpCfg) (p : Ep) (d : List Byte) : Ep × Reply :=
  if p.stall then ({ p with ipend := setBit p.ipend bitStalled true }, .stall)
  else if p.ien.getLsbD bitOut = false ∨ (p.bank p.busPtr).st ≠ .freeRx then
    ({ p with ipend := setBit p.ipend bitNakOut true }, .nak)
  else
    ({ p.setBank p.busPtr ((p.bank p.busPtr).receive d) with
        ipend := setBit p.ipend bitOut true
        busPtr := nextBank c p.busPtr }, .ack)

/-- IN on an IN or CONTROL endpoint (R216). Nothing if a byte sent is unwritten. -/
def Ep.inPoll (c : EpCfg) (p : Ep) : Option (Ep × Reply) :=
  if p.stall then some ({ p with ipend := setBit p.ipend bitStalled true }, .stall)
  else if (p.bank p.busPtr).st = .committed then
    match Mem.readAll (p.bank p.busPtr).data 0 (p.bank p.busPtr).cnt with
    | none => none
    | some d =>
      some ({ p.setBank p.busPtr { p.bank p.busPtr with st := .fill, cnt := 0 } with
                ipend := setBit p.ipend bitIn true
                busPtr := nextBank c p.busPtr }, .data d)
  else some ({ p with ipend := setBit p.ipend bitNakIn true }, .nak)

/-- A bank after a bus reset: the data bytes are kept (70_reset_and_hazards.md R311, R312). -/
def Bank.busReset (c : EpCfg) (bk : Bank) : Bank := { Bank.por c with data := bk.data }

/-- An endpoint after a bus reset: CB, CBCTX and the stored bytes are kept; an unconfigured slot has no
state (R311, R312). -/
def Ep.busReset (c : EpCfg) (p : Ep) : Ep :=
  if c.kind = .unconf then p
  else
    { Ep.por c with
      cb := p.cb
      cbctx := p.cbctx
      q := { Queue.por c with mem := p.q.mem }
      bank0 := Bank.busReset c p.bank0
      bank1 := Bank.busReset c p.bank1 }

/-- Bus reset of the whole engine (R311). -/
def State.busReset (s : State) : State :=
  { s with
    faddr := 0
    ctlState := .setup
    ctlAddr := 0
    tokenLatch := 0
    tokenPending := false
    eps := List.zipWith Ep.busReset s.cfg.eps s.eps }

/-- The transaction ends with reply `r` and no change of state but its event. -/
def State.busReply (s : State) (t : BusTxn) (r : Reply) : Result := .next (s.emit (.bus t r))

/-- The endpoint that a transaction with address `a` and endpoint number `e` reaches (R211). -/
def State.busTarget (s : State) (a : Bits7) (e : Nat) : Option (EpCfg × Ep) :=
  if a = s.faddr then s.ep? e else none

/-- An OUT of `d` is longer than a bank of endpoint `e` (R212). -/
def State.outTooLong (s : State) (e : Nat) (d : List Byte) : Bool :=
  match s.ep? e with
  | none => false
  | some (c, _) => decide (c.bsize < d.length)

/-- One bus transaction (R210). -/
def busStep (t : BusTxn) (s : State) : Result :=
  match t with
  | .setup a e d =>
    if d.length ≠ 8 then .refused .noSuchBusMove
    else
      match s.busTarget a e with
      | none => s.busReply t .none
      | some (c, p) =>
        match c.kind with
        | .control => (s.setEp e (p.receiveSetup d)).busReply t .ack
        | .inn | .out | .unconf => s.busReply t .none
  | .out a e d =>
    if s.outTooLong e d then .refused .noSuchBusMove
    else
      match s.busTarget a e with
      | none => s.busReply t .none
      | some (c, p) =>
        match c.kind with
        | .control => (s.setEp e (p.outControl d).1).busReply t (p.outControl d).2
        | .out => (s.setEp e (p.outData c d).1).busReply t (p.outData c d).2
        | .inn | .unconf => s.busReply t .none
  | .inn a e =>
    match s.busTarget a e with
    | none => s.busReply t .none
    | some (c, p) =>
      match c.kind with
      | .control | .inn =>
        match p.inPoll c with
        | none => unwrittenFault s
        | some (p', r) => (s.setEp e p').busReply t r
      | .out | .unconf => s.busReply t .none
  | .flowerr e =>
    match s.ep? e with
    | none => s.busReply t .none
    | some (_, p) =>
      (s.setEp e { p with ipend := setBit p.ipend bitFlowErr true }).busReply t .none
  | .reset => s.busReset.busReply t .none

end Sys2Proof.Machine
end

