-- ==== Sys2Proof/Machine/Control.lean ====
section
/-!
DEFINITION. The DISP agent: the token dispatcher and the control state machine
(44_control_fsm.md R240 to R265). Both act on endpoint 0 only.
-/

namespace Sys2Proof.Machine

/-- The ControlRequest, an 8-byte view of the endpoint-0 queue's storage (R250, R251). -/
structure Request where
  bmRequestType : Byte
  bRequest : Byte
  wValue : Half
  wIndex : Half
  wLength : Half
deriving DecidableEq, Repr

/-- A little-endian 16-bit field (20_memory.md R78). -/
def halfLE (lo hi : Byte) : Half := hi ++ lo

/-- The request view (R250, R251); nothing if one of the eight bytes is unwritten (10_state.md R51). -/
def requestView (m : Mem) : Option Request :=
  match Mem.readAll m 0 8 with
  | some [b0, b1, b2, b3, b4, b5, b6, b7] =>
    some ⟨b0, b1, halfLE b2 b3, halfLE b4 b5, halfLE b6 b7⟩
  | _ => none

/-- Endpoint 0 becomes `p` and the control state machine goes to `n`. -/
def State.control (s : State) (p : Ep) (n : CtlState) : State :=
  { s.setEp 0 p with ctlState := n }

/-- Queue a response, flush it and wait for the drain (R254, R255, R258). -/
def State.respond (s : State) (p : Ep) (src : List Byte) : State :=
  s.control (p.enqueueTx src).doFlush .awaitFlush

/-- GET_DESCRIPTOR (R253 to R255); the descriptor type is wValue[15:8]. -/
def State.getDescriptor (s : State) (p : Ep) (r : Request) : State :=
  match (r.wValue.extractLsb' 8 8).toNat with
  | 0x01 => s.respond p s.cfg.devDesc
  | 0x02 =>
    if r.wLength.toNat = s.cfg.cfgHdrLen then s.respond p (s.cfg.cfgDesc.take s.cfg.cfgHdrLen)
    else s.respond p s.cfg.cfgDesc
  | 0x03 => s.control p .setup
  | _ => s.control p.doStall .setup

/-- SET_ADDRESS (R256). -/
def State.setAddress (s : State) (p : Ep) (r : Request) : State :=
  { s.control { p with ien := setBit p.ien bitIn true } .awaitInForAddress with
    ctlAddr := r.wValue.extractLsb' 0 7 }

/-- SET_CONFIGURATION (R257). -/
def State.setConfiguration (s : State) (p : Ep) : State := s.control p.doFlush .setup

/-- GET_STATUS (R258). -/
def State.getStatus (s : State) (p : Ep) : State := s.respond p (s.cfg.statusBytes.take 2)

/-- The request rule that bRequest selects (R252); `p` is endpoint 0 with its queue reset (R250). -/
def State.handleRequest (s : State) (p : Ep) (r : Request) : State :=
  match r.bRequest.toNat with
  | 0x06 => s.getDescriptor p r
  | 0x05 => s.setAddress p r
  | 0x09 => s.setConfiguration p
  | 0x00 => s.getStatus p
  | _ => s.control p.doStall .setup

/-- From AWAIT_IN_FOR_ADDRESS with IN in the batch (R246, R265). -/
def State.applyAddress (s : State) (c : EpCfg) (p : Ep) : State :=
  let p1 := p.clearTxAck c
  { s.control { p1 with q := p1.q.reset } .setup with faddr := s.ctlAddr }

/-- The transition of the control state machine on batch `t` (R242 to R248), `c` and `p` being
endpoint 0. Nothing if the request view reads an unwritten byte. -/
def State.transition (s : State) (t : Token) (c : EpCfg) (p : Ep) : Option State :=
  match s.ctlState with
  | .setup =>
    if tokHas t tokSetup then
      match requestView p.q.mem with
      | none => none
      | some r => some (s.handleRequest { p with q := p.q.reset } r)
    else some s
  | .awaitFlush => some (if p.flush then s else { s with ctlState := .setup })
  | .awaitInForAddress =>
    if tokHas t tokIn then some (s.applyAddress c p)
    else if tokHas t tokSetup then some { s with ctlState := .setup }
    else some s

/-- A DISP step offered (R240, R241): without its guard nothing happens. -/
def dispStep (s : State) : Result :=
  if s.tokenPending then
    match s.ep? 0 with
    | none => .next s
    | some (c, p) =>
      match { s with tokenLatch := 0, tokenPending := false }.transition s.tokenLatch c p with
      | none => unwrittenFault s
      | some s' => .next (s'.emit (.disp s.tokenLatch s.ctlState s'.ctlState))
  else .next s

end Sys2Proof.Machine
end

