-- ==== Sys2Proof/Machine/Operands.lean ====
section
/-!
DEFINITION. The operand forms of 30_encoding.md R93, read from the argument registers with no sign
extension, scaling or shift, and the checks every command passes first (60_exceptions.md R282).
-/

namespace Sys2Proof.Machine

/-- `len`, `maxlen`, `cap`: ARG_B, unsigned. -/
def State.argLen (s : State) : Nat := s.argB.toNat

/-- `byte`: ARG_B[7:0]. -/
def State.argByte (s : State) : Byte := s.argB.extractLsb' 0 8

/-- `byte` with ARG_B[15:8] not 0. -/
def State.argByteReserved (s : State) : Bool := s.argB.extractLsb' 8 8 != 0

/-- `bool`: ARG_B[0]. -/
def State.argBool (s : State) : Bool := s.argB.getLsbD 0

/-- `bool` with ARG_B[15:1] not 0. -/
def State.argBoolReserved (s : State) : Bool := s.argB.extractLsb' 1 15 != 0

/-- `mask` and `addr7`: ARG_B[6:0]. -/
def State.argSeven (s : State) : Bits7 := s.argB.extractLsb' 0 7

/-- `mask` or `addr7` with ARG_B[15:7] not 0. -/
def State.argSevenReserved (s : State) : Bool := s.argB.extractLsb' 7 9 != 0

/-- A boolean result, zero-extended: 1 or 0. -/
def half (b : Bool) : Half := if b then 1 else 0

/-- A byte result, zero-extended (R94). -/
def halfOfByte (v : Byte) : Half := v.setWidth 16

/-- A count or size as a 16-bit result. -/
def halfOfNat (n : Nat) : Half := BitVec.ofNat 16 n

/-- Run a command on endpoint `e` after the checks of 60_exceptions.md R282 that follow decoding:
the operand's must-be-0 bits first, then the endpoint. -/
def withEndpoint (e : Nat) (reserved : Bool) (s : State) (body : EpCfg → Ep → Result) : Result :=
  if reserved then .next (s.cmdError errReservedBits)
  else
    match s.ep? e with
    | none => .next (s.cmdError errBadEndpoint)
    | some (c, p) => body c p

end Sys2Proof.Machine
end

