-- ==== Sys2Proof/Machine/EndpointCommands.lean ====
section
/-!
DEFINITION. The nine commands of the endpoint contract (41_endpoint_commands.md R140 to R148).
-/

namespace Sys2Proof.Machine

/-- EP_WRITE (R140). A refused host read stops the command before RESULT and STATUS are written, with
the bytes already pushed kept (20_memory.md R73; log entry 8). -/
def execEpWrite (e : Nat) (s : State) : Result :=
  withEndpoint e false s fun _ p =>
    let n := min s.argLen p.q.available
    match hostToQueue s.cfg s.hostMem n s.argA p.q with
    | (false, q) => .next ((s.setEp e { p with q := q }).recordFault .hostAccess)
    | (true, q) =>
      let p' := { p with q := q }
      .next ((s.setEp e (if n > 0 then p'.startIn else p')).complete (halfOfNat n))

/-- EP_READ (R141). A refused host write stops the command before RESULT and STATUS are written, with
the bytes already moved kept (20_memory.md R73; log entries 7 and 8). -/
def execEpRead (e : Nat) (s : State) : Result :=
  withEndpoint e false s fun _ p =>
    let n := min s.argLen p.q.size
    match queueToHost s.cfg n s.argA p.q s.hostMem with
    | none => unwrittenFault s
    | some (false, q, m) =>
      .next ({ s.setEp e { p with q := q } with hostMem := m }.recordFault .hostAccess)
    | some (true, q, m) =>
      .next ({ s.setEp e { p with q := q } with hostMem := m }.complete (halfOfNat n))

/-- EP_FLUSH (R142). -/
def execEpFlush (e : Nat) (s : State) : Result :=
  withEndpoint e false s fun _ p => .next ((s.setEp e p.doFlush).complete 0)

/-- EP_FLUSH_COMPLETE (R143). -/
def execEpFlushComplete (e : Nat) (s : State) : Result :=
  withEndpoint e false s fun _ p => .next (s.complete (half (!p.flush)))

/-- EP_DATA_READY (R144). -/
def execEpDataReady (e : Nat) (s : State) : Result :=
  withEndpoint e false s fun _ p => .next (s.complete (half p.dataReady))

/-- EP_SET_CALLBACK (R145): endpoint 0 has no bindable callback. -/
def execEpSetCallback (e : Nat) (s : State) : Result :=
  withEndpoint e false s fun _ p =>
    if e = 0 then .next (s.complete 0)
    else .next ((s.setEp e { p with cb := s.argA, cbctx := s.argC }).complete 1)

/-- EP_SET_STALL (R146). -/
def execEpSetStall (e : Nat) (s : State) : Result :=
  withEndpoint e s.argBoolReserved s fun _ p =>
    .next ((s.setEp e { p with stall := s.argBool }).complete 0)

/-- EP_SET_INTERRUPTS (R147). -/
def execEpSetInterrupts (e : Nat) (s : State) : Result :=
  withEndpoint e s.argSevenReserved s fun _ p =>
    .next ((s.setEp e { p with ien := s.argSeven }).complete 0)

/-- DEV_SET_ADDRESS (R148). It names no endpoint, so only its operand is checked (60_exceptions.md R282). -/
def execDevSetAddress (s : State) : Result :=
  if s.argSevenReserved then .next (s.cmdError errReservedBits)
  else .next ({ s with faddr := s.argSeven }.complete 0)

end Sys2Proof.Machine
end

