-- ==== Sys2Proof/Machine/QueueCommands.lean ====
section
/-!
DEFINITION. The ten queue commands (40_queue_commands.md R120 to R129).
-/

namespace Sys2Proof.Machine

/-- Q_INIT (R120). -/
def execQInit (e : Nat) (s : State) : Result :=
  withEndpoint e false s fun c p =>
    if s.argLen = 0 ∨ c.qmax < s.argLen then .next (s.cmdError errBadArgument)
    else .next ((s.setEp e { p with q := p.q.init s.argLen }).complete 0)

/-- Q_RESET (R121). -/
def execQReset (e : Nat) (s : State) : Result :=
  withEndpoint e false s fun _ p =>
    .next ((s.setEp e { p with q := p.q.reset }).complete 0)

/-- Q_PUSH (R122). -/
def execQPush (e : Nat) (s : State) : Result :=
  withEndpoint e s.argByteReserved s fun _ p =>
    let r := p.q.push s.argByte
    .next ((s.setEp e { p with q := r.2 }).complete (half r.1))

/-- Q_POP (R123). -/
def execQPop (e : Nat) (s : State) : Result :=
  withEndpoint e false s fun _ p =>
    match p.q.pop with
    | none => unwrittenFault s
    | some (v, q) => .next ((s.setEp e { p with q := q }).complete (halfOfByte v))

/-- Q_PEEK (R124). -/
def execQPeek (e : Nat) (s : State) : Result :=
  withEndpoint e false s fun _ p =>
    match p.q.peek with
    | none => unwrittenFault s
    | some (v, q) => .next ((s.setEp e { p with q := q }).complete (halfOfByte v))

/-- Q_AVAILABLE (R125). -/
def execQAvailable (e : Nat) (s : State) : Result :=
  withEndpoint e false s fun _ p => .next (s.complete (halfOfNat p.q.available))

/-- Q_FULL (R126). -/
def execQFull (e : Nat) (s : State) : Result :=
  withEndpoint e false s fun _ p => .next (s.complete (half p.q.full))

/-- Q_EMPTY (R127). -/
def execQEmpty (e : Nat) (s : State) : Result :=
  withEndpoint e false s fun _ p => .next (s.complete (half p.q.empty))

/-- Q_FAILED (R128). -/
def execQFailed (e : Nat) (s : State) : Result :=
  withEndpoint e false s fun _ p => .next (s.complete (half p.q.fail))

/-- Q_CLRFAIL (R129). -/
def execQClrfail (e : Nat) (s : State) : Result :=
  withEndpoint e false s fun _ p =>
    .next ((s.setEp e { p with q := { p.q with fail := false } }).complete 0)

end Sys2Proof.Machine
end

