-- ==== Sys2Proof/Machine/Dispatch.lean ====
section
/-!
DEFINITION. One arm per command (30_encoding.md R95). `exec i s` is the part of a CMD step that follows
decoding; CMD already holds the command word.
-/

namespace Sys2Proof.Machine

def exec (i : Instr) (s : State) : Host.Outcome State Fault Refusal :=
  match i with
  | .qInit e => Sys2Proof.Machine.execQInit e s
  | .qReset e => Sys2Proof.Machine.execQReset e s
  | .qPush e => Sys2Proof.Machine.execQPush e s
  | .qPop e => Sys2Proof.Machine.execQPop e s
  | .qPeek e => Sys2Proof.Machine.execQPeek e s
  | .qAvailable e => Sys2Proof.Machine.execQAvailable e s
  | .qFull e => Sys2Proof.Machine.execQFull e s
  | .qEmpty e => Sys2Proof.Machine.execQEmpty e s
  | .qFailed e => Sys2Proof.Machine.execQFailed e s
  | .qClrfail e => Sys2Proof.Machine.execQClrfail e s
  | .epWrite e => Sys2Proof.Machine.execEpWrite e s
  | .epRead e => Sys2Proof.Machine.execEpRead e s
  | .epFlush e => Sys2Proof.Machine.execEpFlush e s
  | .epFlushComplete e => Sys2Proof.Machine.execEpFlushComplete e s
  | .epDataReady e => Sys2Proof.Machine.execEpDataReady e s
  | .epSetCallback e => Sys2Proof.Machine.execEpSetCallback e s
  | .epSetStall e => Sys2Proof.Machine.execEpSetStall e s
  | .epSetInterrupts e => Sys2Proof.Machine.execEpSetInterrupts e s
  | .devSetAddress => Sys2Proof.Machine.execDevSetAddress s

end Sys2Proof.Machine
end

