-- ==== Sys2Proof/Machine/Service.lean ====
section
/-!
DEFINITION. The SVC agent: one service step (42_engine_service.md R170 to R200).
-/

namespace Sys2Proof.Machine

/-! ### Fill -/

/-- The queue is full: the OUT enable is cleared (R180). -/
def Ep.backpressure (p : Ep) : Ep := { p with ien := setBit p.ien bitOut false }

/-- One byte of the current bank moves to the queue (R178). -/
def Ep.fillByte (p : Ep) (v : Byte) : Ep :=
  { p.setBank p.cur { p.bank p.cur with rdp := (p.bank p.cur).rdp + 1 } with
    q := (p.q.push v).2
    dir := .out }

/-- The while loop of R178, at most `fuel` turns. Nothing if a byte read is unwritten. -/
def Ep.fillLoop (c : EpCfg) : Nat → Ep → Option Ep
  | 0, p => some p
  | fuel + 1, p =>
    if p.q.size < p.q.cap then
      if (p.bank p.cur).st = .held ∧ (p.bank p.cur).rdp < (p.bank p.cur).cnt then
        match Mem.read (p.bank p.cur).data (p.bank p.cur).rdp with
        | none => none
        | some v => Ep.fillLoop c fuel (p.fillByte v)
      else if c.nbanks = 2 ∧ (p.bank p.cur).st = .held ∧ (p.bank (!p.cur)).st = .held then
        Ep.fillLoop c fuel (p.releaseOut c)
      else some (p.clearOutAck c)
    else some p.backpressure

/-- `fill(e)` (R178). Each turn takes one free place of the queue or, once, releases a bank, so the
turns given are enough (`Ep.fill_eq`). -/
def Ep.fill (c : EpCfg) (p : Ep) : Option Ep := Ep.fillLoop c (p.q.cap - p.q.size + 2) p

/-! ### Drain -/

/-- One byte leaves the queue, already popped to `q`, and joins the current bank (R183). -/
def Ep.drainByte (p : Ep) (v : Byte) (q : Queue) : Ep :=
  { p.setBank p.cur { p.bank p.cur with
      data := Mem.write (p.bank p.cur).data (p.bank p.cur).cnt v
      cnt := (p.bank p.cur).cnt + 1 } with
    q := q }

/-- The while loop of R183, at most `fuel` turns. Nothing if a byte read is unwritten. -/
def Ep.drainLoop (c : EpCfg) : Nat → Ep → Option Ep
  | 0, p => some p
  | fuel + 1, p =>
    if 0 < p.q.size then
      if (p.bank p.cur).st = .fill ∧ (p.bank p.cur).cnt < c.bsize then
        match p.q.pop with
        | none => none
        | some (v, q) => Ep.drainLoop c fuel (p.drainByte v q)
      else if c.nbanks = 2 ∧ (p.bank (!p.cur)).st = .fill then
        if (p.bank p.cur).st = .fill then Ep.drainLoop c fuel (p.commit c)
        else Ep.drainLoop c fuel { p with cur := !p.cur }
      else some p
    else some p

/-- `drain_done(e)` (R186). -/
def Ep.drainDone (p : Ep) : Ep :=
  if p.q.size = 0 then
    { p with ien := setBit p.ien bitIn false, flush := false, dir := .none }
  else p

/-- `drain(e)` (R183, R184). Each turn takes one byte of the queue or, once, changes the bank, so the
turns given are enough (`Ep.drain_eq`). -/
def Ep.drain (c : EpCfg) (p : Ep) : Option Ep :=
  match Ep.drainLoop c (p.q.size + 2) p with
  | none => none
  | some p' => some (p'.clearTxAck c).drainDone

/-! ### SETUP handling and IN-abort -/

/-- `cancel_transfer(e)` (R190). -/
def Ep.cancelTransfer (p : Ep) : Ep :=
  { p with flush := false, dir := .none, ien := setBit p.ien bitIn false }

/-- `setup_handling(e, tok)` (R188), with the token delivered. Nothing if a bank byte read is unwritten. -/
def Ep.setupHandling (p : Ep) (tok : Token) : Option (Ep × Token) :=
  if p.q.cap < p.bank0.cnt then
    some ({ p with q := p.q.reset }.doStall.clearSetupAck.cancelTransfer, tok &&& ~~~tokSetup)
  else
    match Mem.readAll p.bank0.data 0 p.bank0.cnt with
    | none => none
    | some d =>
      some ({ p with q := p.q.reset.pushAll d }.clearSetupAck.cancelTransfer, tok)

/-- `in_abort(e)` (R194): every bank emptied, the queue reset, a clean state, IN and OUT enabled. -/
def Ep.inAbort (c : EpCfg) (p : Ep) : Ep :=
  { p with
    ipend := setBit (setBit p.ipend bitOut false) bitIn (decide (c.kind = .inn))
    ien := setBit (setBit p.ien bitIn true) bitOut true
    bank0 := Bank.emptied c p.bank0
    bank1 := if c.nbanks = 2 then Bank.emptied c p.bank1 else p.bank1
    cur := false
    busPtr := false
    q := p.q.reset
    flush := false
    dir := .none
    dataReady := false }

/-! ### The step -/

/-- The work of a step by its token, in the order of R172, before the auxiliary flags are cleared. -/
def Ep.serviceWork (c : EpCfg) (p : Ep) (tok : Token) : Option (Ep × Token) :=
  if tokHas tok tokIn ∧ tokHas tok tokOut ∧ p.dir = .inn then some (p.inAbort c, tok)
  else if tokHas tok tokSetup then p.setupHandling tok
  else
    match (if tokHas tok tokOut then p.fill c else some p) with
    | none => none
    | some p1 =>
      match (if tokHas tok tokIn then p1.drain c else some p1) with
      | none => none
      | some p2 => some (p2, tok)

/-- One endpoint's service: the token (R171), the work (R172), the auxiliary flags (R196). -/
def Ep.service (c : EpCfg) (p : Ep) : Option (Ep × Token) :=
  match p.serviceWork c (tokenOf p.pending) with
  | none => none
  | some (p', tok) => some ({ p' with ipend := clearAux p'.ipend p.pending }, tok)

/-- `deliver(e, tok)`: token capture for endpoint 0 (R199), SVC and CALLBACK events for the others
(R200). `p` is the endpoint after service. -/
def State.deliver (s : State) (e : Nat) (tok : Token) (p : Ep) : State :=
  if e = 0 then
    { s with
      tokenLatch := s.tokenLatch ||| tok
      tokenPending := s.tokenPending || tok != 0
      history := s.history ++ [.svc 0 tok] }
  else if p.cb ≠ 0 ∧ tok ≠ 0 then
    { s with history := s.history ++ [.svc e tok, .callback e tok p.cb p.cbctx] }
  else { s with history := s.history ++ [.svc e tok] }

/-- IRQ[e]; false for a slot that is not configured (10_state.md R41, R50). -/
def State.irq (s : State) (e : Nat) : Bool :=
  match s.ep? e with
  | none => false
  | some (_, p) => p.irq

/-- The engine's interrupt request output IRQ: the OR over the configured endpoints of IRQ[e] (10_state.md R41,
60_exceptions.md R285). -/
def State.irqOutput (s : State) : Bool := (List.range s.cfg.eps.length).any (s.irq ·)

/-- The lowest-numbered endpoint with IRQ true (R170). -/
def State.lowestIrq (s : State) : Option Nat := (List.range s.cfg.eps.length).find? (s.irq ·)

/-- An SVC step offered while IMASK is `imask` (R170): without its guard nothing happens. -/
def svcStep (imask : Bool) (s : State) : Result :=
  if imask then .next s
  else
    match s.lowestIrq with
    | none => .next s
    | some e =>
      match s.ep? e with
      | none => .next s
      | some (c, p) =>
        match p.service c with
        | none => unwrittenFault s
        | some (p', tok) => .next ((s.setEp e p').deliver e tok p')

end Sys2Proof.Machine
end

