-- ==== Sys2Proof/Machine/Registers.lean ====
section
/-!
DEFINITION. The register map: what a 32-bit read of each offset gives (20_memory.md R72, R76, R77).
-/

namespace Sys2Proof.Machine

/-- The field value `n` at bit `sh` of a register word. -/
def field (n sh : Nat) : Word := BitVec.ofNat 32 n <<< sh

/-- CTL_STATE as a number (10_state.md R29). -/
def CtlState.code : CtlState → Nat
  | .setup => 0
  | .awaitFlush => 1
  | .awaitInForAddress => 2

/-- DIR as a number (10_state.md R35). -/
def Dir.code : Dir → Nat
  | .none => 0
  | .inn => 1
  | .out => 2

/-- BST as a number (10_state.md R44). -/
def BankState.code : BankState → Nat
  | .fill => 0
  | .committed => 1
  | .freeRx => 2
  | .held => 3

/-- EPTYPE as a number (R77). -/
def epTypeCode : EpType → Nat
  | .unconf => 0
  | .control => 1
  | .inn => 2
  | .out => 3

/-- IRQSTAT: bit e = IRQ[e] (R76). -/
def State.irqStat (s : State) : Word :=
  (List.range s.cfg.eps.length).foldl
    (fun w e => w ||| field (s.irq e).toNat e) 0

/-- The global registers (R76); an unmapped offset reads 0 (R72). -/
def State.globalReg (s : State) (off : Nat) : Word :=
  match off with
  | 0x000 => s.cmd
  | 0x004 => s.argA
  | 0x008 => field s.argB.toNat 0
  | 0x00C => s.argC
  | 0x010 => field s.result.toNat 0
  | 0x014 => field s.status.toNat 0
  | 0x018 => field s.faddr.toNat 0
  | 0x01C => field s.ctlState.code 0 ||| field s.ctlAddr.toNat 8
  | 0x020 => field s.tokenLatch.toNat 0 ||| field s.tokenPending.toNat 8
  | 0x024 => s.irqStat
  | 0x028 => field s.cfg.eps.length 0
  | _ => 0

/-- BANK0 or BANK1 (R77). -/
def Bank.reg (bk : Bank) : Word := field bk.st.code 0 ||| field bk.cnt 8 ||| field bk.rdp 16

/-- EPFLAGS (10_state.md R34 to R36, R77). -/
def Ep.flagsReg (p : Ep) : Word :=
  field p.flush.toNat 0 ||| field p.dir.code 1 ||| field p.dataReady.toNat 3

/-- The registers of a configured endpoint's block (R77); an unmapped offset reads 0 (R72). -/
def Ep.reg (c : EpCfg) (p : Ep) (off : Nat) : Word :=
  match off with
  | 0x00 => field p.ien.toNat 0
  | 0x04 => field p.ipend.toNat 0
  | 0x08 => p.flagsReg
  | 0x0C => field p.stall.toNat 0
  | 0x10 => field p.q.cap 0
  | 0x14 => field p.q.rd 0
  | 0x18 => field p.q.size 0
  | 0x1C => field p.q.fail.toNat 0
  | 0x20 => p.bank0.reg
  | 0x24 => if c.nbanks = 2 then p.bank1.reg else 0
  | 0x28 => field p.cur.toNat 0 ||| field p.busPtr.toNat 1
  | 0x2C => p.cb
  | 0x30 => p.cbctx
  | 0x34 => field (epTypeCode c.kind) 0 ||| field (c.nbanks - 1) 2 ||| field c.bsize 8 ||| field c.qmax 16
  | _ => 0

/-- The register word at offset `off` < 0x500: the global registers below 0x100, then one block of 0x40
bytes for each endpoint, which reads 0 when the endpoint is not configured (R72, R76, R77). -/
def State.regRead (s : State) (off : Nat) : Word :=
  if off < 0x100 then s.globalReg off
  else
    match s.ep? ((off - 0x100) / 0x40) with
    | none => 0
    | some (c, p) => p.reg c ((off - 0x100) % 0x40)

end Sys2Proof.Machine
end

