-- ==== Sys2Proof/Machine/Port.lean ====
section
/-!
DEFINITION. The processor's accesses to the registers (20_memory.md R71, R72), the CMD step that a
write of CMD is (30_encoding.md R91), power-on reset (70_reset_and_hazards.md R310), and one input.
-/

namespace Sys2Proof.Machine

/-- A write of word `w` to CMD: one CMD step (30_encoding.md R91). A word that is no command raises its
command error (60_exceptions.md R280 to R282). -/
def cmdWrite (w : Word) (s : State) : Result :=
  match decode w with
  | .ok i => exec i { s with cmd := w }
  | .error .illegalOpcode => .next ({ s with cmd := w }.cmdError errIllegalOpcode)
  | .error .reservedBits => .next ({ s with cmd := w }.cmdError errReservedBits)

/-- The offset of processor address `addr` from REG_BASE (20_memory.md R87), modulo 2^32: a block placed within
0x500 of the top of the address space goes on at address 0. DESIGN CHOICE (log entry 19, unsafe). -/
def State.regOffset (s : State) (addr : Word) : Nat := (addr - s.cfg.regBase).toNat

/-- An access the engine gives a meaning: 32 bits wide at a multiple of 4 (20_memory.md R71). -/
def accessOk (width : Width) (off : Nat) : Bool := decide (width = .word) && decide (off % 4 = 0)

/-- A processor read (20_memory.md R71, R72): it changes no engine state; the value read goes to the
processor. An access outside 0x000 to 0x4FF is not addressed to the engine. -/
def regLoad (addr : Word) (width : Width) (s : State) : Result :=
  if s.regOffset addr < 0x500 then
    if accessOk width (s.regOffset addr) then
      .next { s with rdata := s.regRead (s.regOffset addr) }
    else .next (s.recordFault .mmioAccess)
  else .next s

/-- A 32-bit write of `v` at offset `off` (20_memory.md R72, R76): only ARG_A, ARG_B, ARG_C and CMD are
written; ARG_B keeps bits 15:0 (10_state.md R24). -/
def regWrite (off : Nat) (v : Word) (s : State) : Result :=
  match off with
  | 0x000 => cmdWrite v s
  | 0x004 => .next { s with argA := v }
  | 0x008 => .next { s with argB := v.extractLsb' 0 16 }
  | 0x00C => .next { s with argC := v }
  | _ => .next s

/-- A processor write (20_memory.md R71, R72). -/
def regStore (addr : Word) (width : Width) (v : Word) (s : State) : Result :=
  if s.regOffset addr < 0x500 then
    if accessOk width (s.regOffset addr) then regWrite (s.regOffset addr) v s
    else .next (s.recordFault .mmioAccess)
  else .next s

/-- Power-on reset (70_reset_and_hazards.md R310): every engine field, fault bit and the history. The
parameters, HOST memory and the model's own fields are not engine state and stay. -/
def State.powerOn (s : State) : State :=
  { State.por s.cfg with
    hostMem := s.hostMem
    rdata := s.rdata
    inputs := s.inputs
    draws := s.draws }

/-- One input of the environment. -/
def runInput (i : Input) (s : State) : Result :=
  match i.action with
  | .load addr width => regLoad addr width s
  | .store addr width v => regStore addr width v s
  | .svc => svcStep i.imask s
  | .disp => dispStep s
  | .bus t => busStep t s
  | .powerOn => .next s.powerOn
  | .hostStore a v => .next { s with hostMem := hostWrite s.hostMem a v }

end Sys2Proof.Machine
end

