-- ==== Sys2Proof/Machine/Step.lean ====
section
/-!
DEFINITION. One step of the machine: the oldest input still to come, or a free one when none is
listed (log entries 1 and 2). Steps of all agents are atomic and totally ordered (20_memory.md R82).
-/

namespace Sys2Proof.Machine

/-- One step. An ill-formed configuration has no machine (00_scope.md R10). -/
def step (s : State) : Host.Outcome State Fault Refusal :=
  if s.shapeOk then
    match s.inputs with
    | i :: rest => runInput i { s with inputs := rest }
    | [] => runInput (Config.freeInput s.draws) { s with draws := s.draws + 1 }
  else .refused .illFormedConfiguration

/-- `s` with the processor's write of command word `w` to CMD as the very next input (log entry 1). The
bits of `w` from `nbits` up are 0. -/
def State.withFetchWord (s : State) (nbits w : Nat) : State :=
  { s with
    inputs := ⟨false, .store s.cfg.regBase .word (BitVec.ofNat 32 (w % 2 ^ nbits))⟩ :: s.inputs }

end Sys2Proof.Machine
end

