-- ==== Sys2Proof/Safety.lean ====
section
/-!
DEFINITION. What claims are stated in: the bytes a queue holds, the invariant every step keeps, and
what a run that met no model fault is.
-/

namespace Sys2Proof.Machine

/-- The bytes a queue holds, from the read cursor (40_queue_commands.md R112, R113); none is unwritten
storage. -/
def Queue.contents (q : Queue) : List (Option Byte) :=
  (List.range q.size).map fun i => Mem.read q.mem ((q.rd + i) % q.cap)

/-- The queue invariants of 10_state.md R42, R43 and R51: sizes and cursors in range, every held slot
written, storage canonical and inside QMAX bytes. -/
structure Queue.Inv (c : EpCfg) (q : Queue) : Prop where
  cap_pos : 1 ≤ q.cap
  cap_le : q.cap ≤ c.qmax
  size_le : q.size ≤ q.cap
  rd_lt : q.rd < q.cap
  held : ∀ i, i < q.size → (Mem.read q.mem ((q.rd + i) % q.cap)).isSome
  canon : Mem.canon q.mem
  below : Mem.below c.qmax q.mem

/-- The bank states of an endpoint type (10_state.md R46). -/
def stateAllowed (k : EpType) (b : BankState) : Bool :=
  match k, b with
  | .out, .freeRx | .out, .held => true
  | .inn, .fill | .inn, .committed => true
  | .control, .fill | .control, .committed | .control, .held => true
  | _, _ => false

/-- The bank invariants of 10_state.md R44, R46 and R51: counts in range, a state of the endpoint's
type, the counted bytes written, a read position only in a HELD bank. -/
structure Bank.Inv (c : EpCfg) (b : Bank) : Prop where
  cnt_le : b.cnt ≤ c.bsize
  rdp_le : b.rdp ≤ b.cnt
  rdp_zero : b.st ≠ .held → b.rdp = 0
  free_empty : b.st = .freeRx → b.cnt = 0
  allowed : stateAllowed c.kind b.st
  written : ∀ i, i < b.cnt → (Mem.read b.data i).isSome
  canon : Mem.canon b.data
  below : Mem.below c.bsize b.data

/-- The pointers agree with the bank states (10_state.md R44, R47, 43_bus_agent.md R218): with one bank
both stay 0; with two, equal pointers mean two banks in the same state, and different pointers mean
that the older bank is the one the other side works on next. -/
structure Ep.PingPong (c : EpCfg) (p : Ep) : Prop where
  single : c.nbanks = 1 → p.cur = false ∧ p.busPtr = false
  same : c.nbanks = 2 → p.busPtr = p.cur → p.bank0.st = p.bank1.st
  outOrder : c.nbanks = 2 → c.kind = .out → p.busPtr ≠ p.cur →
    (p.bank p.cur).st = .held ∧ (p.bank p.busPtr).st = .freeRx
  inOrder : c.nbanks = 2 → c.kind = .inn → p.busPtr ≠ p.cur →
    (p.bank p.busPtr).st = .committed ∧ (p.bank p.cur).st = .fill

/-- While RXSTP is pending the control bank holds the 8 bytes of a SETUP and neither TXIN nor RXOUT is
pending; no other endpoint has RXSTP pending (43_bus_agent.md R212, R213, R215). -/
structure Ep.SetupHeld (c : EpCfg) (p : Ep) : Prop where
  controlOnly : p.ipend.getLsbD bitSetup → c.kind = .control
  bankHeld : p.ipend.getLsbD bitSetup → p.bank0.st = .held ∧ p.bank0.cnt = 8
  noData : p.ipend.getLsbD bitSetup →
    p.ipend.getLsbD bitIn = false ∧ p.ipend.getLsbD bitOut = false

/-- The invariant of one configured endpoint. -/
structure Ep.Inv (c : EpCfg) (p : Ep) : Prop where
  queue : Queue.Inv c p.q
  bank0 : Bank.Inv c p.bank0
  bank1 : Bank.Inv c p.bank1
  pingPong : Ep.PingPong c p
  setupHeld : Ep.SetupHeld c p

/-- The eight bytes of the request view are written (44_control_fsm.md R251). -/
def requestWritten (m : Mem) : Prop := ∀ i, i < 8 → (Mem.read m i).isSome

/-- The invariant of the machine: every reachable state has it and every step keeps it. -/
structure State.Inv (s : State) : Prop where
  config : configOk s.cfg
  slots : s.eps.length = s.cfg.eps.length
  endpoints : ∀ e c p, s.ep? e = some (c, p) → Ep.Inv c p
  hostMem : Mem.wf s.hostMem
  status : s.status ≤ 4
  pending : s.tokenPending = (s.tokenLatch != 0)
  request : tokHas s.tokenLatch tokSetup →
    ∀ c p, s.ep? 0 = some (c, p) → requestWritten p.q.mem
  noCallback0 : ∀ c p, s.ep? 0 = some (c, p) → p.cb = 0 ∧ p.cbctx = 0

/-- No model fault has been recorded: the condition on a final state of a run (60_exceptions.md R283). -/
abbrev State.faultFree (s : State) : Prop :=
  s.faultMmio = false ∧ s.faultHost = false ∧ s.faultUnwritten = false

/-! ### The words of the statements -/

/-- The input the next step takes: the oldest listed one, or the free one drawn (log entries 1, 2). -/
def State.nextInput (s : State) : Input :=
  match s.inputs with
  | i :: _ => i
  | [] => Config.freeInput s.draws

/-- The state in which that input acts: the input is taken off the list, or the draw is counted. -/
def State.advance (s : State) : State :=
  match s.inputs with
  | _ :: rest => { s with inputs := rest }
  | [] => { s with draws := s.draws + 1 }

/-- The opcodes of the opcode map: 0x01 to 0x0A and 0x10 to 0x18 (30_encoding.md R95, R96). -/
abbrev legalOpcode (op : Nat) : Prop := (0x01 ≤ op ∧ op ≤ 0x0A) ∨ (0x10 ≤ op ∧ op ≤ 0x18)

/-- The bits of ARG_B that must be 0 for the command of opcode `op` (30_encoding.md R93). -/
def mustBeZero (op : Nat) : Half :=
  match op with
  | 0x03 => 0xFF00
  | 0x16 => 0xFFFE
  | 0x17 | 0x18 => 0xFF80
  | _ => 0

/-- e ≥ NUM_EP or EPTYPE[e] = UNCONF (60_exceptions.md R280). -/
def State.badEndpoint (s : State) (e : Nat) : Bool :=
  match s.cfg.eps[e]? with
  | none => true
  | some c => decide (c.kind = .unconf)

/-- Q_INIT's capacity is 0 or above QMAX[e] (60_exceptions.md R280). -/
def State.badCapacity (s : State) (e : Nat) : Bool :=
  match s.cfg.eps[e]? with
  | none => false
  | some c => decide (s.argB.toNat = 0 ∨ c.qmax < s.argB.toNat)

/-- The code of the first failing check of a command word, in the order of 60_exceptions.md R282. -/
def State.firstError (s : State) (w : Word) : Option (BitVec 4) :=
  if ¬ legalOpcode (fieldOp w).toNat then some 1
  else if fieldRsv w ≠ 0 ∨ (fieldOp w = 0x18 ∧ fieldEp w ≠ 0)
      ∨ s.argB &&& mustBeZero (fieldOp w).toNat ≠ 0 then some 2
  else if fieldOp w ≠ 0x18 ∧ s.badEndpoint (fieldEp w).toNat then some 3
  else if fieldOp w = 0x01 ∧ s.badCapacity (fieldEp w).toNat then some 4
  else none

/-- `n` bytes of HOST memory from `a` upward, wrapping modulo 2^32 (20_memory.md R73). -/
def hostBytes (m : Mem) (a : Word) (n : Nat) : List Byte :=
  (List.range n).map fun i => hostRead m (a + BitVec.ofNat 32 i)

/-- Bank `r` is bank `b` handed to the bus side with the bytes `d` after those it held (42_engine_service.md
R175, R183). -/
structure Bank.Sent (b r : Bank) (d : List Byte) : Prop where
  state : r.st = .committed
  count : r.cnt = b.cnt + d.length
  readPos : r.rdp = b.rdp
  new : ∀ i, i < d.length → Mem.read r.data (b.cnt + i) = d[i]?
  old : ∀ i, i < b.cnt → Mem.read r.data i = Mem.read b.data i

/-- How a drain from `p` ends in `r`, the banks apart, with the bytes `rest` still queued
(42_engine_service.md R176, R183, R186). -/
structure Ep.DrainEnd (c : EpCfg) (p r : Ep) (rest : List Byte) : Prop where
  frame : r = { p with
    q := r.q, bank0 := r.bank0, bank1 := r.bank1, cur := r.cur,
    flush := r.flush, dir := r.dir, ien := r.ien, ipend := r.ipend }
  contents : r.q.contents = rest.map some
  cap : r.q.cap = p.q.cap
  fail : r.q.fail = p.q.fail
  done : rest = [] → r.flush = false ∧ r.dir = .none ∧ r.ien = p.ien &&& 0x7D
  goesOn : rest ≠ [] → r.flush = p.flush ∧ r.dir = p.dir ∧ r.ien = p.ien
  txin : r.ipend.getLsbD 1 = decide (c.kind = .inn ∧ (r.bank r.cur).st = .fill)
  otherFlags : ∀ k, k ≠ 1 → r.ipend.getLsbD k = p.ipend.getLsbD k

/-- A push of a byte or a pop. -/
inductive QueueOp where
  | push (v : Byte)
  | pop
deriving DecidableEq, Repr

/-- A FIFO of at most `cap` bytes run on a sequence that never overfills it and never pops it empty
(40_queue_commands.md R117): the bytes popped, and those left. -/
def fifoRun (cap : Nat) : List Byte → List QueueOp → Option (List Byte × List Byte)
  | l, [] => some ([], l)
  | l, .push v :: ops => if l.length < cap then fifoRun cap (l ++ [v]) ops else none
  | [], .pop :: _ => none
  | x :: l, .pop :: ops => (fifoRun cap l ops).map fun r => (x :: r.1, r.2)

/-- The same sequence issued as Q_PUSH and Q_POP commands on endpoint `e`: the RESULTs of the pops, and
the state left. -/
def State.queueRun (e : Nat) : State → List QueueOp → Option (List Half × State)
  | s, [] => some ([], s)
  | s, .push v :: ops =>
    match exec (.qPush e) { s with argB := v.setWidth 16 } with
    | .next t => State.queueRun e t ops
    | .fault _ | .refused _ => none
  | s, .pop :: ops =>
    match exec (.qPop e) s with
    | .next t => (State.queueRun e t ops).map fun r => (t.result :: r.1, r.2)
    | .fault _ | .refused _ => none

end Sys2Proof.Machine
end

