-- ==== Sys2Proof/Certificates/Slice0/Obligations.lean ====
section
/-!
DEFINITION. The statements for the provers, from the numbered rules of spec/. No statement rests on a
value or a behaviour the model chose, except where its docstring names the log entry.
-/

open Sys2Proof Sys2Proof.Machine

/-! ### Encoding (30_encoding.md, 60_exceptions.md) -/

/-- Decoding an encoded well-formed command gives it back, at every endpoint number (R92, R95). -/
def Obligations.DecodeOfEncode : Prop :=
  ∀ i : Instr, WellFormed i → decode (encode i) = .ok i

/-- Each command has one word: a word that decodes is the encoding of a well-formed command (R92, R95). -/
def Obligations.EncodeOfDecode : Prop :=
  ∀ (w : Word) (i : Instr), decode w = .ok i → WellFormed i ∧ encode i = w

/-- Exactly the OP values 0x00, 0x0B to 0x0F and 0x19 to 0xFF are illegal; writing one to CMD raises
CmdError(ILLEGAL_OPCODE) and changes nothing else (R96). -/
def Obligations.IllegalOpcodes : Prop :=
  ∀ w : Word,
    (decode w = .error .illegalOpcode ↔
      (fieldOp w).toNat = 0x00 ∨ (0x0B ≤ (fieldOp w).toNat ∧ (fieldOp w).toNat ≤ 0x0F)
        ∨ (0x19 ≤ (fieldOp w).toNat ∧ (fieldOp w).toNat ≤ 0xFF)) ∧
    (decode w = .error .illegalOpcode → ∀ s : State,
      cmdWrite w s = .next { s with
        cmd := w, status := 1, result := 0, history := s.history ++ [.cmd w 1 0] })

/-- The five command words of R100 (which the spec derives from R92 and R95), read and written. -/
def Obligations.SampleCommandWords : Prop :=
  (decode 0x00000103 = .ok (.qPush 1) ∧ encode (.qPush 1) = 0x00000103) ∧
  (decode 0x00000210 = .ok (.epWrite 2) ∧ encode (.epWrite 2) = 0x00000210) ∧
  (decode 0x00000017 = .ok (.epSetInterrupts 0) ∧ encode (.epSetInterrupts 0) = 0x00000017) ∧
  (decode 0x00000018 = .ok .devSetAddress ∧ encode .devSetAddress = 0x00000018) ∧
  (decode 0x00000F11 = .ok (.epRead 15) ∧ encode (.epRead 15) = 0x00000F11)

/-- When the next input is the processor's 32-bit store of a command word to CMD and the word decodes,
the step is `exec` of that command in the state with CMD written and the input taken off the list
(R91; the input list is the model's: log entry 1). So it is for `State.withFetchWord`. -/
def Obligations.StepRunsDecodedCommand : Prop :=
  ∀ (s : State) (i : Instr), s.shapeOk = true →
    (∀ (m : Bool) (w : Word) (rest : List Input),
      s.inputs = ⟨m, .store s.cfg.regBase .word w⟩ :: rest → decode w = .ok i →
        step s = exec i { s with inputs := rest, cmd := w }) ∧
    (∀ nbits w : Nat, decodeTableWord nbits w = some i →
      step (s.withFetchWord nbits w) = exec i { s with cmd := BitVec.ofNat 32 (w % 2 ^ nbits) })

/-- A command word reports exactly the first failing check of R282, and an error writes only STATUS.ERR,
RESULT 0 and the event (R281). A word that passes every check is a command; it completes with STATUS 0,
or it is stopped by a refused host access (R73), which leaves STATUS and RESULT (log entry 8). -/
def Obligations.CommandCheckOrder : Prop :=
  ∀ (s : State) (w : Word), s.eps.length = s.cfg.eps.length →
    (∀ k, s.firstError w = some k →
      cmdWrite w s = .next { s with
        cmd := w, status := k, result := 0, history := s.history ++ [.cmd w k 0] }) ∧
    (s.firstError w = none →
      (∃ i, decode w = .ok i) ∧
      ∀ t, cmdWrite w s = .next t →
        (t.status = 0 ∧ t.history = s.history ++ [.cmd w 0 t.result]) ∨
        (t.faultHost = true ∧ t.status = s.status ∧ t.result = s.result ∧
          t.history = s.history ++ [.fault .hostAccess]))

/-! ### Queue commands (40_queue_commands.md) -/

/-- Q_INIT binds capacity ARG_B and resets cursors and the failed flag, the storage kept; a capacity of
0 or above QMAX[e] is BAD_ARGUMENT (R110, R120). -/
def Obligations.QInitResult : Prop :=
  (∀ e, opcodeRow 0x01 e = some (.qInit e)) ∧
  ∀ (e : Nat) (s : State) (c : EpCfg) (p : Ep), s.ep? e = some (c, p) →
    (s.argB.toNat = 0 ∨ c.qmax < s.argB.toNat →
      exec (.qInit e) s = .next { s with
        status := 4, result := 0, history := s.history ++ [.cmd s.cmd 4 0] }) ∧
    (1 ≤ s.argB.toNat → s.argB.toNat ≤ c.qmax →
      exec (.qInit e) s = .next ((s.setEp e { p with
        q := { cap := s.argB.toNat, rd := 0, size := 0, fail := false, mem := p.q.mem } }).complete 0))

/-- Q_RESET zeroes the cursors, QCAP, QFAIL and the storage unchanged (R111, R121); Q_CLRFAIL clears QFAIL,
all else of the queue unchanged (R129). -/
def Obligations.QResetAndClrfailResult : Prop :=
  (∀ e, opcodeRow 0x02 e = some (.qReset e) ∧ opcodeRow 0x0A e = some (.qClrfail e)) ∧
  ∀ (e : Nat) (s : State) (c : EpCfg) (p : Ep), s.ep? e = some (c, p) →
    exec (.qReset e) s = .next ((s.setEp e { p with
      q := { p.q with rd := 0, size := 0 } }).complete 0) ∧
    exec (.qClrfail e) s = .next ((s.setEp e { p with q := { p.q with fail := false } }).complete 0)

/-- Q_PUSH: ARG_B[15:8] ≠ 0 is RESERVED_BITS; a full queue sets QFAIL and gives 0; otherwise the byte goes
to slot (QRD + QSIZE) mod QCAP and the result is 1 (R112, R122). -/
def Obligations.QPushResult : Prop :=
  (∀ e, opcodeRow 0x03 e = some (.qPush e)) ∧
  ∀ (e : Nat) (s : State) (c : EpCfg) (p : Ep), s.ep? e = some (c, p) →
    (s.argB.extractLsb' 8 8 ≠ 0 →
      exec (.qPush e) s = .next { s with
        status := 2, result := 0, history := s.history ++ [.cmd s.cmd 2 0] }) ∧
    (s.argB.extractLsb' 8 8 = 0 → p.q.size = p.q.cap →
      exec (.qPush e) s = .next ((s.setEp e { p with q := { p.q with fail := true } }).complete 0)) ∧
    (s.argB.extractLsb' 8 8 = 0 → p.q.size ≠ p.q.cap →
      exec (.qPush e) s = .next ((s.setEp e { p with
        q := { p.q with
          mem := Mem.write p.q.mem ((p.q.rd + p.q.size) % p.q.cap) (s.argB.extractLsb' 0 8)
          size := p.q.size + 1 } }).complete 1))

/-- Q_POP and Q_PEEK: an empty queue sets QFAIL and gives 0; otherwise the byte at QRD is the result, and
Q_POP alone takes it out of the queue (R113, R114, R123, R124). -/
def Obligations.QPopAndPeekResult : Prop :=
  (∀ e, opcodeRow 0x04 e = some (.qPop e) ∧ opcodeRow 0x05 e = some (.qPeek e)) ∧
  ∀ (e : Nat) (s : State) (c : EpCfg) (p : Ep), s.ep? e = some (c, p) →
    (p.q.size = 0 →
      exec (.qPop e) s = .next ((s.setEp e { p with q := { p.q with fail := true } }).complete 0) ∧
      exec (.qPeek e) s = .next ((s.setEp e { p with q := { p.q with fail := true } }).complete 0)) ∧
    (∀ v, p.q.size ≠ 0 → Mem.read p.q.mem p.q.rd = some v →
      exec (.qPop e) s = .next ((s.setEp e { p with
        q := { p.q with rd := (p.q.rd + 1) % p.q.cap, size := p.q.size - 1 } }).complete
          (v.setWidth 16)) ∧
      exec (.qPeek e) s = .next (s.complete (v.setWidth 16)))

/-- Q_AVAILABLE, Q_FULL, Q_EMPTY and Q_FAILED give QCAP - QSIZE, QSIZE = QCAP, QSIZE = 0 and QFAIL, and
change nothing else (R115, R125 to R128). -/
def Obligations.QueueQueriesResult : Prop :=
  (∀ e, opcodeRow 0x06 e = some (.qAvailable e) ∧ opcodeRow 0x07 e = some (.qFull e) ∧
    opcodeRow 0x08 e = some (.qEmpty e) ∧ opcodeRow 0x09 e = some (.qFailed e)) ∧
  ∀ (e : Nat) (s : State) (c : EpCfg) (p : Ep), s.ep? e = some (c, p) →
    exec (.qAvailable e) s = .next (s.complete (BitVec.ofNat 16 (p.q.cap - p.q.size))) ∧
    exec (.qFull e) s = .next (s.complete (if p.q.size = p.q.cap then 1 else 0)) ∧
    exec (.qEmpty e) s = .next (s.complete (if p.q.size = 0 then 1 else 0)) ∧
    exec (.qFailed e) s = .next (s.complete (if p.q.fail = true then 1 else 0))

/-- FIFO law (R117). Every sequence of Q_PUSH and Q_POP that a FIFO of QCAP bytes admits gives the FIFO's
bytes as the results of its pops and leaves the FIFO's bytes, QCAP and QFAIL unchanged; and a push on a
full queue leaves its bytes and sets QFAIL, after which a pop and a push succeed. -/
def Obligations.QueueRefinesFifo : Prop :=
  ∀ (e : Nat) (s : State) (c : EpCfg) (p : Ep) (l : List Byte),
    s.ep? e = some (c, p) → Queue.Inv c p.q → p.q.contents = l.map some →
    (∀ ops out l', fifoRun p.q.cap l ops = some (out, l') →
      ∃ t r, s.queueRun e ops = some (out.map fun v => v.setWidth 16, t) ∧ t.ep? e = some (c, r) ∧
        r.q.contents = l'.map some ∧ r.q.cap = p.q.cap ∧ r.q.fail = p.q.fail) ∧
    (∀ v x l', l = x :: l' → l.length = p.q.cap →
      ∃ t r, s.queueRun e [.push v] = some ([], t) ∧ t.result = 0 ∧ t.ep? e = some (c, r) ∧
        r.q = { p.q with fail := true } ∧
        ∃ t' r', t.queueRun e [.pop, .push v] = some ([x.setWidth 16], t') ∧ t'.result = 1 ∧
          t'.ep? e = some (c, r') ∧ r'.q.contents = (l' ++ [v]).map some)

/-! ### Endpoint commands (41_endpoint_commands.md) -/

/-- EP_WRITE with the host reads admitted: n = min(len, available) host bytes from ARG_A join the queue;
when n > 0 IEN.IN is set and DIR is IN; the result is n (R140). -/
def Obligations.EpWriteResult : Prop :=
  (∀ e, opcodeRow 0x10 e = some (.epWrite e)) ∧
  ∀ (e : Nat) (s : State) (c : EpCfg) (p : Ep) (n : Nat),
    s.ep? e = some (c, p) → Queue.Inv c p.q → n = min s.argB.toNat (p.q.cap - p.q.size) →
    (∀ i, i < n → hostAdmits s.cfg false (s.argA + BitVec.ofNat 32 i)) →
    ∃ q' : Queue,
      q'.contents = p.q.contents ++ (hostBytes s.hostMem s.argA n).map some ∧
      q'.cap = p.q.cap ∧ q'.rd = p.q.rd ∧ q'.size = p.q.size + n ∧ q'.fail = p.q.fail ∧
      (∀ k, (∀ i, i < n → k ≠ (p.q.rd + (p.q.size + i)) % p.q.cap) →
        Mem.read q'.mem k = Mem.read p.q.mem k) ∧
      exec (.epWrite e) s = .next ((s.setEp e
        (if n = 0 then { p with q := q' }
         else { p with q := q', ien := p.ien ||| 0x02, dir := .inn })).complete (BitVec.ofNat 16 n))

/-- EP_READ with the host writes admitted: the first n = min(maxlen, QSIZE) bytes leave the queue and
land at ARG_A + i; every other host byte and the queue's storage and QFAIL are unchanged; the result is
n (R141). -/
def Obligations.EpReadResult : Prop :=
  (∀ e, opcodeRow 0x11 e = some (.epRead e)) ∧
  ∀ (e : Nat) (s : State) (c : EpCfg) (p : Ep) (n : Nat),
    s.ep? e = some (c, p) → Queue.Inv c p.q → Mem.wf s.hostMem → n = min s.argB.toNat p.q.size →
    (∀ i, i < n → hostAdmits s.cfg true (s.argA + BitVec.ofNat 32 i)) →
    ∃ (vs : List Byte) (q' : Queue) (m' : Mem),
      vs.length = n ∧ p.q.contents = vs.map some ++ q'.contents ∧
      q'.cap = p.q.cap ∧ q'.rd = (p.q.rd + n) % p.q.cap ∧ q'.size = p.q.size - n ∧
      q'.fail = p.q.fail ∧ q'.mem = p.q.mem ∧
      (∀ i v, vs[i]? = some v → hostRead m' (s.argA + BitVec.ofNat 32 i) = v) ∧
      (∀ a, (∀ i, i < n → a ≠ s.argA + BitVec.ofNat 32 i) → hostRead m' a = hostRead s.hostMem a) ∧
      exec (.epRead e) s = .next ({ s.setEp e { p with q := q' } with hostMem := m' }.complete
        (BitVec.ofNat 16 n))

/-- A refused host access stops the transfer at byte k with the bytes before it moved, and raises
HOST_ACCESS (20_memory.md R73). THE MODEL'S CHOICE: RESULT, STATUS, IEN and DIR are left and there is no
command event (log entry 8); whether EP_READ's refused byte has left the queue is left open here (log
entry 7). -/
def Obligations.HostAccessRefused : Prop :=
  ∀ (e : Nat) (s : State) (c : EpCfg) (p : Ep) (k : Nat),
    s.ep? e = some (c, p) → Queue.Inv c p.q → Mem.wf s.hostMem →
    (k < min s.argB.toNat (p.q.cap - p.q.size) →
      (∀ i, i < k → hostAdmits s.cfg false (s.argA + BitVec.ofNat 32 i)) →
      hostAdmits s.cfg false (s.argA + BitVec.ofNat 32 k) = false →
      ∃ q' : Queue,
        q'.contents = p.q.contents ++ (hostBytes s.hostMem s.argA k).map some ∧
        q'.cap = p.q.cap ∧ q'.fail = p.q.fail ∧
        exec (.epWrite e) s = .next { s.setEp e { p with q := q' } with
          faultHost := true, history := s.history ++ [.fault .hostAccess] }) ∧
    (k < min s.argB.toNat p.q.size →
      (∀ i, i < k → hostAdmits s.cfg true (s.argA + BitVec.ofNat 32 i)) →
      hostAdmits s.cfg true (s.argA + BitVec.ofNat 32 k) = false →
      ∃ (vs : List Byte) (x : Byte) (l : List (Option Byte)) (q' : Queue) (m' : Mem),
        vs.length = k ∧ p.q.contents = vs.map some ++ some x :: l ∧
        (q'.contents = some x :: l ∨ q'.contents = l) ∧
        q'.cap = p.q.cap ∧ q'.fail = p.q.fail ∧ q'.mem = p.q.mem ∧
        (∀ i v, vs[i]? = some v → hostRead m' (s.argA + BitVec.ofNat 32 i) = v) ∧
        (∀ a, (∀ i, i < k → a ≠ s.argA + BitVec.ofNat 32 i) →
          hostRead m' a = hostRead s.hostMem a) ∧
        exec (.epRead e) s = .next { s.setEp e { p with q := q' } with
          hostMem := m', faultHost := true, history := s.history ++ [.fault .hostAccess] })

/-- EP_FLUSH sets FLUSH and IEN.IN, and DIR is IN (R142, R150). -/
def Obligations.EpFlushResult : Prop :=
  (∀ e, opcodeRow 0x12 e = some (.epFlush e)) ∧
  ∀ (e : Nat) (s : State) (c : EpCfg) (p : Ep), s.ep? e = some (c, p) →
    exec (.epFlush e) s = .next ((s.setEp e { p with
      flush := true, ien := p.ien ||| 0x02, dir := .inn }).complete 0)

/-- EP_FLUSH_COMPLETE gives NOT FLUSH and EP_DATA_READY gives DATA_READY; neither changes anything else
(R143, R144). -/
def Obligations.EpQueriesResult : Prop :=
  (∀ e, opcodeRow 0x13 e = some (.epFlushComplete e) ∧ opcodeRow 0x14 e = some (.epDataReady e)) ∧
  ∀ (e : Nat) (s : State) (c : EpCfg) (p : Ep), s.ep? e = some (c, p) →
    exec (.epFlushComplete e) s = .next (s.complete (if p.flush = true then 0 else 1)) ∧
    exec (.epDataReady e) s = .next (s.complete (if p.dataReady = true then 1 else 0))

/-- EP_SET_CALLBACK binds ARG_A and ARG_C and gives 1; on endpoint 0 it binds nothing and gives 0
(R145). -/
def Obligations.EpSetCallbackResult : Prop :=
  (∀ e, opcodeRow 0x15 e = some (.epSetCallback e)) ∧
  ∀ (e : Nat) (s : State) (c : EpCfg) (p : Ep), s.ep? e = some (c, p) →
    (e = 0 → exec (.epSetCallback e) s = .next (s.complete 0)) ∧
    (e ≠ 0 → exec (.epSetCallback e) s =
      .next ((s.setEp e { p with cb := s.argA, cbctx := s.argC }).complete 1))

/-- EP_SET_STALL writes STALL with ARG_B[0]; ARG_B[15:1] ≠ 0 is RESERVED_BITS (R146). -/
def Obligations.EpSetStallResult : Prop :=
  (∀ e, opcodeRow 0x16 e = some (.epSetStall e)) ∧
  ∀ (e : Nat) (s : State) (c : EpCfg) (p : Ep), s.ep? e = some (c, p) →
    (s.argB.extractLsb' 1 15 = 0 →
      exec (.epSetStall e) s =
        .next ((s.setEp e { p with stall := s.argB.getLsbD 0 }).complete 0)) ∧
    (s.argB.extractLsb' 1 15 ≠ 0 →
      exec (.epSetStall e) s = .next { s with
        status := 2, result := 0, history := s.history ++ [.cmd s.cmd 2 0] })

/-- EP_SET_INTERRUPTS writes IEN with ARG_B[6:0]; ARG_B[15:7] ≠ 0 is RESERVED_BITS (R147). -/
def Obligations.EpSetInterruptsResult : Prop :=
  (∀ e, opcodeRow 0x17 e = some (.epSetInterrupts e)) ∧
  ∀ (e : Nat) (s : State) (c : EpCfg) (p : Ep), s.ep? e = some (c, p) →
    (s.argB.extractLsb' 7 9 = 0 →
      exec (.epSetInterrupts e) s =
        .next ((s.setEp e { p with ien := s.argB.extractLsb' 0 7 }).complete 0)) ∧
    (s.argB.extractLsb' 7 9 ≠ 0 →
      exec (.epSetInterrupts e) s = .next { s with
        status := 2, result := 0, history := s.history ++ [.cmd s.cmd 2 0] })

/-- DEV_SET_ADDRESS, the word 0x18 alone, writes FADDR with ARG_B[6:0] and nothing else of the control
state; ARG_B[15:7] ≠ 0 is RESERVED_BITS, and so is EP ≠ 0 or any other reserved bit (R148). -/
def Obligations.DevSetAddressResult : Prop :=
  (∀ w, decode w = .ok .devSetAddress ↔ w = 0x00000018) ∧
  (∀ w s, fieldOp w = 0x18 → w ≠ 0x00000018 →
    cmdWrite w s = .next { s with
      cmd := w, status := 2, result := 0, history := s.history ++ [.cmd w 2 0] }) ∧
  ∀ s : State,
    (s.argB.extractLsb' 7 9 = 0 →
      exec .devSetAddress s = .next ({ s with faddr := s.argB.extractLsb' 0 7 }.complete 0)) ∧
    (s.argB.extractLsb' 7 9 ≠ 0 →
      exec .devSetAddress s = .next { s with
        status := 2, result := 0, history := s.history ++ [.cmd s.cmd 2 0] })

/-! ### What each command leaves unchanged -/

/-- Frame of Q_INIT, Q_RESET, Q_PUSH, Q_POP, Q_PEEK and Q_CLRFAIL on endpoint e: only RESULT, STATUS, the
history and the queue of e change; of the queue's storage only the slot a push writes; HOST memory not
at all (R110 to R114, R120 to R124, R129). -/
def Obligations.QueueCommandFrame : Prop :=
  ∀ (e : Nat) (i : Instr) (s t : State),
    i ∈ [Instr.qInit e, .qReset e, .qPush e, .qPop e, .qPeek e, .qClrfail e] →
    exec i s = .next t →
    t = { s with eps := t.eps, result := t.result, status := t.status, history := t.history } ∧
    t.eps.length = s.eps.length ∧ (∀ j, j ≠ e → t.eps[j]? = s.eps[j]?) ∧
    (∀ a, hostRead t.hostMem a = hostRead s.hostMem a) ∧
    ∀ p, s.eps[e]? = some p → ∃ q, t.eps[e]? = some { p with q := q } ∧
      (i ≠ .qInit e → q.cap = p.q.cap) ∧
      (i ≠ .qInit e → i ≠ .qReset e → i ≠ .qPop e → q.rd = p.q.rd) ∧
      (i = .qPeek e ∨ i = .qClrfail e → q.size = p.q.size) ∧
      (i = .qReset e → q.fail = p.q.fail) ∧
      ∀ k, ¬ (i = .qPush e ∧ p.q.size ≠ p.q.cap ∧ k = (p.q.rd + p.q.size) % p.q.cap) →
        Mem.read q.mem k = Mem.read p.q.mem k

/-- Frame of the six queries: only RESULT, STATUS and the history change (R125 to R128, R143, R144). -/
def Obligations.QueryFrame : Prop :=
  ∀ (e : Nat) (i : Instr) (s t : State),
    i ∈ [Instr.qAvailable e, .qFull e, .qEmpty e, .qFailed e, .epFlushComplete e, .epDataReady e] →
    exec i s = .next t →
    t = { s with result := t.result, status := t.status, history := t.history } ∧
    (∀ a, hostRead t.hostMem a = hostRead s.hostMem a)

/-- Frame of EP_FLUSH, EP_SET_CALLBACK, EP_SET_STALL, EP_SET_INTERRUPTS and DEV_SET_ADDRESS: only RESULT,
STATUS, the history and the fields named change, on endpoint e alone; no queue, bank, storage or HOST
byte changes (R142, R145 to R148). -/
def Obligations.EndpointControlFrame : Prop :=
  ∀ (e : Nat) (i : Instr) (s t : State),
    i ∈ [Instr.epFlush e, .epSetCallback e, .epSetStall e, .epSetInterrupts e, .devSetAddress] →
    exec i s = .next t →
    t = { s with
      eps := t.eps, faddr := t.faddr, result := t.result, status := t.status, history := t.history } ∧
    (i ≠ .devSetAddress → t.faddr = s.faddr) ∧
    t.eps.length = s.eps.length ∧ (∀ j, j ≠ e → t.eps[j]? = s.eps[j]?) ∧
    (∀ a, hostRead t.hostMem a = hostRead s.hostMem a) ∧
    ∀ p, s.eps[e]? = some p → ∃ r, t.eps[e]? = some r ∧
      r = { p with
        flush := r.flush, dir := r.dir, stall := r.stall, ien := r.ien, cb := r.cb, cbctx := r.cbctx } ∧
      (i ≠ .epFlush e → r.flush = p.flush ∧ r.dir = p.dir) ∧
      (i ≠ .epFlush e → i ≠ .epSetInterrupts e → r.ien = p.ien) ∧
      (∀ k, i = .epFlush e → k ≠ 1 → r.ien.getLsbD k = p.ien.getLsbD k) ∧
      (i ≠ .epSetStall e → r.stall = p.stall) ∧
      (i ≠ .epSetCallback e → r.cb = p.cb ∧ r.cbctx = p.cbctx)

/-- Frame of EP_WRITE and EP_READ on endpoint e: only RESULT, STATUS, the history, the HOST_ACCESS bit and
endpoint e's queue change, and for EP_WRITE its DIR and IEN bit 1, for EP_READ the HOST bytes at
ARG_A + i, i < min(maxlen, QSIZE). EP_WRITE's storage bytes are the slots
(QRD + QSIZE + i) mod QCAP, i < min(len, available) (R140, R141). -/
def Obligations.TransferFrame : Prop :=
  ∀ (e : Nat) (i : Instr) (s t : State),
    i ∈ [Instr.epWrite e, .epRead e] → exec i s = .next t →
    t = { s with
      eps := t.eps, result := t.result, status := t.status, history := t.history,
      hostMem := t.hostMem, faultHost := t.faultHost } ∧
    t.eps.length = s.eps.length ∧ (∀ j, j ≠ e → t.eps[j]? = s.eps[j]?) ∧
    (i = .epWrite e → t.hostMem = s.hostMem) ∧
    (s.ep? e = none → t.eps = s.eps ∧ t.hostMem = s.hostMem) ∧
    ∀ c p, s.ep? e = some (c, p) → Queue.Inv c p.q →
      (i = .epRead e →
        ∀ a, (∀ j, j < min s.argB.toNat p.q.size → a ≠ s.argA + BitVec.ofNat 32 j) →
          hostRead t.hostMem a = hostRead s.hostMem a) ∧
      ∃ r, t.eps[e]? = some r ∧ r = { p with q := r.q, dir := r.dir, ien := r.ien } ∧
        (i = .epRead e → r.dir = p.dir ∧ r.ien = p.ien ∧ r.q.mem = p.q.mem) ∧
        (∀ k, k ≠ 1 → r.ien.getLsbD k = p.ien.getLsbD k) ∧
        r.q.cap = p.q.cap ∧ r.q.fail = p.q.fail ∧ (i = .epWrite e → r.q.rd = p.q.rd) ∧
        (∀ k, (∀ j, j < min s.argB.toNat (p.q.cap - p.q.size) →
            k ≠ (p.q.rd + (p.q.size + j)) % p.q.cap) →
          Mem.read r.q.mem k = Mem.read p.q.mem k)

/-! ### Rules over every step -/

/-- FADDR is written only by DEV_SET_ADDRESS and by the address application; both resets write 0
(10_state.md R28). -/
def Obligations.AddressWrittenOnlyBy : Prop :=
  ∀ s t : State, step s = .next t →
    (s.nextInput.action = .bus .reset ∨ s.nextInput.action = .powerOn → t.faddr = 0) ∧
    (s.nextInput.action ≠ .bus .reset → s.nextInput.action ≠ .powerOn → t.faddr ≠ s.faddr →
      (∃ v, s.nextInput.action = .store s.cfg.regBase .word v ∧ decode v = .ok .devSetAddress ∧
        t.faddr = s.argB.extractLsb' 0 7) ∨
      (s.nextInput.action = .disp ∧ s.ctlState = .awaitInForAddress ∧
        s.tokenLatch.getLsbD 1 = true ∧ t.faddr = s.ctlAddr))

/-- CB and CBCTX are written only by EP_SET_CALLBACK, never on endpoint 0; power-on reset writes 0 and a bus
reset keeps them (10_state.md R38). -/
def Obligations.CallbackWrittenOnlyBy : Prop :=
  ∀ s t : State, step s = .next t → ∀ e c p r, s.ep? e = some (c, p) → t.ep? e = some (c, r) →
    (s.nextInput.action = .powerOn → r.cb = 0 ∧ r.cbctx = 0) ∧
    (s.nextInput.action ≠ .powerOn → r.cb ≠ p.cb ∨ r.cbctx ≠ p.cbctx →
      ∃ v, s.nextInput.action = .store s.cfg.regBase .word v ∧ decode v = .ok (.epSetCallback e) ∧
        e ≠ 0 ∧ r.cb = s.argA ∧ r.cbctx = s.argC)

/-- CTL_STATE and CTL_ADDR change only in a DISP step taken with TOKEN_PENDING = 1, or by a reset;
TOKEN_LATCH and TOKEN_PENDING only there and in an SVC step, which captures and never loses a bit
(10_state.md R29 to R32). -/
def Obligations.ControlStateWrittenOnlyBy : Prop :=
  ∀ s t : State, step s = .next t →
    s.nextInput.action ≠ .bus .reset → s.nextInput.action ≠ .powerOn →
    (t.ctlState ≠ s.ctlState ∨ t.ctlAddr ≠ s.ctlAddr →
      s.nextInput.action = .disp ∧ s.tokenPending = true) ∧
    (t.tokenLatch ≠ s.tokenLatch ∨ t.tokenPending ≠ s.tokenPending →
      (s.nextInput.action = .disp ∧ s.tokenPending = true ∧ t.tokenLatch = 0 ∧
        t.tokenPending = false) ∨
      (s.nextInput.action = .svc ∧ s.nextInput.imask = false ∧
        s.tokenLatch &&& t.tokenLatch = s.tokenLatch ∧ t.tokenPending = true))

/-- No step but power-on reset makes a written byte of queue storage unwritten (20_memory.md R74). -/
def Obligations.StorageNeverCleared : Prop :=
  ∀ s t : State, step s = .next t → s.nextInput.action ≠ .powerOn →
    ∀ e c p r j, s.ep? e = some (c, p) → t.ep? e = some (c, r) →
      (Mem.read p.q.mem j).isSome → (Mem.read r.q.mem j).isSome

/-- Steps only append to the history, and no step but power-on reset clears a fault bit; a fault bit that
becomes 1 does so with its FAULT event (20_memory.md R81, 60_exceptions.md R283). -/
def Obligations.HistoryAndFaultBitsKept : Prop :=
  ∀ s t : State, step s = .next t → s.nextInput.action ≠ .powerOn →
    ∃ evs, t.history = s.history ++ evs ∧
      (t.faultMmio = true ↔ s.faultMmio = true ∨ .fault .mmioAccess ∈ evs) ∧
      (t.faultHost = true ↔ s.faultHost = true ∨ .fault .hostAccess ∈ evs) ∧
      (t.faultUnwritten = true ↔ s.faultUnwritten = true ∨ .fault .unwrittenRead ∈ evs)

/-- Where the model stops. A rule that reads an unwritten byte of queue storage or of a bank ends in the fault
UNWRITTEN_READ (10_state.md R51); that the fault carries the state before the step, with its record, is THE
MODEL'S CHOICE (log entry 10). A SETUP of other than 8 bytes, an OUT longer than BSIZE (43_bus_agent.md R212)
and a configuration 00_scope.md R7 to R11 do not admit are refused (log entries 12 and 18). -/
def Obligations.NamedStops : Prop :=
  ∀ (s : State) (f : Machine.Result), f = .fault (.unwrittenRead { s with
      faultUnwritten := true, history := s.history ++ [.fault .unwrittenRead] }) →
    (∀ e c p, s.ep? e = some (c, p) → p.q.size ≠ 0 → Mem.read p.q.mem p.q.rd = none →
      exec (.qPop e) s = f ∧ exec (.qPeek e) s = f ∧ (s.argB ≠ 0 → exec (.epRead e) s = f)) ∧
    (∀ e c p, s.ep? e = some (c, p) → p.ipend &&& p.ien ≠ 0 →
      (∀ j d r, j < e → s.ep? j = some (d, r) → r.ipend &&& r.ien = 0) →
      p.service c = none → svcStep false s = f) ∧
    (∀ c p i, s.ep? 0 = some (c, p) → s.tokenPending = true → s.ctlState = .setup →
      s.tokenLatch.getLsbD 0 = true → i < 8 → Mem.read p.q.mem i = none → dispStep s = f) ∧
    (∀ e c p i, s.ep? e = some (c, p) → c.kind = .inn ∨ c.kind = .control → p.stall = false →
      (p.bank p.busPtr).st = .committed → i < (p.bank p.busPtr).cnt →
      Mem.read (p.bank p.busPtr).data i = none → busStep (.inn s.faddr e) s = f) ∧
    (∀ a e d, d.length ≠ 8 → busStep (.setup a e d) s = .refused .noSuchBusMove) ∧
    (∀ a e d c p, s.ep? e = some (c, p) → c.bsize < d.length →
      busStep (.out a e d) s = .refused .noSuchBusMove) ∧
    (s.shapeOk = false → step s = .refused .illFormedConfiguration)

/-! ### The service agent (42_engine_service.md) -/

/-- The output IRQ is the OR over the configured endpoints of IRQ[e] (10_state.md R41). An SVC step is taken
for the lowest-numbered configured endpoint with IPEND & IEN ≠ 0, and only while IMASK = 0; without its guard
nothing happens (R170, 10_state.md R55). That a step offered without its guard does nothing is the model's
form of "not enabled" (log entry 11). -/
def Obligations.ServiceGuard : Prop :=
  (∀ s : State, s.irqOutput = true ↔ ∃ e c p, s.ep? e = some (c, p) ∧ p.ipend &&& p.ien ≠ 0) ∧
  (∀ s : State, svcStep true s = .next s) ∧
  (∀ s : State, (∀ e c p, s.ep? e = some (c, p) → p.ipend &&& p.ien = 0) →
    svcStep false s = .next s) ∧
  (∀ (s : State) (e : Nat) (c : EpCfg) (p : Ep),
    s.ep? e = some (c, p) → p.ipend &&& p.ien ≠ 0 →
    (∀ j d r, j < e → s.ep? j = some (d, r) → r.ipend &&& r.ien = 0) →
    ∀ p' tok, p.service c = some (p', tok) →
      svcStep false s = .next ((s.setEp e p').deliver e tok p'))

/-- The token's six bits (R171), the order of work (R172) and the clearing of the auxiliary flags that
were serviced, bits 3 to 6 (R196). -/
def Obligations.ServiceOrder : Prop :=
  (∀ v : Bits7,
    (tokenOf v).getLsbD 0 = v.getLsbD 0 ∧ (tokenOf v).getLsbD 1 = v.getLsbD 1 ∧
    (tokenOf v).getLsbD 2 = v.getLsbD 2 ∧ (tokenOf v).getLsbD 3 = v.getLsbD 6 ∧
    (tokenOf v).getLsbD 4 = (v.getLsbD 3 || v.getLsbD 4) ∧ (tokenOf v).getLsbD 5 = v.getLsbD 5) ∧
  (∀ (c : EpCfg) (p : Ep) (v : Bits7), v = p.ipend &&& p.ien →
    (v.getLsbD 1 = true → v.getLsbD 2 = true → p.dir = .inn →
      p.service c = some ({ p.inAbort c with
        ipend := (p.inAbort c).ipend &&& ~~~(v &&& 0x78) }, tokenOf v)) ∧
    (¬ (v.getLsbD 1 = true ∧ v.getLsbD 2 = true ∧ p.dir = .inn) → v.getLsbD 0 = true →
      p.service c = (p.setupHandling (tokenOf v)).map fun r =>
        ({ r.1 with ipend := r.1.ipend &&& ~~~(v &&& 0x78) }, r.2)) ∧
    (¬ (v.getLsbD 1 = true ∧ v.getLsbD 2 = true ∧ p.dir = .inn) → v.getLsbD 0 = false →
      p.service c =
        ((if v.getLsbD 2 then p.fill c else some p).bind fun p1 =>
          if v.getLsbD 1 then p1.drain c else some p1).map fun r =>
            ({ r with ipend := r.ipend &&& ~~~(v &&& 0x78) }, tokenOf v)))

/-- The fill moves a whole packet, its unread bytes being `d`, when the queue has room for more than `d`
and no other bank is HELD: the bytes join the queue in order, the bank is released, DATA_READY says whether
the packet was short, and RXOUT is cleared (R173, R174, R178, R179). When the other bank is HELD too and the
queue has room for more than both packets, one fill moves both in order, toggling between them, and releases
both banks; DATA_READY is the second packet's. -/
def Obligations.FillDeliversPacket : Prop :=
  (∀ (c : EpCfg) (p : Ep) (d : List Byte), Ep.Inv c p →
    (p.bank p.cur).st = .held → (c.nbanks = 2 → (p.bank (!p.cur)).st ≠ .held) →
    (p.bank p.cur).rdp + d.length = (p.bank p.cur).cnt →
    (∀ i, i < d.length → Mem.read (p.bank p.cur).data ((p.bank p.cur).rdp + i) = d[i]?) →
    p.q.size + d.length < p.q.cap →
    ∃ r, p.fill c = some r ∧ r.q.contents = p.q.contents ++ d.map some ∧
      r.q.cap = p.q.cap ∧ r.q.fail = p.q.fail ∧
      r.bank p.cur = { p.bank p.cur with
        st := if c.kind = .out then .freeRx else .fill, cnt := 0, rdp := 0 } ∧
      r.bank (!p.cur) = p.bank (!p.cur) ∧
      r.dataReady = decide ((p.bank p.cur).cnt < c.bsize) ∧
      r.cur = (if c.nbanks = 2 then !p.cur else p.cur) ∧
      r.ipend = p.ipend &&& 0x7B ∧ r.ien = p.ien ∧
      r.dir = (if d = [] then p.dir else .out) ∧
      r.flush = p.flush ∧ r.stall = p.stall ∧ r.busPtr = p.busPtr) ∧
  (∀ (c : EpCfg) (p : Ep) (d e : List Byte), Ep.Inv c p → c.nbanks = 2 →
    (p.bank p.cur).st = .held → (p.bank (!p.cur)).st = .held →
    (p.bank p.cur).rdp + d.length = (p.bank p.cur).cnt →
    (∀ i, i < d.length → Mem.read (p.bank p.cur).data ((p.bank p.cur).rdp + i) = d[i]?) →
    (p.bank (!p.cur)).rdp + e.length = (p.bank (!p.cur)).cnt →
    (∀ i, i < e.length → Mem.read (p.bank (!p.cur)).data ((p.bank (!p.cur)).rdp + i) = e[i]?) →
    p.q.size + d.length + e.length < p.q.cap →
    ∃ r, p.fill c = some r ∧ r.q.contents = p.q.contents ++ (d ++ e).map some ∧
      r.q.cap = p.q.cap ∧ r.q.fail = p.q.fail ∧
      (∀ b, r.bank b = { p.bank b with
        st := if c.kind = .out then .freeRx else .fill, cnt := 0, rdp := 0 }) ∧
      r.dataReady = decide ((p.bank (!p.cur)).cnt < c.bsize) ∧ r.cur = p.cur ∧
      r.ipend = p.ipend &&& 0x7B ∧ r.ien = p.ien ∧
      r.dir = (if d ++ e = [] then p.dir else .out) ∧
      r.flush = p.flush ∧ r.stall = p.stall ∧ r.busPtr = p.busPtr)

/-- When the unread bytes fill the queue, or it is full already, exactly the bytes that fit move, the bank
stays HELD, RXOUT stays as it is and the OUT enable is cleared (R178, R179, R180). When that happens in the
second of two HELD banks, the first bank has been released. -/
def Obligations.FillBackpressure : Prop :=
  (∀ (c : EpCfg) (p : Ep) (d : List Byte), Ep.Inv c p →
    (p.bank p.cur).st = .held → p.q.size + d.length = p.q.cap →
    (p.bank p.cur).rdp + d.length ≤ (p.bank p.cur).cnt →
    (∀ i, i < d.length → Mem.read (p.bank p.cur).data ((p.bank p.cur).rdp + i) = d[i]?) →
    ∃ r, p.fill c = some r ∧ r.q.contents = p.q.contents ++ d.map some ∧
      r.q.size = p.q.cap ∧ r.q.cap = p.q.cap ∧ r.q.fail = p.q.fail ∧
      r.bank p.cur = { p.bank p.cur with rdp := (p.bank p.cur).rdp + d.length } ∧
      r.bank (!p.cur) = p.bank (!p.cur) ∧ r.cur = p.cur ∧ r.ipend = p.ipend ∧
      r.ien = p.ien &&& 0x7B ∧ r.dataReady = p.dataReady ∧
      r.dir = (if d = [] then p.dir else .out) ∧ r.flush = p.flush) ∧
  (∀ (c : EpCfg) (p : Ep) (d e : List Byte), Ep.Inv c p → c.nbanks = 2 →
    (p.bank p.cur).st = .held → (p.bank (!p.cur)).st = .held →
    (p.bank p.cur).rdp + d.length = (p.bank p.cur).cnt →
    (∀ i, i < d.length → Mem.read (p.bank p.cur).data ((p.bank p.cur).rdp + i) = d[i]?) →
    e ≠ [] → (p.bank (!p.cur)).rdp + e.length ≤ (p.bank (!p.cur)).cnt →
    (∀ i, i < e.length → Mem.read (p.bank (!p.cur)).data ((p.bank (!p.cur)).rdp + i) = e[i]?) →
    p.q.size + d.length + e.length = p.q.cap →
    ∃ r, p.fill c = some r ∧ r.q.contents = p.q.contents ++ (d ++ e).map some ∧
      r.q.size = p.q.cap ∧ r.q.cap = p.q.cap ∧ r.q.fail = p.q.fail ∧
      r.bank p.cur = { p.bank p.cur with
        st := if c.kind = .out then .freeRx else .fill, cnt := 0, rdp := 0 } ∧
      r.bank (!p.cur) = { p.bank (!p.cur) with rdp := (p.bank (!p.cur)).rdp + e.length } ∧
      r.cur = (!p.cur) ∧ r.ipend = p.ipend ∧ r.ien = p.ien &&& 0x7B ∧
      r.dataReady = decide ((p.bank p.cur).cnt < c.bsize) ∧ r.dir = .out ∧ r.flush = p.flush)

/-- Which bytes of the queue land in which bank (R175, R176, R183 to R186), `d` being the queue's bytes.
(1) They fit the current FILL bank: it holds them after those it held and is COMMITTED, the queue is empty;
with `d` empty the packet has no new byte, a zero-length packet when the bank was empty. (2) They do not fit
and no other bank is FILL: the bank is filled up and COMMITTED, the rest stays queued. (3) They do not fit
and the other bank is FILL: the full bank is COMMITTED, the drain goes on in the other, and that is COMMITTED
too. (4) The current bank is not FILL: no byte moves and no bank changes. In each case the transfer is done
exactly when no byte is left. -/
def Obligations.DrainSendsPacket : Prop :=
  ∀ (c : EpCfg) (p : Ep) (d : List Byte), Ep.Inv c p → p.q.contents = d.map some →
    ((p.bank p.cur).st = .fill → (p.bank p.cur).cnt + d.length ≤ c.bsize →
      ∃ r, p.drain c = some r ∧ Ep.DrainEnd c p r [] ∧
        Bank.Sent (p.bank p.cur) (r.bank p.cur) d ∧ r.bank (!p.cur) = p.bank (!p.cur) ∧
        r.cur = (if c.nbanks = 2 then !p.cur else p.cur)) ∧
    (∀ d1 rest, d = d1 ++ rest → rest ≠ [] → (p.bank p.cur).st = .fill →
      (p.bank p.cur).cnt + d1.length = c.bsize → (c.nbanks = 2 → (p.bank (!p.cur)).st ≠ .fill) →
      ∃ r, p.drain c = some r ∧ Ep.DrainEnd c p r rest ∧
        Bank.Sent (p.bank p.cur) (r.bank p.cur) d1 ∧ r.bank (!p.cur) = p.bank (!p.cur) ∧
        r.cur = (if c.nbanks = 2 then !p.cur else p.cur)) ∧
    (∀ d1 d2 rest, d = d1 ++ (d2 ++ rest) → d2 ++ rest ≠ [] → c.nbanks = 2 →
      (p.bank p.cur).st = .fill → (p.bank (!p.cur)).st = .fill →
      (p.bank p.cur).cnt + d1.length = c.bsize → (p.bank (!p.cur)).cnt + d2.length ≤ c.bsize →
      (rest ≠ [] → (p.bank (!p.cur)).cnt + d2.length = c.bsize) →
      ∃ r, p.drain c = some r ∧ Ep.DrainEnd c p r rest ∧
        Bank.Sent (p.bank p.cur) (r.bank p.cur) d1 ∧
        Bank.Sent (p.bank (!p.cur)) (r.bank (!p.cur)) d2 ∧ r.cur = p.cur) ∧
    (slotOk c = true → c.kind ≠ .unconf → (p.bank p.cur).st ≠ .fill →
      ∃ r, p.drain c = some r ∧ Ep.DrainEnd c p r d ∧ (∀ b, r.bank b = p.bank b) ∧ r.cur = p.cur)

/-- After a drain the transfer is done exactly when the queue is empty: then the IN enable, FLUSH and DIR
are cleared, otherwise all three are left (R186). -/
def Obligations.DrainCompletion : Prop :=
  ∀ (c : EpCfg) (p r : Ep), p.drain c = some r →
    (r.q.size = 0 → r.flush = false ∧ r.dir = .none ∧ r.ien = p.ien &&& 0x7D) ∧
    (r.q.size ≠ 0 → r.flush = p.flush ∧ r.dir = p.dir ∧ r.ien = p.ien)

/-- SETUP handling: a queue smaller than the packet is a stall and no SETUP is delivered; otherwise the
packet's bytes are QMEM[e][0 .. n-1]. Either way the queue is reset first, the SETUP acknowledgment is
cleared and the transfer in progress is cancelled (R188 to R190). -/
def Obligations.SetupHandlingResult : Prop :=
  ∀ (p : Ep) (tok : Token) (n : Nat), n = p.bank0.cnt →
    (p.q.cap < n →
      p.setupHandling tok = some ({ p with
        q := { p.q with rd := 0, size := 0 }
        stall := true
        flush := false
        dir := .none
        ien := p.ien &&& 0x7D
        ipend := (p.ipend &&& 0x7E) ||| 0x02
        bank0 := { p.bank0 with st := .fill, cnt := 0, rdp := 0 } }, tok &&& 0x3E)) ∧
    (n ≤ p.q.cap → (∀ i, i < n → (Mem.read p.bank0.data i).isSome) →
      ∃ q' : Queue, q'.rd = 0 ∧ q'.size = n ∧ q'.cap = p.q.cap ∧ q'.fail = p.q.fail ∧
        (∀ i, i < n → Mem.read q'.mem i = Mem.read p.bank0.data i) ∧
        (∀ i, n ≤ i → Mem.read q'.mem i = Mem.read p.q.mem i) ∧
        p.setupHandling tok = some ({ p with
          q := q'
          flush := false
          dir := .none
          ien := p.ien &&& 0x7D
          ipend := (p.ipend &&& 0x7E) ||| 0x02
          bank0 := { p.bank0 with st := .fill, cnt := 0, rdp := 0 } }, tok))

/-- The IN-abort leaves a clean endpoint: every bank free and empty, the pointers 0, the queue reset, no
flush, no direction, no DATA_READY, RXOUT cleared, TXIN as the type starts, IN and OUT enabled (R194). -/
def Obligations.InAbortResult : Prop :=
  ∀ (c : EpCfg) (p : Ep),
    (∀ b, (b = true → c.nbanks = 2) →
      (p.inAbort c).bank b = { p.bank b with
        st := if c.kind = .out then .freeRx else .fill, cnt := 0, rdp := 0 }) ∧
    (c.nbanks ≠ 2 → (p.inAbort c).bank1 = p.bank1) ∧
    p.inAbort c = { p with
      bank0 := (p.inAbort c).bank0
      bank1 := (p.inAbort c).bank1
      cur := false
      busPtr := false
      q := { p.q with rd := 0, size := 0 }
      flush := false
      dir := .none
      dataReady := false
      ien := p.ien ||| 0x06
      ipend := if c.kind = .inn then (p.ipend &&& 0x7B) ||| 0x02 else p.ipend &&& 0x79 }

/-- Delivery: endpoint 0's token joins TOKEN_LATCH and, when not 0, sets TOKEN_PENDING (R199); another
endpoint's is an SVC event and, with a callback bound and a token not 0, a CALLBACK event (R200). -/
def Obligations.DeliveryResult : Prop :=
  ∀ (s : State) (e : Nat) (tok : Token) (p : Ep),
    (tok ≠ 0 → s.deliver 0 tok p = { s with
      tokenLatch := s.tokenLatch ||| tok, tokenPending := true,
      history := s.history ++ [.svc 0 tok] }) ∧
    (tok = 0 → s.deliver 0 tok p = { s with history := s.history ++ [.svc 0 tok] }) ∧
    (e ≠ 0 → p.cb ≠ 0 → tok ≠ 0 → s.deliver e tok p = { s with
      history := s.history ++ [.svc e tok, .callback e tok p.cb p.cbctx] }) ∧
    (e ≠ 0 → p.cb = 0 ∨ tok = 0 → s.deliver e tok p = { s with
      history := s.history ++ [.svc e tok] })

/-- Progress: a service step clears every enabled pending flag or its enable, but for TXIN when an IN
endpoint's next bank is free and RXOUT when the next OUT bank is HELD (R201, the
spec's own inference; its third exception, TXIN after SETUP handling, has its enable cleared). -/
def Obligations.ServiceMakesProgress : Prop :=
  ∀ (c : EpCfg) (p r : Ep) (tok : Token), slotOk c = true → c.kind ≠ .unconf → Ep.Inv c p →
    p.service c = some (r, tok) →
    ∀ k, (p.ipend &&& p.ien).getLsbD k = true →
      r.ipend.getLsbD k = false ∨ r.ien.getLsbD k = false ∨
      (k = 1 ∧ c.kind = .inn ∧ (r.bank r.cur).st = .fill) ∨
      (k = 2 ∧ (r.bank r.cur).st = .held)

/-! ### The bus side (43_bus_agent.md) -/

/-- Who answers: a wrong address or an unconfigured endpoint gets NONE and no state changes (R211); so do a
SETUP to an endpoint that is not CONTROL, an IN to an OUT endpoint and an OUT to an IN endpoint (of R212). -/
def Obligations.BusAddressing : Prop :=
  ∀ (s : State) (a : Bits7) (e : Nat) (d : List Byte),
    (a ≠ s.faddr ∨ s.ep? e = none →
      (d.length = 8 → busStep (.setup a e d) s =
        .next { s with history := s.history ++ [.bus (.setup a e d) .none] }) ∧
      ((∀ c p, s.ep? e = some (c, p) → d.length ≤ c.bsize) → busStep (.out a e d) s =
        .next { s with history := s.history ++ [.bus (.out a e d) .none] }) ∧
      busStep (.inn a e) s = .next { s with history := s.history ++ [.bus (.inn a e) .none] }) ∧
    (∀ c p, s.ep? e = some (c, p) → a = s.faddr →
      (c.kind ≠ .control → d.length = 8 → busStep (.setup a e d) s =
        .next { s with history := s.history ++ [.bus (.setup a e d) .none] }) ∧
      (c.kind = .inn → d.length ≤ c.bsize → busStep (.out a e d) s =
        .next { s with history := s.history ++ [.bus (.out a e d) .none] }) ∧
      (c.kind = .out → busStep (.inn a e) s =
        .next { s with history := s.history ++ [.bus (.inn a e) .none] }))

/-- A SETUP to a control endpoint is always accepted: bank 0 HELD with its 8 bytes, RXSTP set, TXIN and
RXOUT cleared (R213), and STALL cleared (R214). -/
def Obligations.SetupReception : Prop :=
  ∀ (s : State) (e : Nat) (c : EpCfg) (p : Ep) (d : List Byte),
    s.ep? e = some (c, p) → c.kind = .control → d.length = 8 →
    ∃ m : Mem, (∀ i, i < 8 → Mem.read m i = d[i]?) ∧
      (∀ i, 8 ≤ i → Mem.read m i = Mem.read p.bank0.data i) ∧
      busStep (.setup s.faddr e d) s = .next { s.setEp e { p with
          bank0 := { st := .held, cnt := 8, rdp := 0, data := m }
          ipend := (p.ipend &&& 0x79) ||| 0x01
          stall := false } with
        history := s.history ++ [.bus (.setup s.faddr e d) .ack] }

/-- OUT on a control endpoint: STALL; else NAK when OUT is disabled, RXSTP is pending or the bank is HELD;
else the packet is received, and TXIN is set when it displaces a committed one (R215). -/
def Obligations.OutOnControlEndpoint : Prop :=
  ∀ (s : State) (e : Nat) (c : EpCfg) (p : Ep) (d : List Byte),
    s.ep? e = some (c, p) → c.kind = .control → d.length ≤ c.bsize →
    (p.stall = true → busStep (.out s.faddr e d) s = .next { s.setEp e { p with
        ipend := p.ipend ||| 0x40 } with
      history := s.history ++ [.bus (.out s.faddr e d) .stall] }) ∧
    (p.stall = false →
      p.ien.getLsbD 2 = false ∨ p.ipend.getLsbD 0 = true ∨ p.bank0.st = .held →
      busStep (.out s.faddr e d) s = .next { s.setEp e { p with
        ipend := p.ipend ||| 0x10 } with
      history := s.history ++ [.bus (.out s.faddr e d) .nak] }) ∧
    (p.stall = false → p.ien.getLsbD 2 = true → p.ipend.getLsbD 0 = false → p.bank0.st ≠ .held →
      ∃ m : Mem, (∀ i, i < d.length → Mem.read m i = d[i]?) ∧
        (∀ i, d.length ≤ i → Mem.read m i = Mem.read p.bank0.data i) ∧
        busStep (.out s.faddr e d) s = .next { s.setEp e { p with
            bank0 := { st := .held, cnt := d.length, rdp := 0, data := m }
            ipend := (if p.bank0.st = .committed then p.ipend ||| 0x06 else p.ipend ||| 0x04) } with
          history := s.history ++ [.bus (.out s.faddr e d) .ack] })

/-- IN on an IN or control endpoint: STALL; else a COMMITTED bank's bytes are sent, the bank is FILL and
TXIN is set; else NAK (R216). -/
def Obligations.InReply : Prop :=
  ∀ (s : State) (e : Nat) (c : EpCfg) (p : Ep),
    s.ep? e = some (c, p) → c.kind = .inn ∨ c.kind = .control →
    (p.stall = true → busStep (.inn s.faddr e) s = .next { s.setEp e { p with
        ipend := p.ipend ||| 0x40 } with
      history := s.history ++ [.bus (.inn s.faddr e) .stall] }) ∧
    (p.stall = false → (p.bank p.busPtr).st ≠ .committed →
      busStep (.inn s.faddr e) s = .next { s.setEp e { p with
        ipend := p.ipend ||| 0x08 } with
      history := s.history ++ [.bus (.inn s.faddr e) .nak] }) ∧
    (∀ d : List Byte, p.stall = false → (p.bank p.busPtr).st = .committed →
      d.length = (p.bank p.busPtr).cnt →
      (∀ i, i < d.length → Mem.read (p.bank p.busPtr).data i = d[i]?) →
      ∃ r : Ep, r.bank p.busPtr = { p.bank p.busPtr with st := .fill, cnt := 0 } ∧
        r.bank (!p.busPtr) = p.bank (!p.busPtr) ∧
        r = { p with
          bank0 := r.bank0
          bank1 := r.bank1
          busPtr := if c.nbanks = 2 then !p.busPtr else p.busPtr
          ipend := p.ipend ||| 0x02 } ∧
        busStep (.inn s.faddr e) s = .next { s.setEp e r with
          history := s.history ++ [.bus (.inn s.faddr e) (.data d)] })

/-- OUT on an OUT endpoint: STALL; else NAK when OUT is disabled or the bus side's bank is not free; else
the packet is received and RXOUT is set (R217). -/
def Obligations.OutOnOutEndpoint : Prop :=
  ∀ (s : State) (e : Nat) (c : EpCfg) (p : Ep) (d : List Byte),
    s.ep? e = some (c, p) → c.kind = .out → d.length ≤ c.bsize →
    (p.stall = true → busStep (.out s.faddr e d) s = .next { s.setEp e { p with
        ipend := p.ipend ||| 0x40 } with
      history := s.history ++ [.bus (.out s.faddr e d) .stall] }) ∧
    (p.stall = false → p.ien.getLsbD 2 = false ∨ (p.bank p.busPtr).st ≠ .freeRx →
      busStep (.out s.faddr e d) s = .next { s.setEp e { p with
        ipend := p.ipend ||| 0x10 } with
      history := s.history ++ [.bus (.out s.faddr e d) .nak] }) ∧
    (p.stall = false → p.ien.getLsbD 2 = true → (p.bank p.busPtr).st = .freeRx →
      ∃ (m : Mem) (r : Ep), (∀ i, i < d.length → Mem.read m i = d[i]?) ∧
        (∀ i, d.length ≤ i → Mem.read m i = Mem.read (p.bank p.busPtr).data i) ∧
        r.bank p.busPtr = { st := .held, cnt := d.length, rdp := 0, data := m } ∧
        r.bank (!p.busPtr) = p.bank (!p.busPtr) ∧
        r = { p with
          bank0 := r.bank0
          bank1 := r.bank1
          busPtr := if c.nbanks = 2 then !p.busPtr else p.busPtr
          ipend := p.ipend ||| 0x04 } ∧
        busStep (.out s.faddr e d) s = .next { s.setEp e r with
          history := s.history ++ [.bus (.out s.faddr e d) .ack] })

/-- A flow error sets FLERR of a configured endpoint and nothing else, and does nothing to another
(R219). -/
def Obligations.FlowErrorReport : Prop :=
  ∀ (s : State) (e : Nat),
    (s.ep? e = none →
      busStep (.flowerr e) s = .next { s with history := s.history ++ [.bus (.flowerr e) .none] }) ∧
    (∀ c p, s.ep? e = some (c, p) →
      busStep (.flowerr e) s = .next { s.setEp e { p with ipend := p.ipend ||| 0x20 } with
        history := s.history ++ [.bus (.flowerr e) .none] })

/-! ### The dispatcher and the control state machine (44_control_fsm.md) -/

/-- A DISP step needs TOKEN_PENDING; it takes the whole batch. Without a request to dispatch it only clears
the latch, records its event and, in AWAIT_FLUSH with FLUSH 0 or in AWAIT_IN_FOR_ADDRESS with SETUP and no
IN, returns to SETUP, FADDR unchanged (R240, R241, R244, R245, R247, R248). That a step offered with
TOKEN_PENDING 0 does nothing is THE MODEL'S CHOICE (log entry 11). -/
def Obligations.DispatchWithoutRequest : Prop :=
  ∀ (s : State) (c : EpCfg) (p : Ep), s.ep? 0 = some (c, p) →
    (s.tokenPending = false → dispStep s = .next s) ∧
    (s.tokenPending = true →
      (s.ctlState = .setup → s.tokenLatch.getLsbD 0 = false →
        dispStep s = .next { s with
          tokenLatch := 0, tokenPending := false,
          history := s.history ++ [.disp s.tokenLatch .setup .setup] }) ∧
      (s.ctlState = .awaitFlush → p.flush = true →
        dispStep s = .next { s with
          tokenLatch := 0, tokenPending := false,
          history := s.history ++ [.disp s.tokenLatch .awaitFlush .awaitFlush] }) ∧
      (s.ctlState = .awaitFlush → p.flush = false →
        dispStep s = .next { s with
          tokenLatch := 0, tokenPending := false, ctlState := .setup,
          history := s.history ++ [.disp s.tokenLatch .awaitFlush .setup] }) ∧
      (s.ctlState = .awaitInForAddress → s.tokenLatch.getLsbD 1 = false →
        s.tokenLatch.getLsbD 0 = true →
        dispStep s = .next { s with
          tokenLatch := 0, tokenPending := false, ctlState := .setup,
          history := s.history ++ [.disp s.tokenLatch .awaitInForAddress .setup] }) ∧
      (s.ctlState = .awaitInForAddress → s.tokenLatch.getLsbD 1 = false →
        s.tokenLatch.getLsbD 0 = false →
        dispStep s = .next { s with
          tokenLatch := 0, tokenPending := false,
          history := s.history ++ [.disp s.tokenLatch .awaitInForAddress .awaitInForAddress] }))

/-- In AWAIT_IN_FOR_ADDRESS a batch with IN, whatever else it holds, clears the transmit acknowledgment
(which commits a FILL bank), applies the latched address, resets the queue and returns to SETUP (R246,
R265). -/
def Obligations.AddressApplication : Prop :=
  ∀ (s : State) (c : EpCfg) (p : Ep), s.ep? 0 = some (c, p) → c.kind = .control → c.nbanks = 1 →
    p.cur = false → s.tokenPending = true → s.ctlState = .awaitInForAddress →
    s.tokenLatch.getLsbD 1 = true →
    dispStep s = .next { s.setEp 0 { p with
        ipend := p.ipend &&& 0x7D
        bank0 := if p.bank0.st = .fill then { p.bank0 with st := .committed } else p.bank0
        q := { p.q with rd := 0, size := 0 } } with
      faddr := s.ctlAddr, ctlState := .setup, tokenLatch := 0, tokenPending := false,
      history := s.history ++ [.disp s.tokenLatch .awaitInForAddress .setup] }

/-- GET_DESCRIPTOR (bRequest 6) in SETUP, by the high byte of wValue: DEVICE and CONFIGURATION queue the
descriptor, as much of it as QCAP holds, flush and await the flush, CONFIGURATION being the header alone
when wLength is the header's size; STRING does nothing; any other type stalls. The queue is reset first
(R250, R251, R253 to R255). -/
def Obligations.DescriptorRequests : Prop :=
  ∀ (s : State) (c : EpCfg) (p : Ep) (b0 b2 ty b4 b5 b6 b7 : Byte),
    s.ep? 0 = some (c, p) → s.tokenPending = true → s.ctlState = .setup →
    s.tokenLatch.getLsbD 0 = true →
    Mem.readAll p.q.mem 0 8 = some [b0, 0x06, b2, ty, b4, b5, b6, b7] →
    (∀ src : List Byte,
      (ty = 0x01 ∧ src = s.cfg.devDesc) ∨
      (ty = 0x02 ∧ (b7 ++ b6 : Half).toNat = s.cfg.cfgHdrLen ∧
        src = s.cfg.cfgDesc.take s.cfg.cfgHdrLen) ∨
      (ty = 0x02 ∧ (b7 ++ b6 : Half).toNat ≠ s.cfg.cfgHdrLen ∧ src = s.cfg.cfgDesc) →
      ∃ q' : Queue, q'.contents = (src.take p.q.cap).map some ∧
        q'.rd = 0 ∧ q'.cap = p.q.cap ∧ q'.fail = p.q.fail ∧
        dispStep s = .next { s.setEp 0 { p with
            q := q', flush := true, dir := .inn, ien := p.ien ||| 0x02 } with
          ctlState := .awaitFlush, tokenLatch := 0, tokenPending := false,
          history := s.history ++ [.disp s.tokenLatch .setup .awaitFlush] }) ∧
    (ty = 0x03 →
      dispStep s = .next { s.setEp 0 { p with q := { p.q with rd := 0, size := 0 } } with
        tokenLatch := 0, tokenPending := false,
        history := s.history ++ [.disp s.tokenLatch .setup .setup] }) ∧
    (ty ≠ 0x01 → ty ≠ 0x02 → ty ≠ 0x03 →
      dispStep s = .next { s.setEp 0 { p with
          q := { p.q with rd := 0, size := 0 }, stall := true } with
        tokenLatch := 0, tokenPending := false,
        history := s.history ++ [.disp s.tokenLatch .setup .setup] })

/-- The other requests in SETUP: SET_ADDRESS (5) latches wValue[6:0], enables IN and awaits it, FADDR
unchanged; SET_CONFIGURATION (9) flushes the empty queue; GET_STATUS (0) queues the two status bytes and
awaits the flush; any other code stalls (R252, R256 to R260). -/
def Obligations.OtherRequests : Prop :=
  ∀ (s : State) (c : EpCfg) (p : Ep) (b0 req b2 b3 b4 b5 b6 b7 : Byte),
    s.ep? 0 = some (c, p) → s.tokenPending = true → s.ctlState = .setup →
    s.tokenLatch.getLsbD 0 = true →
    Mem.readAll p.q.mem 0 8 = some [b0, req, b2, b3, b4, b5, b6, b7] →
    (req = 0x05 →
      dispStep s = .next { s.setEp 0 { p with
          q := { p.q with rd := 0, size := 0 }, ien := p.ien ||| 0x02 } with
        ctlAddr := b2.extractLsb' 0 7, ctlState := .awaitInForAddress,
        tokenLatch := 0, tokenPending := false,
        history := s.history ++ [.disp s.tokenLatch .setup .awaitInForAddress] }) ∧
    (req = 0x09 →
      dispStep s = .next { s.setEp 0 { p with
          q := { p.q with rd := 0, size := 0 },
          flush := true, dir := .inn, ien := p.ien ||| 0x02 } with
        tokenLatch := 0, tokenPending := false,
        history := s.history ++ [.disp s.tokenLatch .setup .setup] }) ∧
    (req = 0x00 → s.cfg.statusBytes.length = 2 →
      ∃ q' : Queue, q'.contents = (s.cfg.statusBytes.take p.q.cap).map some ∧
        q'.rd = 0 ∧ q'.cap = p.q.cap ∧ q'.fail = p.q.fail ∧
        dispStep s = .next { s.setEp 0 { p with
            q := q', flush := true, dir := .inn, ien := p.ien ||| 0x02 } with
          ctlState := .awaitFlush, tokenLatch := 0, tokenPending := false,
          history := s.history ++ [.disp s.tokenLatch .setup .awaitFlush] }) ∧
    (req ≠ 0x06 → req ≠ 0x05 → req ≠ 0x09 → req ≠ 0x00 →
      dispStep s = .next { s.setEp 0 { p with
          q := { p.q with rd := 0, size := 0 }, stall := true } with
        tokenLatch := 0, tokenPending := false,
        history := s.history ++ [.disp s.tokenLatch .setup .setup] })

/-! ### Registers and resets (20_memory.md, 70_reset_and_hazards.md) -/

/-- A register access of another width or at an offset that is not a multiple of 4 records MMIO_ACCESS
(R71); that it then goes on to a next state with no other effect is the model's inference (log entry 9). A
read changes no engine state; a write changes state only at ARG_A, ARG_B, ARG_C and CMD, the last being a
command (R72). That an access outside 0x000 to 0x4FF does nothing is the model's inference (log entry 15), and
the offset is taken modulo 2^32 (THE MODEL'S CHOICE, log entry 19). The value read goes to the model's own
field `rdata` (log entry 6). -/
def Obligations.RegisterAccess : Prop :=
  ∀ (s : State) (addr v : Word) (width : Width) (off : Nat), off = (addr - s.cfg.regBase).toNat →
    (off < 0x500 → width ≠ .word ∨ off % 4 ≠ 0 →
      regLoad addr width s = .next { s with
        faultMmio := true, history := s.history ++ [.fault .mmioAccess] } ∧
      regStore addr width v s = .next { s with
        faultMmio := true, history := s.history ++ [.fault .mmioAccess] }) ∧
    (0x500 ≤ off → regLoad addr width s = .next s ∧ regStore addr width v s = .next s) ∧
    (off < 0x500 → width = .word → off % 4 = 0 →
      regLoad addr width s = .next { s with rdata := s.regRead off } ∧
      (off = 0x000 → regStore addr width v s = cmdWrite v s) ∧
      (off = 0x004 → regStore addr width v s = .next { s with argA := v }) ∧
      (off = 0x008 → regStore addr width v s = .next { s with argB := v.setWidth 16 }) ∧
      (off = 0x00C → regStore addr width v s = .next { s with argC := v }) ∧
      (0x010 ≤ off → regStore addr width v s = .next s))

/-- What the registers read: the global ones (R76) and an endpoint's block at 0x100 + 0x40 e (R77), each
word whole, so that its reserved bits read 0 (R48); unmapped offsets and the block of an endpoint that is not
configured read 0 (R72). -/
def Obligations.RegisterMap : Prop :=
  ∀ s : State,
    (s.regRead 0x000 = s.cmd ∧ s.regRead 0x004 = s.argA ∧
      s.regRead 0x008 = s.argB.setWidth 32 ∧ s.regRead 0x00C = s.argC ∧
      s.regRead 0x010 = s.result.setWidth 32 ∧ s.regRead 0x014 = s.status.setWidth 32 ∧
      s.regRead 0x018 = s.faddr.setWidth 32 ∧
      (s.regRead 0x01C).toNat = s.ctlState.code + 2 ^ 8 * s.ctlAddr.toNat ∧
      (s.regRead 0x020).toNat = s.tokenLatch.toNat + 2 ^ 8 * s.tokenPending.toNat) ∧
    (s.cfg.eps.length ≤ 16 → ∀ e,
      ((s.regRead 0x024).getLsbD e = true ↔
        ∃ c p, s.ep? e = some (c, p) ∧ p.ipend &&& p.ien ≠ 0) ∧
      (s.regRead 0x028).toNat = s.cfg.eps.length) ∧
    (∀ off, 0x02C ≤ off → off < 0x100 → s.regRead off = 0) ∧
    (∀ e off, off < 0x40 → s.ep? e = none → s.regRead (0x100 + 0x40 * e + off) = 0) ∧
    (∀ e c p, s.ep? e = some (c, p) → slotOk c = true → Ep.Inv c p →
      s.regRead (0x100 + 0x40 * e + 0x00) = p.ien.setWidth 32 ∧
      s.regRead (0x100 + 0x40 * e + 0x04) = p.ipend.setWidth 32 ∧
      (s.regRead (0x100 + 0x40 * e + 0x08)).toNat
        = p.flush.toNat + 2 * p.dir.code + 2 ^ 3 * p.dataReady.toNat ∧
      (s.regRead (0x100 + 0x40 * e + 0x0C)).toNat = p.stall.toNat ∧
      (s.regRead (0x100 + 0x40 * e + 0x10)).toNat = p.q.cap ∧
      (s.regRead (0x100 + 0x40 * e + 0x14)).toNat = p.q.rd ∧
      (s.regRead (0x100 + 0x40 * e + 0x18)).toNat = p.q.size ∧
      (s.regRead (0x100 + 0x40 * e + 0x1C)).toNat = p.q.fail.toNat ∧
      (s.regRead (0x100 + 0x40 * e + 0x20)).toNat
        = p.bank0.st.code + 2 ^ 8 * p.bank0.cnt + 2 ^ 16 * p.bank0.rdp ∧
      (s.regRead (0x100 + 0x40 * e + 0x24)).toNat
        = (if c.nbanks = 2 then p.bank1.st.code + 2 ^ 8 * p.bank1.cnt + 2 ^ 16 * p.bank1.rdp
           else 0) ∧
      (s.regRead (0x100 + 0x40 * e + 0x28)).toNat = p.cur.toNat + 2 * p.busPtr.toNat ∧
      s.regRead (0x100 + 0x40 * e + 0x2C) = p.cb ∧
      s.regRead (0x100 + 0x40 * e + 0x30) = p.cbctx ∧
      (s.regRead (0x100 + 0x40 * e + 0x34)).toNat
        = epTypeCode c.kind + 2 ^ 2 * (c.nbanks - 1) + 2 ^ 8 * c.bsize + 2 ^ 16 * c.qmax ∧
      ∀ off, 0x38 ≤ off → off < 0x40 → s.regRead (0x100 + 0x40 * e + off) = 0)

/-- Power-on reset answers a next state in which every register, fault bit and field of every configured
endpoint has the POR value of R312 and no byte of storage or of a bank is written (R310). THE MODEL'S CHOICE
(log entry 13): it is an input of the environment, and it keeps the configuration. -/
def Obligations.PowerOnResetResult : Prop :=
  ∀ (s : State) (m : Bool), ∃ t, runInput ⟨m, .powerOn⟩ s = .next t ∧
    t.cfg = s.cfg ∧ t.cmd = 0 ∧ t.argA = 0 ∧ t.argB = 0 ∧ t.argC = 0 ∧ t.result = 0 ∧ t.status = 0 ∧
    t.faddr = 0 ∧ t.ctlState = .setup ∧ t.ctlAddr = 0 ∧ t.tokenLatch = 0 ∧ t.tokenPending = false ∧
    t.faultFree ∧ t.history = [] ∧
    ∀ e c, s.cfg.eps[e]? = some c → c.kind ≠ .unconf → ∃ p, t.ep? e = some (c, p) ∧
      p.flush = false ∧ p.dir = .none ∧ p.dataReady = false ∧ p.stall = false ∧
      p.cb = 0 ∧ p.cbctx = 0 ∧
      (c.kind = .control → p.ien = 0x05 ∧ p.ipend = 0x00) ∧
      (c.kind = .out → p.ien = 0x04 ∧ p.ipend = 0x00) ∧
      (c.kind = .inn → p.ien = 0x00 ∧ p.ipend = 0x02) ∧
      p.q.cap = c.qmax ∧ p.q.rd = 0 ∧ p.q.size = 0 ∧ p.q.fail = false ∧
      p.cur = false ∧ p.busPtr = false ∧
      (∀ b, (p.bank b).st = (if c.kind = .out then .freeRx else .fill) ∧ (p.bank b).cnt = 0 ∧
        (p.bank b).rdp = 0) ∧
      ∀ k, Mem.read p.q.mem k = none ∧ ∀ b, Mem.read (p.bank b).data k = none

/-- Bus reset, one BUS step: FADDR, the control state, the token latch and every configured endpoint's
fields return to their reset values; the command-port registers, CB, CBCTX, the stored bytes and the fault
bits are kept (R311, R220). The transaction's event (R210) is appended to the history that the reset keeps:
the model's inference (log entry 16). -/
def Obligations.BusResetResult : Prop :=
  ∀ s : State, s.eps.length = s.cfg.eps.length →
    ∃ t, busStep .reset s = .next t ∧
    t = { s with
      eps := t.eps, faddr := 0, ctlState := .setup, ctlAddr := 0, tokenLatch := 0,
      tokenPending := false, history := s.history ++ [.bus .reset .none] } ∧
    ∀ e c p, s.ep? e = some (c, p) → ∃ r, t.ep? e = some (c, r) ∧
      r.flush = false ∧ r.dir = .none ∧ r.dataReady = false ∧ r.stall = false ∧
      r.cb = p.cb ∧ r.cbctx = p.cbctx ∧
      (c.kind = .control → r.ien = 0x05 ∧ r.ipend = 0x00) ∧
      (c.kind = .out → r.ien = 0x04 ∧ r.ipend = 0x00) ∧
      (c.kind = .inn → r.ien = 0x00 ∧ r.ipend = 0x02) ∧
      r.q = { cap := c.qmax, rd := 0, size := 0, fail := false, mem := p.q.mem } ∧
      r.cur = false ∧ r.busPtr = false ∧
      ∀ b, r.bank b = { st := if c.kind = .out then .freeRx else .fill, cnt := 0, rdp := 0,
                        data := (p.bank b).data }

/-- After either reset the engine is idle: an SVC step and a DISP step find nothing to do (R313, the spec's
own inference). That a step offered without its guard leaves the state as it is, and that power-on reset is an
input, is THE MODEL'S CHOICE (log entries 11 and 13). -/
def Obligations.IdleAfterReset : Prop :=
  ∀ (s t : State) (m : Bool), s.eps.length = s.cfg.eps.length →
    busStep .reset s = .next t ∨ runInput ⟨m, .powerOn⟩ s = .next t →
    svcStep false t = .next t ∧ dispStep t = .next t

/-! ### The invariant -/

/-- Every step keeps the machine's invariant, from every state that has it: queue cursors, sizes and
capacities in range and the bytes held written (10_state.md R43, R51); bank states, counts and read
positions as the type allows (R44, R46); the ping-pong order (R47); TOKEN_PENDING exactly when the latch
is not 0 (R31, R32); a latched request written (44_control_fsm.md R251); no callback on endpoint 0 (R38);
HOST memory in its canonical form. -/
def Obligations.StepKeepsInvariant : Prop :=
  ∀ s t : State, State.Inv s → step s = .next t → State.Inv t

/-- The reset state has the invariant. Its configuration is the model's choice (log entry 3). -/
def Obligations.ResetHasInvariant : Prop := State.Inv State.reset

/-- From a state with the invariant no rule reads an unwritten byte (10_state.md R51): a step ends in a
next state, but for the bus moves that R212 says do not exist. It rests on the model's own readings: a refused
host access (log entry 8) and a refused register access (log entry 9) end in a next state, an unwritten read
does not (log entry 10), an offer without its guard does nothing (log entry 11), and a move that does not exist
is refused (log entry 12). -/
def Obligations.InvariantStepsComplete : Prop :=
  ∀ s : State, State.Inv s →
    (∃ t, step s = .next t) ∨
    (step s = .refused .noSuchBusMove ∧
      ((∃ a e d, s.nextInput.action = .bus (.setup a e d) ∧ d.length ≠ 8) ∨
       (∃ a e d c p, s.nextInput.action = .bus (.out a e d) ∧ s.ep? e = some (c, p) ∧
         c.bsize < d.length)))

/-- In a state with the invariant, and in every state a step leads to from one, each bank's state is one of its
endpoint type's (10_state.md R46), and with two banks the ping-pong order holds: an OUT endpoint whose current
bank is FREE_RX has no bank HELD, and an IN endpoint whose current bank is COMMITTED has every bank COMMITTED
(R47). -/
def Obligations.PingPongOrder : Prop :=
  ∀ s t : State, State.Inv s → t = s ∨ step s = .next t →
    ∀ (e : Nat) (c : EpCfg) (p : Ep), t.ep? e = some (c, p) →
      (∀ b, (c.kind = .out → (p.bank b).st = .freeRx ∨ (p.bank b).st = .held) ∧
        (c.kind = .inn → (p.bank b).st = .fill ∨ (p.bank b).st = .committed) ∧
        (c.kind = .control → (p.bank b).st ≠ .freeRx)) ∧
      (c.nbanks = 1 → p.cur = false ∧ p.busPtr = false) ∧
      (c.nbanks = 2 →
        (c.kind = .out → (p.bank p.cur).st = .freeRx → ∀ b, (p.bank b).st ≠ .held) ∧
        (c.kind = .inn → (p.bank p.cur).st = .committed → ∀ b, (p.bank b).st = .committed))
end

