-- ==== Sys2Proof/Laws/Memory.lean ====
section
/-!
SUPPORT. The laws of the sparse memories: read after write, frames, and the canonical form kept.
-/

namespace Sys2Proof.Machine

@[simp] theorem Mem.read_nil (k : Nat) : Mem.read [] k = none := rfl

@[simp] theorem Mem.read_write_same (m : Mem) (k : Nat) (v : Byte) :
    Mem.read (Mem.write m k v) k = some v := by
  induction m with
  | nil => simp [Mem.write, Mem.read]
  | cons c m ih =>
    obtain ⟨a, w⟩ := c
    unfold Mem.write
    split
    · simp [Mem.read]
    · split
      · simp [Mem.read]
      · rename_i h1 h2
        have : a ≠ k := by omega
        simp [Mem.read, this, ih]

theorem Mem.read_write_ne (m : Mem) {k j : Nat} (v : Byte) (h : j ≠ k) :
    Mem.read (Mem.write m k v) j = Mem.read m j := by
  induction m with
  | nil => simp [Mem.write, Mem.read, h.symm]
  | cons c m ih =>
    obtain ⟨a, w⟩ := c
    unfold Mem.write
    split
    · simp [Mem.read, h.symm]
    · split
      · rename_i h1 h2
        simp [Mem.read, h.symm, ← h2]
      · simp [Mem.read, ih]

theorem Mem.read_write (m : Mem) (k j : Nat) (v : Byte) :
    Mem.read (Mem.write m k v) j = if j = k then some v else Mem.read m j := by
  by_cases h : j = k
  · subst h; simp
  · simp [h, Mem.read_write_ne m v h]

theorem Mem.read_erase_ne (m : Mem) {k j : Nat} (h : j ≠ k) :
    Mem.read (Mem.erase m k) j = Mem.read m j := by
  induction m with
  | nil => rfl
  | cons c m ih =>
    obtain ⟨a, w⟩ := c
    unfold Mem.erase
    split
    · rename_i h1
      have : a ≠ j := by omega
      simp [Mem.read, this]
    · simp [Mem.read, ih]

/-- Nothing is listed below the bound a canonical memory starts from. -/
theorem Mem.read_of_lt {lo : Nat} {m : Mem} (h : Mem.canonFrom lo m) {k : Nat} (hk : k < lo) :
    Mem.read m k = none := by
  induction m generalizing lo with
  | nil => rfl
  | cons c m ih =>
    obtain ⟨a, w⟩ := c
    simp only [Mem.canonFrom, Bool.and_eq_true, decide_eq_true_eq] at h
    have : a ≠ k := by omega
    simp [Mem.read, this, ih h.2 (by omega)]

theorem Mem.canonFrom_mono {lo lo' : Nat} {m : Mem} (h : Mem.canonFrom lo m) (hl : lo' ≤ lo) :
    Mem.canonFrom lo' m := by
  cases m with
  | nil => rfl
  | cons c m =>
    obtain ⟨a, w⟩ := c
    simp only [Mem.canonFrom, Bool.and_eq_true, decide_eq_true_eq] at h ⊢
    exact ⟨by omega, h.2⟩

theorem Mem.canonFrom_write {lo : Nat} {m : Mem} (h : Mem.canonFrom lo m) {k : Nat} (hk : lo ≤ k)
    (v : Byte) : Mem.canonFrom lo (Mem.write m k v) := by
  induction m generalizing lo with
  | nil => simp [Mem.write, Mem.canonFrom, hk]
  | cons c m ih =>
    obtain ⟨a, w⟩ := c
    simp only [Mem.canonFrom, Bool.and_eq_true, decide_eq_true_eq] at h
    unfold Mem.write
    split
    · simp only [Mem.canonFrom, Bool.and_eq_true, decide_eq_true_eq]
      exact ⟨hk, by omega, h.2⟩
    · split
      · rename_i h1 h2
        subst h2
        simp only [Mem.canonFrom, Bool.and_eq_true, decide_eq_true_eq]
        exact ⟨hk, h.2⟩
      · simp only [Mem.canonFrom, Bool.and_eq_true, decide_eq_true_eq]
        exact ⟨h.1, ih h.2 (by omega)⟩

theorem Mem.canonFrom_erase {lo : Nat} {m : Mem} (h : Mem.canonFrom lo m) (k : Nat) :
    Mem.canonFrom lo (Mem.erase m k) := by
  induction m generalizing lo with
  | nil => rfl
  | cons c m ih =>
    obtain ⟨a, w⟩ := c
    simp only [Mem.canonFrom, Bool.and_eq_true, decide_eq_true_eq] at h
    unfold Mem.erase
    split
    · exact Mem.canonFrom_mono h.2 (by omega)
    · simp only [Mem.canonFrom, Bool.and_eq_true, decide_eq_true_eq]
      exact ⟨h.1, ih h.2⟩

theorem Mem.read_erase_same {lo : Nat} {m : Mem} (h : Mem.canonFrom lo m) (k : Nat) :
    Mem.read (Mem.erase m k) k = none := by
  induction m generalizing lo with
  | nil => rfl
  | cons c m ih =>
    obtain ⟨a, w⟩ := c
    simp only [Mem.canonFrom, Bool.and_eq_true, decide_eq_true_eq] at h
    unfold Mem.erase
    split
    · rename_i h1
      exact Mem.read_of_lt h.2 (by omega)
    · rename_i h1
      simp [Mem.read, h1, ih h.2]

/-- Writing keeps the canonical form. -/
theorem Mem.canon_write {m : Mem} (h : Mem.canon m) (k : Nat) (v : Byte) :
    Mem.canon (Mem.write m k v) :=
  Mem.canonFrom_write h (Nat.zero_le k) v

/-- Erasing keeps the canonical form. -/
theorem Mem.canon_erase {m : Mem} (h : Mem.canon m) (k : Nat) : Mem.canon (Mem.erase m k) :=
  Mem.canonFrom_erase h k

theorem Mem.mem_write {m : Mem} {k : Nat} {v : Byte} {c : Host.Cell} (h : c ∈ Mem.write m k v) :
    c = (k, v) ∨ c ∈ m := by
  induction m with
  | nil => simpa [Mem.write] using h
  | cons d m ih =>
    obtain ⟨a, w⟩ := d
    unfold Mem.write at h
    split at h
    · simpa using h
    · split at h
      · rcases List.mem_cons.1 h with h | h
        · exact .inl h
        · exact .inr (List.mem_cons_of_mem _ h)
      · rcases List.mem_cons.1 h with h | h
        · exact .inr (h ▸ List.mem_cons_self)
        · exact (ih h).imp_right (List.mem_cons_of_mem _)

theorem Mem.mem_erase {m : Mem} {k : Nat} {c : Host.Cell} (h : c ∈ Mem.erase m k) : c ∈ m := by
  induction m with
  | nil => simp [Mem.erase] at h
  | cons d m ih =>
    obtain ⟨a, w⟩ := d
    unfold Mem.erase at h
    split at h
    · exact List.mem_cons_of_mem _ h
    · rcases List.mem_cons.1 h with h | h
      · exact h ▸ List.mem_cons_self
      · exact List.mem_cons_of_mem _ (ih h)

theorem Mem.below_write {n : Nat} {m : Mem} (h : Mem.below n m) {k : Nat} (hk : k < n) (v : Byte) :
    Mem.below n (Mem.write m k v) := by
  simp only [Mem.below, List.all_eq_true, decide_eq_true_eq] at h ⊢
  intro c hc
  rcases Mem.mem_write hc with rfl | hc
  · exact hk
  · exact h c hc

theorem Mem.below_erase {n : Nat} {m : Mem} (h : Mem.below n m) (k : Nat) :
    Mem.below n (Mem.erase m k) := by
  simp only [Mem.below, List.all_eq_true, decide_eq_true_eq] at h ⊢
  exact fun c hc => h c (Mem.mem_erase hc)

/-- Every HOST write keeps HOST memory's canonical form. -/
theorem Mem.wf_hostWrite {m : Mem} (h : Mem.wf m) (a : Word) (v : Byte) :
    Mem.wf (hostWrite m a v) := by
  simp only [Mem.wf, Bool.and_eq_true, List.all_eq_true, bne_iff_ne] at h ⊢
  obtain ⟨⟨h1, h2⟩, h3⟩ := h
  unfold hostWrite
  split
  · exact ⟨⟨Mem.canon_erase h1 _, Mem.below_erase h2 _⟩, fun c hc => h3 c (Mem.mem_erase hc)⟩
  · rename_i hv
    refine ⟨⟨Mem.canon_write h1 _ _, Mem.below_write h2 a.isLt _⟩, fun c hc => ?_⟩
    rcases Mem.mem_write hc with rfl | hc
    · exact hv
    · exact h3 c hc

/-- A HOST byte just written reads back. -/
theorem hostRead_hostWrite_same {m : Mem} (h : Mem.wf m) (a : Word) (v : Byte) :
    hostRead (hostWrite m a v) a = v := by
  simp only [Mem.wf, Bool.and_eq_true] at h
  unfold hostWrite hostRead
  split
  · rename_i hv
    rw [Mem.read_erase_same h.1.1]
    exact hv.symm
  · simp

/-- A HOST write leaves every other byte alone. -/
theorem hostRead_hostWrite_ne (m : Mem) {a b : Word} (v : Byte) (h : b ≠ a) :
    hostRead (hostWrite m a v) b = hostRead m b := by
  have h' : b.toNat ≠ a.toNat := fun e => h (BitVec.eq_of_toNat_eq e)
  unfold hostWrite hostRead
  split
  · rw [Mem.read_erase_ne m h']
  · rw [Mem.read_write_ne m v h']

/-- A run of writes: the bytes written, and every other byte as before. -/
theorem Mem.read_writeAll (m : Mem) (k : Nat) (vs : List Byte) (j : Nat) :
    Mem.read (Mem.writeAll m k vs) j
      = if k ≤ j ∧ j < k + vs.length then vs[j - k]? else Mem.read m j := by
  induction vs generalizing m k with
  | nil =>
    have h : ¬ (k ≤ j ∧ j < k + ([] : List Byte).length) := by simp
    simp only [Mem.writeAll, if_neg h]
  | cons v vs ih =>
    simp only [Mem.writeAll, ih, Mem.read_write, List.length_cons]
    by_cases h1 : j = k
    · subst h1; simp
    · by_cases h2 : k + 1 ≤ j ∧ j < k + 1 + vs.length
      · have h3 : k ≤ j ∧ j < k + (vs.length + 1) := by omega
        have h4 : j - k = (j - (k + 1)) + 1 := by omega
        rw [if_pos h2, if_pos h3, h4, List.getElem?_cons_succ]
      · have h3 : ¬ (k ≤ j ∧ j < k + (vs.length + 1)) := by omega
        rw [if_neg h2, if_neg h3, if_neg h1]

theorem Mem.canon_writeAll {m : Mem} (h : Mem.canon m) (k : Nat) (vs : List Byte) :
    Mem.canon (Mem.writeAll m k vs) := by
  induction vs generalizing m k with
  | nil => exact h
  | cons v vs ih => exact ih (Mem.canon_write h k v) (k + 1)

theorem Mem.below_writeAll {n : Nat} {m : Mem} (h : Mem.below n m) {k : Nat} (vs : List Byte)
    (hk : k + vs.length ≤ n) : Mem.below n (Mem.writeAll m k vs) := by
  induction vs generalizing m k with
  | nil => exact h
  | cons v vs ih =>
    simp only [List.length_cons] at hk
    exact ih (Mem.below_write h (by omega) v) (by omega)

/-- What a run of reads gives: each byte in order. -/
theorem Mem.readAll_eq_some {m : Mem} {k n : Nat} {vs : List Byte} (h : Mem.readAll m k n = some vs) :
    vs.length = n ∧ ∀ i, i < n → Mem.read m (k + i) = vs[i]? := by
  induction n generalizing k vs with
  | zero => simp only [Mem.readAll, Option.some.injEq] at h; subst h; simp
  | succ n ih =>
    unfold Mem.readAll at h
    split at h
    · cases h
    · rename_i v hv
      split at h
      · cases h
      · rename_i ws hws
        cases h
        obtain ⟨h1, h2⟩ := ih hws
        refine ⟨by simp [h1], fun i hi => ?_⟩
        cases i with
        | zero => simpa using hv
        | succ i =>
          have := h2 i (by omega)
          rw [List.getElem?_cons_succ, ← this]
          congr 1; omega

/-- A run of reads succeeds when every byte is written. -/
theorem Mem.readAll_isSome {m : Mem} {k n : Nat} (h : ∀ i, i < n → (Mem.read m (k + i)).isSome) :
    ∃ vs, Mem.readAll m k n = some vs := by
  induction n generalizing k with
  | zero => exact ⟨[], rfl⟩
  | succ n ih =>
    obtain ⟨v, hv⟩ := Option.isSome_iff_exists.1 (h 0 (by omega))
    obtain ⟨vs, hvs⟩ := ih (k := k + 1) fun i hi => by
      have := h (i + 1) (by omega)
      rwa [show k + (i + 1) = k + 1 + i by omega] at this
    exact ⟨v :: vs, by simp [Mem.readAll, show Mem.read m k = some v from hv, hvs]⟩

end Sys2Proof.Machine
end

