-- ==== Sys2Proof/Laws/Queue.lean ====
section
/-!
SUPPORT. What each queue primitive does, to the bytes held and to the queue invariant
(40_queue_commands.md R110 to R117).
-/

namespace Sys2Proof.Machine

/-! ### Push -/

/-- Push answers whether there was room. -/
@[simp] theorem Queue.push_fst (q : Queue) (v : Byte) : (q.push v).1 = !q.full := by
  unfold Queue.push Queue.full
  split <;> simp_all

theorem Queue.push_full {q : Queue} (h : q.size = q.cap) (v : Byte) :
    q.push v = (false, { q with fail := true }) := by
  simp [Queue.push, h]

theorem Queue.push_room {q : Queue} (h : q.size ≠ q.cap) (v : Byte) :
    q.push v =
      (true, { q with mem := Mem.write q.mem ((q.rd + q.size) % q.cap) v, size := q.size + 1 }) := by
  simp [Queue.push, h]

@[simp] theorem Queue.push_cap (q : Queue) (v : Byte) : (q.push v).2.cap = q.cap := by
  unfold Queue.push; split <;> rfl

@[simp] theorem Queue.push_rd (q : Queue) (v : Byte) : (q.push v).2.rd = q.rd := by
  unfold Queue.push; split <;> rfl

theorem Queue.push_size (q : Queue) (v : Byte) :
    (q.push v).2.size = if q.size = q.cap then q.size else q.size + 1 := by
  unfold Queue.push; split <;> rfl

/-- Slots of a circular buffer differ while their distance is below the capacity. -/
theorem slot_ne {rd cap i j : Nat} (hi : i < j) (hj : j < i + cap) :
    (rd + i) % cap ≠ (rd + j) % cap := by
  intro h
  have h1 : (rd + i) ≡ (rd + j) [MOD cap] := h
  have h2 : cap ∣ (rd + j) - (rd + i) := (Nat.modEq_iff_dvd' (by omega)).1 h1
  have h3 : (rd + j) - (rd + i) = j - i := by omega
  rw [h3] at h2
  exact absurd (Nat.le_of_dvd (by omega) h2) (by omega)

/-- Push appends the byte to the bytes held (R112). -/
theorem Queue.contents_push {q : Queue} (h : q.size < q.cap) (v : Byte) :
    (q.push v).2.contents = q.contents ++ [some v] := by
  rw [Queue.push_room (by omega)]
  simp only [Queue.contents, List.range_succ, List.map_append, List.map_cons, List.map_nil,
    Mem.read_write_same]
  congr 1
  refine List.map_congr_left fun i hi => ?_
  have hi' := List.mem_range.1 hi
  exact Mem.read_write_ne _ _ (slot_ne hi' (by omega))

/-- Writing a byte does not make another unwritten. -/
theorem Mem.isSome_write {m : Mem} {j : Nat} (h : (Mem.read m j).isSome) (k : Nat) (v : Byte) :
    (Mem.read (Mem.write m k v) j).isSome := by
  rw [Mem.read_write]; split <;> simp_all

/-- Push keeps the queue invariant. -/
theorem Queue.Inv.push {c : EpCfg} {q : Queue} (h : Queue.Inv c q) (v : Byte) :
    Queue.Inv c (q.push v).2 := by
  have hs := h.size_le
  by_cases hf : q.size = q.cap
  · rw [Queue.push_full hf]; exact { h with }
  · rw [Queue.push_room hf]
    have hlt : (q.rd + q.size) % q.cap < c.qmax :=
      Nat.lt_of_lt_of_le (Nat.mod_lt _ h.cap_pos) h.cap_le
    exact
      { cap_pos := h.cap_pos
        cap_le := h.cap_le
        size_le := by simp only; omega
        rd_lt := h.rd_lt
        held := fun i hi => by
          simp only at hi ⊢
          by_cases hiq : i = q.size
          · subst hiq; simp
          · exact Mem.isSome_write (h.held i (by omega)) _ _
        canon := Mem.canon_write h.canon _ _
        below := Mem.below_write h.below hlt _ }

/-! ### Pop -/

theorem Queue.pop_empty {q : Queue} (h : q.size = 0) : q.pop = some (0, { q with fail := true }) := by
  simp [Queue.pop, h]

theorem Queue.pop_some {q : Queue} (h : q.size ≠ 0) {v : Byte} (hv : Mem.read q.mem q.rd = some v) :
    q.pop = some (v, { q with rd := (q.rd + 1) % q.cap, size := q.size - 1 }) := by
  simp [Queue.pop, h, hv]

/-- What pop can answer. -/
theorem Queue.pop_cases {q q' : Queue} {v : Byte} (h : q.pop = some (v, q')) :
    (q.size = 0 ∧ v = 0 ∧ q' = { q with fail := true }) ∨
    (q.size ≠ 0 ∧ Mem.read q.mem q.rd = some v ∧
      q' = { q with rd := (q.rd + 1) % q.cap, size := q.size - 1 }) := by
  unfold Queue.pop at h
  split at h
  · rename_i h0; cases h; exact .inl ⟨h0, rfl, rfl⟩
  · rename_i h0
    split at h
    · cases h
    · rename_i w hw; cases h; exact .inr ⟨h0, hw, rfl⟩

/-- The slot at the read cursor is written when a byte is held. -/
theorem Queue.Inv.front {c : EpCfg} {q : Queue} (h : Queue.Inv c q) (h0 : q.size ≠ 0) :
    ∃ v, Mem.read q.mem q.rd = some v := by
  have := h.held 0 (by omega)
  rw [Nat.add_zero, Nat.mod_eq_of_lt h.rd_lt] at this
  exact Option.isSome_iff_exists.1 this

/-- Pop never reads an unwritten byte of a good queue. -/
theorem Queue.Inv.pop_isSome {c : EpCfg} {q : Queue} (h : Queue.Inv c q) :
    ∃ v q', q.pop = some (v, q') := by
  by_cases h0 : q.size = 0
  · exact ⟨_, _, Queue.pop_empty h0⟩
  · obtain ⟨v, hv⟩ := h.front h0
    exact ⟨_, _, Queue.pop_some h0 hv⟩

/-- Pop keeps the queue invariant. -/
theorem Queue.Inv.pop {c : EpCfg} {q q' : Queue} {v : Byte} (h : Queue.Inv c q)
    (hp : q.pop = some (v, q')) : Queue.Inv c q' := by
  rcases Queue.pop_cases hp with ⟨_, _, rfl⟩ | ⟨h0, _, rfl⟩
  · exact { h with }
  · have hs := h.size_le
    exact
      { cap_pos := h.cap_pos
        cap_le := h.cap_le
        size_le := by simp only; omega
        rd_lt := Nat.mod_lt _ h.cap_pos
        held := fun i hi => by
          simp only at hi ⊢
          have := h.held (i + 1) (by omega)
          rwa [Nat.mod_add_mod, show q.rd + 1 + i = q.rd + (i + 1) by omega]
        canon := h.canon
        below := h.below }

/-- Pop takes the first of the bytes held (R113). -/
theorem Queue.contents_pop {q q' : Queue} {v : Byte} (hr : q.rd < q.cap) (h0 : q.size ≠ 0)
    (hp : q.pop = some (v, q')) : q.contents = some v :: q'.contents := by
  rcases Queue.pop_cases hp with ⟨h, _⟩ | ⟨_, hv, rfl⟩
  · exact absurd h h0
  · obtain ⟨n, hn⟩ := Nat.exists_eq_succ_of_ne_zero h0
    simp only [Queue.contents, hn, Nat.succ_sub_one, List.range_succ_eq_map, List.map_cons,
      Nat.add_zero, Nat.mod_eq_of_lt hr, hv, List.map_map]
    congr 1
    refine List.map_congr_left fun i _ => ?_
    simp only [Function.comp, Nat.mod_add_mod]
    congr 2; omega

/-! ### Peek, reset, init -/

/-- What peek can answer. -/
theorem Queue.peek_cases {q q' : Queue} {v : Byte} (h : q.peek = some (v, q')) :
    (q.size = 0 ∧ v = 0 ∧ q' = { q with fail := true }) ∨
    (q.size ≠ 0 ∧ Mem.read q.mem q.rd = some v ∧ q' = q) := by
  unfold Queue.peek at h
  split at h
  · rename_i h0; cases h; exact .inl ⟨h0, rfl, rfl⟩
  · rename_i h0
    split at h
    · cases h
    · rename_i w hw; cases h; exact .inr ⟨h0, hw, rfl⟩

theorem Queue.Inv.peek_isSome {c : EpCfg} {q : Queue} (h : Queue.Inv c q) :
    ∃ v q', q.peek = some (v, q') := by
  by_cases h0 : q.size = 0
  · exact ⟨0, { q with fail := true }, by simp [Queue.peek, h0]⟩
  · obtain ⟨v, hv⟩ := h.front h0
    exact ⟨v, q, by simp [Queue.peek, h0, hv]⟩

theorem Queue.Inv.peek {c : EpCfg} {q q' : Queue} {v : Byte} (h : Queue.Inv c q)
    (hp : q.peek = some (v, q')) : Queue.Inv c q' := by
  rcases Queue.peek_cases hp with ⟨_, _, rfl⟩ | ⟨_, _, rfl⟩
  · exact { h with }
  · exact h

@[simp] theorem Queue.reset_cap (q : Queue) : q.reset.cap = q.cap := rfl
@[simp] theorem Queue.reset_rd (q : Queue) : q.reset.rd = 0 := rfl
@[simp] theorem Queue.reset_size (q : Queue) : q.reset.size = 0 := rfl
@[simp] theorem Queue.reset_fail (q : Queue) : q.reset.fail = q.fail := rfl
@[simp] theorem Queue.reset_mem (q : Queue) : q.reset.mem = q.mem := rfl

theorem Queue.Inv.reset {c : EpCfg} {q : Queue} (h : Queue.Inv c q) : Queue.Inv c q.reset :=
  { h with
    size_le := Nat.zero_le _
    rd_lt := h.cap_pos
    held := fun i hi => absurd hi (Nat.not_lt_zero i) }

theorem Queue.Inv.init {c : EpCfg} {q : Queue} (h : Queue.Inv c q) {cap : Nat} (h1 : 1 ≤ cap)
    (h2 : cap ≤ c.qmax) : Queue.Inv c (q.init cap) :=
  { cap_pos := h1
    cap_le := h2
    size_le := Nat.zero_le _
    rd_lt := h1
    held := fun i hi => absurd hi (Nat.not_lt_zero i)
    canon := h.canon
    below := h.below }

/-! ### Pushing a list -/

@[simp] theorem Queue.pushAll_cap (q : Queue) (vs : List Byte) : (q.pushAll vs).cap = q.cap := by
  induction vs generalizing q with
  | nil => rfl
  | cons v vs ih => simp [Queue.pushAll, ih]

@[simp] theorem Queue.pushAll_rd (q : Queue) (vs : List Byte) : (q.pushAll vs).rd = q.rd := by
  induction vs generalizing q with
  | nil => rfl
  | cons v vs ih => simp [Queue.pushAll, ih]

theorem Queue.pushAll_size {q : Queue} {vs : List Byte} (h : q.size + vs.length ≤ q.cap) :
    (q.pushAll vs).size = q.size + vs.length := by
  induction vs generalizing q with
  | nil => rfl
  | cons v vs ih =>
    simp only [List.length_cons] at h ⊢
    have hsz : (q.push v).2.size = q.size + 1 := by rw [Queue.push_size, if_neg (by omega)]
    rw [Queue.pushAll, ih (by rw [hsz, Queue.push_cap]; omega), hsz]; omega

theorem Queue.Inv.pushAll {c : EpCfg} {q : Queue} (h : Queue.Inv c q) (vs : List Byte) :
    Queue.Inv c (q.pushAll vs) := by
  induction vs generalizing q with
  | nil => exact h
  | cons v vs ih => exact ih (h.push v)

/-- Bytes that fit are appended in order (R117). -/
theorem Queue.contents_pushAll {q : Queue} {vs : List Byte} (h : q.size + vs.length ≤ q.cap) :
    (q.pushAll vs).contents = q.contents ++ vs.map some := by
  induction vs generalizing q with
  | nil => simp [Queue.pushAll]
  | cons v vs ih =>
    simp only [List.length_cons] at h
    have hsz : (q.push v).2.size = q.size + 1 := by rw [Queue.push_size, if_neg (by omega)]
    rw [Queue.pushAll, ih (by rw [hsz, Queue.push_cap]; omega), Queue.contents_push (by omega)]
    simp

/-- A byte of storage stays written through a push. -/
theorem Queue.isSome_push {q : Queue} {j : Nat} (h : (Mem.read q.mem j).isSome) (v : Byte) :
    (Mem.read (q.push v).2.mem j).isSome := by
  unfold Queue.push
  split
  · exact h
  · exact Mem.isSome_write h _ _

theorem Queue.isSome_pushAll {q : Queue} {j : Nat} (h : (Mem.read q.mem j).isSome) (vs : List Byte) :
    (Mem.read (q.pushAll vs).mem j).isSome := by
  induction vs generalizing q with
  | nil => exact h
  | cons v vs ih => exact ih (Queue.isSome_push h v)

/-- Pop and peek leave the storage alone. -/
theorem Queue.pop_mem {q q' : Queue} {v : Byte} (h : q.pop = some (v, q')) : q'.mem = q.mem := by
  rcases Queue.pop_cases h with ⟨_, _, rfl⟩ | ⟨_, _, rfl⟩ <;> rfl

theorem Queue.peek_mem {q q' : Queue} {v : Byte} (h : q.peek = some (v, q')) : q'.mem = q.mem := by
  rcases Queue.peek_cases h with ⟨_, _, rfl⟩ | ⟨_, _, rfl⟩ <;> rfl

/-- After a reset the pushed bytes land at index 0 upward (R111, 42_engine_service.md R189). -/
theorem Queue.pushAll_linear {q : Queue} {vs : List Byte} (hr : q.rd = 0)
    (h : q.size + vs.length ≤ q.cap) :
    (q.pushAll vs).mem = Mem.writeAll q.mem q.size vs := by
  induction vs generalizing q with
  | nil => rfl
  | cons v vs ih =>
    simp only [List.length_cons] at h
    have hsz : (q.push v).2.size = q.size + 1 := by rw [Queue.push_size, if_neg (by omega)]
    rw [Queue.pushAll, ih (by simp [hr]) (by rw [hsz, Queue.push_cap]; omega), hsz,
      Queue.push_room (by omega)]
    simp [Mem.writeAll, hr, Nat.mod_eq_of_lt (show q.size < q.cap by omega)]

end Sys2Proof.Machine
end

