-- ==== Sys2Proof/Laws/State.lean ====
section
/-!
SUPPORT. One lemma per field per update, so that no later proof unfolds a record update; and the laws
of looking up and changing an endpoint.
-/

namespace Sys2Proof.Machine

/-! ### Changing an endpoint -/

@[simp] theorem State.setEp_cfg (s : State) (e : Nat) (p : Ep) : (s.setEp e p).cfg = s.cfg := rfl
@[simp] theorem State.setEp_cmd (s : State) (e : Nat) (p : Ep) : (s.setEp e p).cmd = s.cmd := rfl
@[simp] theorem State.setEp_argA (s : State) (e : Nat) (p : Ep) : (s.setEp e p).argA = s.argA := rfl
@[simp] theorem State.setEp_argB (s : State) (e : Nat) (p : Ep) : (s.setEp e p).argB = s.argB := rfl
@[simp] theorem State.setEp_argC (s : State) (e : Nat) (p : Ep) : (s.setEp e p).argC = s.argC := rfl
@[simp] theorem State.setEp_result (s : State) (e : Nat) (p : Ep) :
    (s.setEp e p).result = s.result := rfl
@[simp] theorem State.setEp_status (s : State) (e : Nat) (p : Ep) :
    (s.setEp e p).status = s.status := rfl
@[simp] theorem State.setEp_faddr (s : State) (e : Nat) (p : Ep) : (s.setEp e p).faddr = s.faddr := rfl
@[simp] theorem State.setEp_ctlState (s : State) (e : Nat) (p : Ep) :
    (s.setEp e p).ctlState = s.ctlState := rfl
@[simp] theorem State.setEp_ctlAddr (s : State) (e : Nat) (p : Ep) :
    (s.setEp e p).ctlAddr = s.ctlAddr := rfl
@[simp] theorem State.setEp_tokenLatch (s : State) (e : Nat) (p : Ep) :
    (s.setEp e p).tokenLatch = s.tokenLatch := rfl
@[simp] theorem State.setEp_tokenPending (s : State) (e : Nat) (p : Ep) :
    (s.setEp e p).tokenPending = s.tokenPending := rfl
@[simp] theorem State.setEp_eps (s : State) (e : Nat) (p : Ep) :
    (s.setEp e p).eps = s.eps.set e p := rfl
@[simp] theorem State.setEp_faultMmio (s : State) (e : Nat) (p : Ep) :
    (s.setEp e p).faultMmio = s.faultMmio := rfl
@[simp] theorem State.setEp_faultHost (s : State) (e : Nat) (p : Ep) :
    (s.setEp e p).faultHost = s.faultHost := rfl
@[simp] theorem State.setEp_faultUnwritten (s : State) (e : Nat) (p : Ep) :
    (s.setEp e p).faultUnwritten = s.faultUnwritten := rfl
@[simp] theorem State.setEp_history (s : State) (e : Nat) (p : Ep) :
    (s.setEp e p).history = s.history := rfl
@[simp] theorem State.setEp_hostMem (s : State) (e : Nat) (p : Ep) :
    (s.setEp e p).hostMem = s.hostMem := rfl
@[simp] theorem State.setEp_rdata (s : State) (e : Nat) (p : Ep) : (s.setEp e p).rdata = s.rdata := rfl
@[simp] theorem State.setEp_inputs (s : State) (e : Nat) (p : Ep) :
    (s.setEp e p).inputs = s.inputs := rfl
@[simp] theorem State.setEp_draws (s : State) (e : Nat) (p : Ep) : (s.setEp e p).draws = s.draws := rfl

/-! ### The end of a command -/

@[simp] theorem State.finish_cfg (s : State) (k : BitVec 4) (r : Half) : (s.finish k r).cfg = s.cfg := rfl
@[simp] theorem State.finish_cmd (s : State) (k : BitVec 4) (r : Half) : (s.finish k r).cmd = s.cmd := rfl
@[simp] theorem State.finish_argA (s : State) (k : BitVec 4) (r : Half) :
    (s.finish k r).argA = s.argA := rfl
@[simp] theorem State.finish_argB (s : State) (k : BitVec 4) (r : Half) :
    (s.finish k r).argB = s.argB := rfl
@[simp] theorem State.finish_argC (s : State) (k : BitVec 4) (r : Half) :
    (s.finish k r).argC = s.argC := rfl
@[simp] theorem State.finish_result (s : State) (k : BitVec 4) (r : Half) :
    (s.finish k r).result = r := rfl
@[simp] theorem State.finish_status (s : State) (k : BitVec 4) (r : Half) :
    (s.finish k r).status = k := rfl
@[simp] theorem State.finish_faddr (s : State) (k : BitVec 4) (r : Half) :
    (s.finish k r).faddr = s.faddr := rfl
@[simp] theorem State.finish_ctlState (s : State) (k : BitVec 4) (r : Half) :
    (s.finish k r).ctlState = s.ctlState := rfl
@[simp] theorem State.finish_ctlAddr (s : State) (k : BitVec 4) (r : Half) :
    (s.finish k r).ctlAddr = s.ctlAddr := rfl
@[simp] theorem State.finish_tokenLatch (s : State) (k : BitVec 4) (r : Half) :
    (s.finish k r).tokenLatch = s.tokenLatch := rfl
@[simp] theorem State.finish_tokenPending (s : State) (k : BitVec 4) (r : Half) :
    (s.finish k r).tokenPending = s.tokenPending := rfl
@[simp] theorem State.finish_eps (s : State) (k : BitVec 4) (r : Half) : (s.finish k r).eps = s.eps := rfl
@[simp] theorem State.finish_faultMmio (s : State) (k : BitVec 4) (r : Half) :
    (s.finish k r).faultMmio = s.faultMmio := rfl
@[simp] theorem State.finish_faultHost (s : State) (k : BitVec 4) (r : Half) :
    (s.finish k r).faultHost = s.faultHost := rfl
@[simp] theorem State.finish_faultUnwritten (s : State) (k : BitVec 4) (r : Half) :
    (s.finish k r).faultUnwritten = s.faultUnwritten := rfl
@[simp] theorem State.finish_history (s : State) (k : BitVec 4) (r : Half) :
    (s.finish k r).history = s.history ++ [.cmd s.cmd k r] := rfl
@[simp] theorem State.finish_hostMem (s : State) (k : BitVec 4) (r : Half) :
    (s.finish k r).hostMem = s.hostMem := rfl
@[simp] theorem State.finish_rdata (s : State) (k : BitVec 4) (r : Half) :
    (s.finish k r).rdata = s.rdata := rfl
@[simp] theorem State.finish_inputs (s : State) (k : BitVec 4) (r : Half) :
    (s.finish k r).inputs = s.inputs := rfl
@[simp] theorem State.finish_draws (s : State) (k : BitVec 4) (r : Half) :
    (s.finish k r).draws = s.draws := rfl

@[simp] theorem State.complete_eq (s : State) (r : Half) : s.complete r = s.finish 0 r := rfl
@[simp] theorem State.cmdError_eq (s : State) (k : BitVec 4) : s.cmdError k = s.finish k 0 := rfl

/-! ### Recording a fault -/

@[simp] theorem State.recordFault_cfg (s : State) (k : FaultKind) : (s.recordFault k).cfg = s.cfg := by
  cases k <;> rfl
@[simp] theorem State.recordFault_cmd (s : State) (k : FaultKind) : (s.recordFault k).cmd = s.cmd := by
  cases k <;> rfl
@[simp] theorem State.recordFault_argA (s : State) (k : FaultKind) :
    (s.recordFault k).argA = s.argA := by cases k <;> rfl
@[simp] theorem State.recordFault_argB (s : State) (k : FaultKind) :
    (s.recordFault k).argB = s.argB := by cases k <;> rfl
@[simp] theorem State.recordFault_argC (s : State) (k : FaultKind) :
    (s.recordFault k).argC = s.argC := by cases k <;> rfl
@[simp] theorem State.recordFault_result (s : State) (k : FaultKind) :
    (s.recordFault k).result = s.result := by cases k <;> rfl
@[simp] theorem State.recordFault_status (s : State) (k : FaultKind) :
    (s.recordFault k).status = s.status := by cases k <;> rfl
@[simp] theorem State.recordFault_faddr (s : State) (k : FaultKind) :
    (s.recordFault k).faddr = s.faddr := by cases k <;> rfl
@[simp] theorem State.recordFault_ctlState (s : State) (k : FaultKind) :
    (s.recordFault k).ctlState = s.ctlState := by cases k <;> rfl
@[simp] theorem State.recordFault_ctlAddr (s : State) (k : FaultKind) :
    (s.recordFault k).ctlAddr = s.ctlAddr := by cases k <;> rfl
@[simp] theorem State.recordFault_tokenLatch (s : State) (k : FaultKind) :
    (s.recordFault k).tokenLatch = s.tokenLatch := by cases k <;> rfl
@[simp] theorem State.recordFault_tokenPending (s : State) (k : FaultKind) :
    (s.recordFault k).tokenPending = s.tokenPending := by cases k <;> rfl
@[simp] theorem State.recordFault_eps (s : State) (k : FaultKind) : (s.recordFault k).eps = s.eps := by
  cases k <;> rfl
@[simp] theorem State.recordFault_history (s : State) (k : FaultKind) :
    (s.recordFault k).history = s.history ++ [.fault k] := by cases k <;> rfl
@[simp] theorem State.recordFault_hostMem (s : State) (k : FaultKind) :
    (s.recordFault k).hostMem = s.hostMem := by cases k <;> rfl
@[simp] theorem State.recordFault_rdata (s : State) (k : FaultKind) :
    (s.recordFault k).rdata = s.rdata := by cases k <;> rfl
@[simp] theorem State.recordFault_inputs (s : State) (k : FaultKind) :
    (s.recordFault k).inputs = s.inputs := by cases k <;> rfl
@[simp] theorem State.recordFault_draws (s : State) (k : FaultKind) :
    (s.recordFault k).draws = s.draws := by cases k <;> rfl
@[simp] theorem State.recordFault_faultMmio (s : State) (k : FaultKind) :
    (s.recordFault k).faultMmio = (s.faultMmio || k = .mmioAccess) := by
  cases k <;> simp [State.recordFault]
@[simp] theorem State.recordFault_faultHost (s : State) (k : FaultKind) :
    (s.recordFault k).faultHost = (s.faultHost || k = .hostAccess) := by
  cases k <;> simp [State.recordFault]
@[simp] theorem State.recordFault_faultUnwritten (s : State) (k : FaultKind) :
    (s.recordFault k).faultUnwritten = (s.faultUnwritten || k = .unwrittenRead) := by
  cases k <;> simp [State.recordFault]

/-! ### Looking up an endpoint -/

/-- What a configured endpoint is (10_state.md R50). -/
theorem State.ep?_eq_some {s : State} {e : Nat} {c : EpCfg} {p : Ep} :
    s.ep? e = some (c, p) ↔ s.cfg.eps[e]? = some c ∧ s.eps[e]? = some p ∧ c.kind ≠ .unconf := by
  unfold State.ep?
  cases s.cfg.eps[e]? <;> cases s.eps[e]? <;> grind

/-- The lookup reads the parameters and the endpoints only. -/
theorem State.ep?_congr {s t : State} (hc : t.cfg = s.cfg) (he : t.eps = s.eps) (e : Nat) :
    t.ep? e = s.ep? e := by
  unfold State.ep?; rw [hc, he]

/-- The endpoint changed reads as changed. -/
theorem State.ep?_setEp_same {s : State} {e : Nat} {c : EpCfg} {p : Ep} (h : s.ep? e = some (c, p))
    (p' : Ep) : (s.setEp e p').ep? e = some (c, p') := by
  rw [State.ep?_eq_some] at h ⊢
  obtain ⟨h1, h2, h3⟩ := h
  have hl : e < s.eps.length := by
    rw [List.getElem?_eq_some_iff] at h2; exact h2.1
  exact ⟨h1, by simp [hl], h3⟩

/-- Every other endpoint reads as before. -/
theorem State.ep?_setEp_ne (s : State) {e j : Nat} (h : j ≠ e) (p' : Ep) :
    (s.setEp e p').ep? j = s.ep? j := by
  unfold State.ep?
  simp only [State.setEp_cfg, State.setEp_eps, List.getElem?_set_ne (Ne.symm h)]

/-- Looking up after a change: the changed endpoint or an old one. -/
theorem State.ep?_setEp_cases {s : State} {e : Nat} {c : EpCfg} {p : Ep} (h : s.ep? e = some (c, p))
    {p' : Ep} {j : Nat} {d : EpCfg} {r : Ep} (hj : (s.setEp e p').ep? j = some (d, r)) :
    (j = e ∧ d = c ∧ r = p') ∨ (j ≠ e ∧ s.ep? j = some (d, r)) := by
  by_cases hje : j = e
  · subst hje
    rw [State.ep?_setEp_same h] at hj
    cases hj
    exact .inl ⟨rfl, rfl, rfl⟩
  · exact .inr ⟨hje, by rwa [State.ep?_setEp_ne s hje] at hj⟩

end Sys2Proof.Machine
end

