-- ==== Sys2Proof/Laws/Endpoint.lean ====
section
/-!
SUPPORT. What each bank and endpoint primitive does, and that it keeps the endpoint invariant
(41_endpoint_commands.md R149 to R151, 42_engine_service.md R173 to R177, 43_bus_agent.md R213 to R217).
-/

namespace Sys2Proof.Machine

/-! ### Interrupt bits -/

/-- Reading a bit after `setBit`. -/
theorem getLsbD_setBit (v : Bits7) (k j : Nat) (b : Bool) :
    (setBit v k b).getLsbD j = if j = k then (b && decide (k < 7)) else v.getLsbD j := by
  have hv : 7 ≤ j → v.getLsbD j = false := fun h => BitVec.getLsbD_of_ge v j h
  by_cases hj : j < 7
  · have h1 : (1#7 <<< k).getLsbD j = decide (j = k) := by
      simp only [BitVec.getLsbD_shiftLeft, hj, decide_true, Bool.true_and, BitVec.getLsbD_one]
      rw [Bool.eq_iff_iff]; simp; omega
    unfold setBit
    cases b <;> simp only [Bool.false_eq_true, if_false, if_true, BitVec.getLsbD_or,
      BitVec.getLsbD_and, BitVec.getLsbD_not, h1, hj, decide_true, Bool.true_and, Bool.false_and]
    · by_cases e : j = k <;> simp [e]
    · by_cases e : j = k
      · subst e; simp [hj]
      · simp [e]
  · rw [BitVec.getLsbD_of_ge _ j (by omega), hv (by omega)]
    split
    · subst_vars; simp [hj]
    · rfl

/-! ### Banks -/

@[simp] theorem Ep.setBank_q (p : Ep) (b : Bool) (bk : Bank) : (p.setBank b bk).q = p.q := by
  cases b <;> rfl
@[simp] theorem Ep.setBank_flush (p : Ep) (b : Bool) (bk : Bank) :
    (p.setBank b bk).flush = p.flush := by cases b <;> rfl
@[simp] theorem Ep.setBank_dir (p : Ep) (b : Bool) (bk : Bank) : (p.setBank b bk).dir = p.dir := by
  cases b <;> rfl
@[simp] theorem Ep.setBank_dataReady (p : Ep) (b : Bool) (bk : Bank) :
    (p.setBank b bk).dataReady = p.dataReady := by cases b <;> rfl
@[simp] theorem Ep.setBank_stall (p : Ep) (b : Bool) (bk : Bank) :
    (p.setBank b bk).stall = p.stall := by cases b <;> rfl
@[simp] theorem Ep.setBank_cb (p : Ep) (b : Bool) (bk : Bank) : (p.setBank b bk).cb = p.cb := by
  cases b <;> rfl
@[simp] theorem Ep.setBank_cbctx (p : Ep) (b : Bool) (bk : Bank) :
    (p.setBank b bk).cbctx = p.cbctx := by cases b <;> rfl
@[simp] theorem Ep.setBank_ien (p : Ep) (b : Bool) (bk : Bank) : (p.setBank b bk).ien = p.ien := by
  cases b <;> rfl
@[simp] theorem Ep.setBank_ipend (p : Ep) (b : Bool) (bk : Bank) :
    (p.setBank b bk).ipend = p.ipend := by cases b <;> rfl
@[simp] theorem Ep.setBank_cur (p : Ep) (b : Bool) (bk : Bank) : (p.setBank b bk).cur = p.cur := by
  cases b <;> rfl
@[simp] theorem Ep.setBank_busPtr (p : Ep) (b : Bool) (bk : Bank) :
    (p.setBank b bk).busPtr = p.busPtr := by cases b <;> rfl
theorem Ep.setBank_bank0 (p : Ep) (b : Bool) (bk : Bank) :
    (p.setBank b bk).bank0 = if b then p.bank0 else bk := by cases b <;> rfl
theorem Ep.setBank_bank1 (p : Ep) (b : Bool) (bk : Bank) :
    (p.setBank b bk).bank1 = if b then bk else p.bank1 := by cases b <;> rfl
theorem Ep.bank_setBank (p : Ep) (b d : Bool) (bk : Bank) :
    (p.setBank b bk).bank d = if d = b then bk else p.bank d := by cases b <;> cases d <;> rfl

theorem Ep.Inv.bank {c : EpCfg} {p : Ep} (h : Ep.Inv c p) (b : Bool) : Bank.Inv c (p.bank b) := by
  cases b
  · exact h.bank0
  · exact h.bank1

/-- The parameters of a configured slot of a well-formed configuration (00_scope.md R8, R9). -/
structure SlotOk (c : EpCfg) : Prop where
  conf : c.kind ≠ .unconf
  banks : c.nbanks = 1 ∨ c.nbanks = 2
  control : c.kind = .control → c.nbanks = 1
  bsize : 8 ≤ c.bsize ∧ c.bsize ≤ 64
  qmax : 1 ≤ c.qmax ∧ c.qmax ≤ 65535

theorem SlotOk.of_slotOk {c : EpCfg} (h : slotOk c) (hk : c.kind ≠ .unconf) : SlotOk c := by
  unfold slotOk at h
  split at h
  · contradiction
  all_goals
    rename_i hk'
    simp only [Bool.and_eq_true, Bool.or_eq_true, decide_eq_true_eq] at h
    obtain ⟨⟨⟨h1, h2⟩, h3⟩, h4⟩ := h
    refine ⟨hk, ?_, ?_, ?_, ⟨h3, h4⟩⟩
    · rcases h1 with h1 | h1
      · exact .inl h1
      · exact .inr h1.1
    · intro hc
      rcases h1 with h1 | h1
      · exact h1
      · exact absurd hc h1.2
    · omega

/-- A good endpoint changed only in flags stays good. -/
theorem Ep.Inv.of_flags {c : EpCfg} {p r : Ep} (h : Ep.Inv c p) (hq : Queue.Inv c r.q)
    (h0 : r.bank0 = p.bank0) (h1 : r.bank1 = p.bank1) (hc : r.cur = p.cur) (hb : r.busPtr = p.busPtr)
    (hs : Ep.SetupHeld c r) : Ep.Inv c r where
  queue := hq
  bank0 := h0 ▸ h.bank0
  bank1 := h1 ▸ h.bank1
  pingPong := by
    have hbk : ∀ b, r.bank b = p.bank b := fun b => by cases b <;> simp [Ep.bank, h0, h1]
    have := h.pingPong
    constructor
    · intro hn; rw [hc, hb]; exact this.single hn
    · intro hn; rw [hc, hb, h0, h1]; exact this.same hn
    · intro hn hk; rw [hc, hb, hbk, hbk]; exact this.outOrder hn hk
    · intro hn hk; rw [hc, hb, hbk, hbk]; exact this.inOrder hn hk
  setupHeld := hs

/-- SETUP bookkeeping is kept while IPEND and bank 0 are. -/
theorem Ep.SetupHeld.of_same {c : EpCfg} {p r : Ep} (h : Ep.SetupHeld c p)
    (hi : r.ipend = p.ipend) (h0 : r.bank0 = p.bank0) : Ep.SetupHeld c r := by
  constructor <;> rw [hi] <;> try rw [h0]
  · exact h.controlOnly
  · exact h.bankHeld
  · exact h.noData

/-- A flag other than RXSTP, TXIN and RXOUT may be raised or cleared. -/
theorem Ep.SetupHeld.of_aux {c : EpCfg} {p r : Ep} (h : Ep.SetupHeld c p)
    (hi : ∀ j, j ≤ 2 → r.ipend.getLsbD j = p.ipend.getLsbD j) (h0 : r.bank0 = p.bank0) :
    Ep.SetupHeld c r := by
  have e0 := hi bitSetup (by decide)
  have e1 := hi bitIn (by decide)
  have e2 := hi bitOut (by decide)
  constructor <;> rw [e0]
  · exact h.controlOnly
  · rw [h0]; exact h.bankHeld
  · rw [e1, e2]; exact h.noData

/-- Without RXSTP there is nothing to keep. -/
theorem Ep.SetupHeld.of_clear {c : EpCfg} {r : Ep} (h : r.ipend.getLsbD bitSetup = false) :
    Ep.SetupHeld c r := by
  constructor <;> intro hs <;> rw [h] at hs <;> cases hs

/-! ### Commands' primitives -/

theorem Ep.Inv.withQueue {c : EpCfg} {p : Ep} (h : Ep.Inv c p) {q : Queue} (hq : Queue.Inv c q) :
    Ep.Inv c { p with q := q } :=
  h.of_flags hq rfl rfl rfl rfl (h.setupHeld.of_same rfl rfl)

theorem Ep.Inv.startIn {c : EpCfg} {p : Ep} (h : Ep.Inv c p) : Ep.Inv c p.startIn :=
  h.of_flags h.queue rfl rfl rfl rfl (h.setupHeld.of_same rfl rfl)

theorem Ep.Inv.doFlush {c : EpCfg} {p : Ep} (h : Ep.Inv c p) : Ep.Inv c p.doFlush :=
  h.of_flags h.queue rfl rfl rfl rfl (h.setupHeld.of_same rfl rfl)

theorem Ep.Inv.doStall {c : EpCfg} {p : Ep} (h : Ep.Inv c p) : Ep.Inv c p.doStall :=
  h.of_flags h.queue rfl rfl rfl rfl (h.setupHeld.of_same rfl rfl)

theorem Ep.Inv.enqueueTx {c : EpCfg} {p : Ep} (h : Ep.Inv c p) (src : List Byte) :
    Ep.Inv c (p.enqueueTx src) := by
  unfold Ep.enqueueTx
  simp only
  split
  · exact (h.withQueue (h.queue.pushAll _)).startIn
  · exact h.withQueue (h.queue.pushAll _)

/-- What enqueue_tx queues: the source bytes that fit, in order (R149). -/
theorem Ep.enqueueTx_contents {c : EpCfg} {p : Ep} (h : Queue.Inv c p.q) (src : List Byte) :
    (p.enqueueTx src).q.contents
      = p.q.contents ++ (src.take (p.q.cap - p.q.size)).map some := by
  have hs := h.size_le
  have hq : (p.enqueueTx src).q = p.q.pushAll (src.take (min src.length p.q.available)) := by
    unfold Ep.enqueueTx; simp only; split <;> rfl
  rw [hq, Queue.contents_pushAll]
  · congr 2
    unfold Queue.available
    rw [List.take_eq_take_iff]; omega
  · simp only [List.length_take, Queue.available]; omega

/-! ### Bank primitives -/

theorem Bank.Inv.emptied {c : EpCfg} {b : Bank} (hc : c.kind ≠ .unconf) (h : Bank.Inv c b) :
    Bank.Inv c (Bank.emptied c b) where
  cnt_le := Nat.zero_le _
  rdp_le := Nat.le_refl _
  rdp_zero := fun _ => rfl
  free_empty := fun _ => rfl
  allowed := by
    unfold Bank.emptied idleState
    cases hk : c.kind <;> simp_all [stateAllowed]
  written := fun i hi => absurd hi (Nat.not_lt_zero i)
  canon := h.canon
  below := h.below

/-- The bank primitives that rebuild both banks keep the endpoint invariant when the new banks are
good and the pointers agree with them. -/
theorem Ep.Inv.setBank {c : EpCfg} {p : Ep} (h : Ep.Inv c p) {b : Bool} {bk : Bank}
    (hbk : Bank.Inv c bk) (d : Bool) : Bank.Inv c ((p.setBank b bk).bank d) := by
  rw [Ep.bank_setBank]; split
  · exact hbk
  · exact h.bank d

/-- HELD and COMMITTED banks of a two-bank endpoint tell its type. -/
theorem Bank.Inv.kind_of_held {c : EpCfg} {b : Bank} (h : Bank.Inv c b) (hs : b.st = .held) :
    c.kind = .out ∨ c.kind = .control := by
  have := h.allowed; rw [hs] at this
  revert this; cases c.kind <;> simp [stateAllowed]

theorem Bank.Inv.kind_of_fill {c : EpCfg} {b : Bank} (h : Bank.Inv c b) (hs : b.st = .fill) :
    c.kind = .inn ∨ c.kind = .control := by
  have := h.allowed; rw [hs] at this
  revert this; cases c.kind <;> simp [stateAllowed]

theorem Bank.Inv.kind_of_committed {c : EpCfg} {b : Bank} (h : Bank.Inv c b) (hs : b.st = .committed) :
    c.kind = .inn ∨ c.kind = .control := by
  have := h.allowed; rw [hs] at this
  revert this; cases c.kind <;> simp [stateAllowed]

/-- release_out keeps the invariant (R173); RXSTP must not be pending, which holds whenever OUT is serviced. -/
theorem Ep.Inv.releaseOut {c : EpCfg} {p : Ep} (hok : SlotOk c) (h : Ep.Inv c p)
    (hh : (p.bank p.cur).st = .held) (hx : p.ipend.getLsbD bitSetup = false) :
    Ep.Inv c (p.releaseOut c) := by
  have hb := Bank.Inv.emptied hok.conf (h.bank p.cur)
  have hpp := h.pingPong
  have hq := h.queue
  have h0 := h.bank0
  have h1 := h.bank1
  have hkind := (h.bank p.cur).kind_of_held hh
  refine ⟨?_, ?_, ?_, ?_, ?_⟩
  · simpa [Ep.releaseOut] using hq
  · simp only [Ep.releaseOut, Ep.setBank_bank0]; split <;> assumption
  · simp only [Ep.releaseOut, Ep.setBank_bank1]; split <;> assumption
  · rcases hok.banks with hn | hn
    · obtain ⟨e1, e2⟩ := hpp.single hn
      constructor
      · intro _; simp [Ep.releaseOut, nextBank, hn, e1, e2]
      all_goals intro h2; omega
    · have hk : c.kind = .out := hkind.resolve_right fun hc => by
        have := hok.control hc; omega
      have hidle : idleState c = .freeRx := by simp [idleState, hk]
      have hs := hpp.same hn
      have ho := hpp.outOrder hn hk
      constructor
      · intro h2; omega
      all_goals intro _
      · simp only [Ep.releaseOut, Ep.setBank_bank0, Ep.setBank_bank1, Ep.setBank_busPtr, nextBank, hn,
          Bank.emptied, hidle]
        rcases hcur : p.cur with _ | _ <;> rcases hbus : p.busPtr with _ | _ <;> simp_all [Ep.bank]
      · simp only [Ep.releaseOut, Ep.setBank_busPtr, nextBank, hn,
          Bank.emptied, hidle]
        rcases hcur : p.cur with _ | _ <;> rcases hbus : p.busPtr with _ | _ <;> simp_all [Ep.bank, Ep.setBank]
      · intro hi; rw [hk] at hi; cases hi
  · exact Ep.SetupHeld.of_clear (by simpa [Ep.releaseOut] using hx)

@[simp] theorem Ep.releaseOut_q (c : EpCfg) (p : Ep) : (p.releaseOut c).q = p.q := by
  simp [Ep.releaseOut]
@[simp] theorem Ep.releaseOut_ipend (c : EpCfg) (p : Ep) : (p.releaseOut c).ipend = p.ipend := by
  simp [Ep.releaseOut]
@[simp] theorem Ep.releaseOut_ien (c : EpCfg) (p : Ep) : (p.releaseOut c).ien = p.ien := by
  simp [Ep.releaseOut]

/-- clear_out_ack keeps the invariant (R174). -/
theorem Ep.Inv.clearOutAck {c : EpCfg} {p : Ep} (hok : SlotOk c) (h : Ep.Inv c p)
    (hx : p.ipend.getLsbD bitSetup = false) : Ep.Inv c (p.clearOutAck c) := by
  have key : ∀ r : Ep, Ep.Inv c r → r.ipend.getLsbD bitSetup = false →
      Ep.Inv c { r with ipend := setBit r.ipend bitOut r.curHeld } := fun r hr hrx =>
    hr.of_flags hr.queue rfl rfl rfl rfl
      (Ep.SetupHeld.of_clear (by rw [getLsbD_setBit]; simpa using hrx))
  unfold Ep.clearOutAck
  simp only
  split
  · rename_i hc
    exact key _ (h.releaseOut hok hc.1 hx) (by simpa using hx)
  · exact key _ h hx

theorem Bank.Inv.committed {c : EpCfg} {b : Bank} (h : Bank.Inv c b) (hs : b.st = .fill) :
    Bank.Inv c { b with st := .committed } where
  cnt_le := h.cnt_le
  rdp_le := h.rdp_le
  rdp_zero := fun _ => h.rdp_zero (by rw [hs]; decide)
  free_empty := fun hf => by cases hf
  allowed := by rcases h.kind_of_fill hs with hk | hk <;> simp [hk, stateAllowed]
  written := h.written
  canon := h.canon
  below := h.below

/-- commit keeps the invariant (R175). -/
theorem Ep.Inv.commit {c : EpCfg} {p : Ep} (hok : SlotOk c) (h : Ep.Inv c p)
    (hh : (p.bank p.cur).st = .fill) : Ep.Inv c (p.commit c) := by
  have hb := (h.bank p.cur).committed hh
  have hpp := h.pingPong
  have h0 := h.bank0
  have h1 := h.bank1
  have hkind := (h.bank p.cur).kind_of_fill hh
  refine ⟨?_, ?_, ?_, ?_, ?_⟩
  · simpa [Ep.commit] using h.queue
  · simp only [Ep.commit, Ep.setBank_bank0]; split <;> assumption
  · simp only [Ep.commit, Ep.setBank_bank1]; split <;> assumption
  · rcases hok.banks with hn | hn
    · obtain ⟨e1, e2⟩ := hpp.single hn
      constructor
      · intro _; simp [Ep.commit, nextBank, hn, e1, e2]
      all_goals intro h2; omega
    · have hk : c.kind = .inn := hkind.resolve_right fun hc => by
        have := hok.control hc; omega
      have hs := hpp.same hn
      have ho := hpp.inOrder hn hk
      constructor
      · intro h2; omega
      all_goals intro _
      · simp only [Ep.commit, Ep.setBank_bank0, Ep.setBank_bank1, Ep.setBank_busPtr, nextBank, hn]
        rcases hcur : p.cur with _ | _ <;> rcases hbus : p.busPtr with _ | _ <;> simp_all [Ep.bank]
      · intro hi; rw [hk] at hi; cases hi
      · simp only [Ep.commit, Ep.setBank_busPtr, nextBank, hn]
        rcases hcur : p.cur with _ | _ <;> rcases hbus : p.busPtr with _ | _ <;> simp_all [Ep.bank, Ep.setBank]
  · constructor
    · simpa [Ep.commit] using h.setupHeld.controlOnly
    · intro hx
      have hx' : p.ipend.getLsbD bitSetup := by simpa [Ep.commit] using hx
      have hk := h.setupHeld.controlOnly hx'
      have hb0 := h.setupHeld.bankHeld hx'
      have hcur := (hpp.single (hok.control hk)).1
      rw [hcur] at hh
      simp only [Ep.bank, Bool.false_eq_true, if_false] at hh
      rw [hb0.1] at hh; cases hh
    · simpa [Ep.commit] using h.setupHeld.noData

@[simp] theorem Ep.commit_q (c : EpCfg) (p : Ep) : (p.commit c).q = p.q := by simp [Ep.commit]
@[simp] theorem Ep.commit_ipend (c : EpCfg) (p : Ep) : (p.commit c).ipend = p.ipend := by
  simp [Ep.commit]
@[simp] theorem Ep.commit_ien (c : EpCfg) (p : Ep) : (p.commit c).ien = p.ien := by
  simp [Ep.commit]

/-- clear_tx_ack keeps the invariant (R176). -/
theorem Ep.Inv.clearTxAck {c : EpCfg} {p : Ep} (hok : SlotOk c) (h : Ep.Inv c p) :
    Ep.Inv c (p.clearTxAck c) := by
  have key : ∀ r : Ep, Ep.Inv c r →
      Ep.Inv c { r with
        ipend := setBit r.ipend bitIn (decide (c.kind = .inn ∧ (r.bank r.cur).st = .fill)) } := by
    intro r hr
    refine hr.of_flags hr.queue rfl rfl rfl rfl ?_
    constructor
    · intro hx; rw [getLsbD_setBit] at hx
      exact hr.setupHeld.controlOnly (by simpa using hx)
    · intro hx; rw [getLsbD_setBit] at hx
      exact hr.setupHeld.bankHeld (by simpa using hx)
    · intro hx
      rw [getLsbD_setBit] at hx
      have hx' : r.ipend.getLsbD bitSetup := by simpa using hx
      have hk := hr.setupHeld.controlOnly hx'
      have hd := hr.setupHeld.noData hx'
      simp only [getLsbD_setBit, hk]
      simp [hd.2]
  unfold Ep.clearTxAck
  simp only
  split
  · rename_i hc; exact key _ (h.commit hok hc)
  · exact key _ h

/-- clear_setup_ack keeps the invariant on a control endpoint (R177). -/
theorem Ep.Inv.clearSetupAck {c : EpCfg} {p : Ep} (hok : SlotOk c) (hk : c.kind = .control)
    (h : Ep.Inv c p) : Ep.Inv c p.clearSetupAck where
  queue := h.queue
  bank0 :=
    { cnt_le := Nat.zero_le _
      rdp_le := Nat.le_refl _
      rdp_zero := fun _ => rfl
      free_empty := fun _ => rfl
      allowed := by simp [Ep.clearSetupAck, hk, stateAllowed]
      written := fun i hi => absurd hi (Nat.not_lt_zero i)
      canon := h.bank0.canon
      below := h.bank0.below }
  bank1 := h.bank1
  pingPong := by
    have hn := hok.control hk
    constructor
    · exact h.pingPong.single
    all_goals intro h2; omega
  setupHeld := Ep.SetupHeld.of_clear (by
    show (setBit (setBit p.ipend bitSetup false) bitIn true).getLsbD bitSetup = false
    rw [getLsbD_setBit, if_neg (by decide), getLsbD_setBit, if_pos rfl, Bool.false_and])

end Sys2Proof.Machine
end

