-- ==== Sys2Proof/Laws/Service.lean ====
section
/-!
SUPPORT. What the fill, the drain, SETUP handling, the IN-abort and a whole service step do
(42_engine_service.md R170 to R200): their while-loop equations, the endpoint invariant kept, no
unwritten byte read, and what each keeps.
-/

namespace Sys2Proof.Machine

/-! ### What every service keeps -/

/-- The callback binding is kept, and no byte of queue storage becomes unwritten (20_memory.md R74). -/
structure Ep.Kept (p r : Ep) : Prop where
  cb : r.cb = p.cb
  cbctx : r.cbctx = p.cbctx
  written : ∀ j, (Mem.read p.q.mem j).isSome → (Mem.read r.q.mem j).isSome

theorem Ep.Kept.refl (p : Ep) : Ep.Kept p p := ⟨rfl, rfl, fun _ h => h⟩

theorem Ep.Kept.trans {p r t : Ep} (h : Ep.Kept p r) (k : Ep.Kept r t) : Ep.Kept p t :=
  ⟨k.cb.trans h.cb, k.cbctx.trans h.cbctx, fun j hj => k.written j (h.written j hj)⟩

theorem Ep.Kept.of_eq {p r : Ep} (h1 : r.cb = p.cb) (h2 : r.cbctx = p.cbctx) (h3 : r.q.mem = p.q.mem) :
    Ep.Kept p r := ⟨h1, h2, fun j hj => by rw [h3]; exact hj⟩

theorem Ep.Kept.releaseOut (c : EpCfg) (p : Ep) : Ep.Kept p (p.releaseOut c) :=
  .of_eq (by simp [Ep.releaseOut]) (by simp [Ep.releaseOut]) (by simp)

theorem Ep.Kept.clearOutAck (c : EpCfg) (p : Ep) : Ep.Kept p (p.clearOutAck c) := by
  unfold Ep.clearOutAck
  simp only
  split
  · exact (Ep.Kept.releaseOut c p).trans (.of_eq rfl rfl rfl)
  · exact .of_eq rfl rfl rfl

theorem Ep.Kept.commit (c : EpCfg) (p : Ep) : Ep.Kept p (p.commit c) :=
  .of_eq (by simp [Ep.commit]) (by simp [Ep.commit]) (by simp)

theorem Ep.Kept.clearTxAck (c : EpCfg) (p : Ep) : Ep.Kept p (p.clearTxAck c) := by
  unfold Ep.clearTxAck
  simp only
  split
  · exact (Ep.Kept.commit c p).trans (.of_eq rfl rfl rfl)
  · exact .of_eq rfl rfl rfl

/-! ### Fill -/

/-- The turns the fill may still take: the free places, and one change of bank. -/
def Ep.fillTurns (p : Ep) : Nat :=
  (p.q.cap - p.q.size) + if p.bank0.st = .held ∧ p.bank1.st = .held then 1 else 0

theorem Ep.fillByte_turns {p : Ep} (v : Byte) (h : p.q.size < p.q.cap) :
    (p.fillByte v).fillTurns < p.fillTurns := by
  have h0 : (p.fillByte v).bank0.st = p.bank0.st ∧ (p.fillByte v).bank1.st = p.bank1.st := by
    unfold Ep.fillByte Ep.bank Ep.setBank; split <;> simp
  have hq : (p.fillByte v).q.cap = p.q.cap ∧ (p.fillByte v).q.size = p.q.size + 1 := by
    refine ⟨by simp [Ep.fillByte], ?_⟩
    simp only [Ep.fillByte, Queue.push_size]
    exact if_neg (by omega)
  unfold Ep.fillTurns
  rw [h0.1, h0.2, hq.1, hq.2]
  omega

theorem Ep.releaseOut_turns {c : EpCfg} {p : Ep} (h1 : (p.bank p.cur).st = .held)
    (h2 : (p.bank (!p.cur)).st = .held) : (p.releaseOut c).fillTurns < p.fillTurns := by
  have hi : idleState c ≠ .held := by unfold idleState; split <;> decide
  unfold Ep.fillTurns
  rw [Ep.releaseOut_q]
  rcases hcur : p.cur with _ | _ <;>
    simp_all [Ep.releaseOut, Ep.bank, Ep.setBank, Bank.emptied]

/-- More turns than needed change nothing. -/
theorem Ep.fillLoop_fuel (c : EpCfg) {n m : Nat} {p : Ep} (hn : p.fillTurns < n) (hm : p.fillTurns < m) :
    Ep.fillLoop c n p = Ep.fillLoop c m p := by
  induction n generalizing m p with
  | zero => omega
  | succ n ih =>
    obtain ⟨m, rfl⟩ : ∃ k, m = k + 1 := ⟨m - 1, by omega⟩
    unfold Ep.fillLoop
    split
    · rename_i hlt
      split
      · split
        · rfl
        · rename_i v _
          have := Ep.fillByte_turns v hlt
          exact ih (by omega) (by omega)
      · split
        · rename_i h
          have := Ep.releaseOut_turns (c := c) h.2.1 h.2.2
          exact ih (by omega) (by omega)
        · rfl
    · rfl

theorem Ep.fillTurns_lt (p : Ep) : p.fillTurns < p.q.cap - p.q.size + 2 := by
  unfold Ep.fillTurns; split <;> omega

/-- The fill is its while loop (R178): one turn, then the fill again. -/
theorem Ep.fill_eq (c : EpCfg) (p : Ep) :
    p.fill c =
      if p.q.size < p.q.cap then
        if (p.bank p.cur).st = .held ∧ (p.bank p.cur).rdp < (p.bank p.cur).cnt then
          match Mem.read (p.bank p.cur).data (p.bank p.cur).rdp with
          | none => none
          | some v => (p.fillByte v).fill c
        else if c.nbanks = 2 ∧ (p.bank p.cur).st = .held ∧ (p.bank (!p.cur)).st = .held then
          (p.releaseOut c).fill c
        else some (p.clearOutAck c)
      else some p.backpressure := by
  have hp := p.fillTurns_lt
  conv_lhs => unfold Ep.fill Ep.fillLoop
  split
  · rename_i hlt
    split
    · split
      · rename_i hv
        first | rfl | simp only [hv]
      · rename_i v hv
        try simp only [hv]
        have h1 := Ep.fillByte_turns v hlt
        exact Ep.fillLoop_fuel c (by omega) (Ep.fillTurns_lt _)
    · split
      · rename_i h
        have h1 := Ep.releaseOut_turns (c := c) h.2.1 h.2.2
        exact Ep.fillLoop_fuel c (by omega) (Ep.fillTurns_lt _)
      · rfl
  · rfl

/-- Induction over the turns of the fill: a property of endpoints that every ending has and that every
turn passes back holds of every fill. -/
theorem Ep.fill_induct {P : Ep → Prop} (h : ∀ p, (∀ r, r.fillTurns < p.fillTurns → P r) → P p)
    (p : Ep) : P p := by
  have key : ∀ n p, p.fillTurns < n → P p := by
    intro n
    induction n with
    | zero => intro p hp; omega
    | succ n ih => intro p hp; exact h p fun r hr => ih r (by omega)
  exact key _ p (Nat.lt_succ_self _)

/-- Moving one byte keeps the invariant. -/
theorem Ep.Inv.fillByte {c : EpCfg} {p : Ep} (h : Ep.Inv c p) (v : Byte)
    (hh : (p.bank p.cur).st = .held) (hr : (p.bank p.cur).rdp < (p.bank p.cur).cnt) :
    Ep.Inv c (p.fillByte v) := by
  have hb := h.bank p.cur
  have hb' : Bank.Inv c { p.bank p.cur with rdp := (p.bank p.cur).rdp + 1 } :=
    { cnt_le := hb.cnt_le
      rdp_le := hr
      rdp_zero := fun hs => absurd hh hs
      free_empty := hb.free_empty
      allowed := hb.allowed
      written := hb.written
      canon := hb.canon
      below := hb.below }
  have hst : ∀ d, ((p.fillByte v).bank d).st = (p.bank d).st := by
    intro d
    show ((p.setBank p.cur _).bank d).st = _
    rw [Ep.bank_setBank]; split
    · rename_i hd; rw [hd]
    · rfl
  have h0 : (p.fillByte v).bank0 = (p.fillByte v).bank false := rfl
  have h1 : (p.fillByte v).bank1 = (p.fillByte v).bank true := rfl
  have hcur : (p.fillByte v).cur = p.cur := by simp [Ep.fillByte]
  have hbus : (p.fillByte v).busPtr = p.busPtr := by simp [Ep.fillByte]
  have hpend : (p.fillByte v).ipend = p.ipend := by simp [Ep.fillByte]
  refine ⟨?_, ?_, ?_, ?_, ?_⟩
  · exact h.queue.push v
  · exact h.setBank hb' false
  · exact h.setBank hb' true
  · constructor
    · intro hn; rw [hcur, hbus]; exact h.pingPong.single hn
    · intro hn; rw [hcur, hbus, h0, h1, hst, hst]; exact h.pingPong.same hn
    · intro hn hk; rw [hcur, hbus, hst, hst]; exact h.pingPong.outOrder hn hk
    · intro hn hk; rw [hcur, hbus, hst, hst]; exact h.pingPong.inOrder hn hk
  · constructor
    · rw [hpend]; exact h.setupHeld.controlOnly
    · rw [hpend, h0, hst]; intro hx
      have := h.setupHeld.bankHeld hx
      refine ⟨this.1, ?_⟩
      rw [← this.2]
      simp only [Ep.fillByte, Ep.bank, Ep.setBank]
      rcases p.cur with _ | _ <;> simp
    · rw [hpend]; exact h.setupHeld.noData

theorem Ep.Kept.fillByte (p : Ep) (v : Byte) : Ep.Kept p (p.fillByte v) :=
  ⟨by simp [Ep.fillByte], by simp [Ep.fillByte], fun _ hj => Queue.isSome_push hj v⟩

/-- The fill of a good endpoint without RXSTP ends, and gives a good endpoint without RXSTP. -/
theorem Ep.Inv.fill {c : EpCfg} {p : Ep} (hok : SlotOk c) (h : Ep.Inv c p)
    (hx : p.ipend.getLsbD bitSetup = false) :
    ∃ r, p.fill c = some r ∧ Ep.Inv c r ∧ r.ipend.getLsbD bitSetup = false ∧ Ep.Kept p r := by
  induction p using Ep.fill_induct with
  | h p ih =>
  rw [Ep.fill_eq]
  split
  · rename_i hlt
    split
    · rename_i hc
      obtain ⟨v, hv⟩ := Option.isSome_iff_exists.1 ((h.bank p.cur).written _ hc.2)
      obtain ⟨r, h1, h2, h3, h4⟩ := ih (p.fillByte v) (Ep.fillByte_turns v hlt)
        (h.fillByte v hc.1 hc.2) (by simpa [Ep.fillByte] using hx)
      exact ⟨r, by simp only [hv]; exact h1, h2, h3, (Ep.Kept.fillByte p v).trans h4⟩
    · split
      · rename_i hc
        obtain ⟨r, h1, h2, h3, h4⟩ := ih (p.releaseOut c) (Ep.releaseOut_turns hc.2.1 hc.2.2)
          (h.releaseOut hok hc.2.1 hx) (by simpa using hx)
        exact ⟨r, h1, h2, h3, (Ep.Kept.releaseOut c p).trans h4⟩
      · refine ⟨_, rfl, h.clearOutAck hok hx, ?_, Ep.Kept.clearOutAck c p⟩
        unfold Ep.clearOutAck
        simp only
        rw [getLsbD_setBit, if_neg (by decide)]
        split <;> simpa using hx
  · exact ⟨_, rfl, h.of_flags h.queue rfl rfl rfl rfl (h.setupHeld.of_same rfl rfl), hx,
      .of_eq rfl rfl rfl⟩

/-! ### Drain -/

/-- The turns the drain may still take: the bytes held, and one change of bank. -/
def Ep.drainTurns (p : Ep) : Nat :=
  p.q.size +
    if (p.bank (!p.cur)).st = .fill then 1 else 0

theorem Ep.drainByte_turns {p : Ep} {v : Byte} {q : Queue} (h : 0 < p.q.size)
    (hp : p.q.pop = some (v, q)) : (p.drainByte v q).drainTurns < p.drainTurns := by
  have hst : ((p.drainByte v q).bank (!(p.drainByte v q).cur)).st = (p.bank (!p.cur)).st := by
    unfold Ep.drainByte Ep.bank Ep.setBank
    rcases hcur : p.cur with _ | _ <;> simp
  have hs : q.size = p.q.size - 1 := by
    rcases Queue.pop_cases hp with ⟨h0, _⟩ | ⟨_, _, rfl⟩
    · omega
    · rfl
  unfold Ep.drainTurns
  rw [hst]
  show q.size + _ < _
  omega

theorem Ep.commit_turns {c : EpCfg} {p : Ep} (hn : c.nbanks = 2) (h : (p.bank (!p.cur)).st = .fill) :
    (p.commit c).drainTurns < p.drainTurns := by
  unfold Ep.drainTurns
  rw [Ep.commit_q]
  rcases hcur : p.cur with _ | _ <;>
    simp_all [Ep.commit, Ep.bank, Ep.setBank, nextBank]

theorem Ep.flip_turns {p : Ep} (h1 : (p.bank p.cur).st ≠ .fill) (h : (p.bank (!p.cur)).st = .fill) :
    ({ p with cur := !p.cur } : Ep).drainTurns < p.drainTurns := by
  unfold Ep.drainTurns
  rcases hcur : p.cur with _ | _ <;> simp_all [Ep.bank]

/-- More turns than needed change nothing. -/
theorem Ep.drainLoop_fuel (c : EpCfg) {n m : Nat} {p : Ep} (hn : p.drainTurns < n)
    (hm : p.drainTurns < m) : Ep.drainLoop c n p = Ep.drainLoop c m p := by
  induction n generalizing m p with
  | zero => omega
  | succ n ih =>
    obtain ⟨m, rfl⟩ : ∃ k, m = k + 1 := ⟨m - 1, by omega⟩
    unfold Ep.drainLoop
    split
    · rename_i hlt
      split
      · split
        · rfl
        · rename_i v q hpop
          have := Ep.drainByte_turns hlt hpop
          exact ih (by omega) (by omega)
      · split
        · rename_i h
          split
          · have := Ep.commit_turns h.1 h.2
            exact ih (by omega) (by omega)
          · rename_i hf
            have := Ep.flip_turns hf h.2
            exact ih (by omega) (by omega)
        · rfl
    · rfl

theorem Ep.drainTurns_lt (p : Ep) : p.drainTurns < p.q.size + 2 := by
  unfold Ep.drainTurns; split <;> omega

/-- The while loop of the drain with turns enough. -/
def Ep.drainAll (c : EpCfg) (p : Ep) : Option Ep := Ep.drainLoop c (p.q.size + 2) p

/-- The drain's loop is its while loop (R183): one turn, then the loop again. -/
theorem Ep.drainAll_eq (c : EpCfg) (p : Ep) :
    p.drainAll c =
      if 0 < p.q.size then
        if (p.bank p.cur).st = .fill ∧ (p.bank p.cur).cnt < c.bsize then
          match p.q.pop with
          | none => none
          | some (v, q) => (p.drainByte v q).drainAll c
        else if c.nbanks = 2 ∧ (p.bank (!p.cur)).st = .fill then
          if (p.bank p.cur).st = .fill then (p.commit c).drainAll c
          else ({ p with cur := !p.cur } : Ep).drainAll c
        else some p
      else some p := by
  have hp := p.drainTurns_lt
  conv_lhs => unfold Ep.drainAll Ep.drainLoop
  split
  · rename_i hlt
    split
    · split
      · rename_i hpop
        first | rfl | simp only [hpop]
      · rename_i v q hpop
        try simp only [hpop]
        have := Ep.drainByte_turns hlt hpop
        exact Ep.drainLoop_fuel c (by omega) (Ep.drainTurns_lt _)
    · split
      · rename_i h
        split
        · have := Ep.commit_turns h.1 h.2
          exact Ep.drainLoop_fuel c (by omega) (Ep.drainTurns_lt _)
        · rename_i hf
          have := Ep.flip_turns hf h.2
          exact Ep.drainLoop_fuel c (by omega) (Ep.drainTurns_lt _)
      · rfl
  · rfl

/-- The drain: its loop, then the transmit-ready acknowledgment, then `drain_done` (R183). -/
theorem Ep.drain_eq (c : EpCfg) (p : Ep) :
    p.drain c = (p.drainAll c).map fun r => (r.clearTxAck c).drainDone := by
  unfold Ep.drain Ep.drainAll
  split <;> simp_all

/-- Induction over the turns of the drain. -/
theorem Ep.drain_induct {P : Ep → Prop}
    (h : ∀ p, (∀ r, r.drainTurns < p.drainTurns → P r) → P p) (p : Ep) : P p := by
  have key : ∀ n p, p.drainTurns < n → P p := by
    intro n
    induction n with
    | zero => intro p hp; omega
    | succ n ih => intro p hp; exact h p fun r hr => ih r (by omega)
  exact key _ p (Nat.lt_succ_self _)

/-- Moving one byte keeps the invariant. -/
theorem Ep.Inv.drainByte {c : EpCfg} {p : Ep} {v : Byte} {q : Queue} (h : Ep.Inv c p)
    (hh : (p.bank p.cur).st = .fill) (hr : (p.bank p.cur).cnt < c.bsize)
    (hp : p.q.pop = some (v, q)) : Ep.Inv c (p.drainByte v q) := by
  have hb := h.bank p.cur
  have hb' : Bank.Inv c { p.bank p.cur with
      data := Mem.write (p.bank p.cur).data (p.bank p.cur).cnt v
      cnt := (p.bank p.cur).cnt + 1 } :=
    { cnt_le := hr
      rdp_le := Nat.le_succ_of_le hb.rdp_le
      rdp_zero := hb.rdp_zero
      free_empty := fun hf => by simp only at hf; rw [hh] at hf; cases hf
      allowed := hb.allowed
      written := fun i hi => by
        simp only at hi ⊢
        by_cases hic : i = (p.bank p.cur).cnt
        · subst hic; simp
        · exact Mem.isSome_write (hb.written i (by omega)) _ _
      canon := Mem.canon_write hb.canon _ _
      below := Mem.below_write hb.below hr _ }
  have hst : ∀ d, ((p.drainByte v q).bank d).st = (p.bank d).st := by
    intro d
    show ((p.setBank p.cur _).bank d).st = _
    rw [Ep.bank_setBank]; split
    · rename_i hd; rw [hd]
    · rfl
  have h0 : (p.drainByte v q).bank0 = (p.drainByte v q).bank false := rfl
  have h1 : (p.drainByte v q).bank1 = (p.drainByte v q).bank true := rfl
  have hcur : (p.drainByte v q).cur = p.cur := by simp [Ep.drainByte]
  have hbus : (p.drainByte v q).busPtr = p.busPtr := by simp [Ep.drainByte]
  have hpend : (p.drainByte v q).ipend = p.ipend := by simp [Ep.drainByte]
  refine ⟨?_, ?_, ?_, ?_, ?_⟩
  · exact h.queue.pop hp
  · exact h.setBank hb' false
  · exact h.setBank hb' true
  · constructor
    · intro hn; rw [hcur, hbus]; exact h.pingPong.single hn
    · intro hn; rw [hcur, hbus, h0, h1, hst, hst]; exact h.pingPong.same hn
    · intro hn hk; rw [hcur, hbus, hst, hst]; exact h.pingPong.outOrder hn hk
    · intro hn hk; rw [hcur, hbus, hst, hst]; exact h.pingPong.inOrder hn hk
  · constructor
    · rw [hpend]; exact h.setupHeld.controlOnly
    · rw [hpend, h0, hst]; intro hx
      have hbh := h.setupHeld.bankHeld hx
      refine ⟨hbh.1, ?_⟩
      have hcf : p.cur = true := by
        rcases hc : p.cur with _ | _
        · rw [hc] at hh
          have : p.bank0.st = .fill := hh
          rw [hbh.1] at this; cases this
        · rfl
      rw [← hbh.2]
      simp [Ep.drainByte, Ep.bank, Ep.setBank, hcf]
    · rw [hpend]; exact h.setupHeld.noData

theorem Ep.Kept.drainByte {p : Ep} {v : Byte} {q : Queue} (hp : p.q.pop = some (v, q)) :
    Ep.Kept p (p.drainByte v q) :=
  .of_eq (by simp [Ep.drainByte]) (by simp [Ep.drainByte])
    (show q.mem = _ from Queue.pop_mem hp)

/-- On a good endpoint the engine's bank is filled before the other one: the drain never skips a bank. -/
theorem Ep.Inv.no_flip {c : EpCfg} {p : Ep} (h : Ep.Inv c p) (hok : SlotOk c) (hn : c.nbanks = 2)
    (ho : (p.bank (!p.cur)).st = .fill) : (p.bank p.cur).st = .fill := by
  have hk : c.kind = .inn := ((h.bank _).kind_of_fill ho).resolve_right fun hc => by
    have := hok.control hc; omega
  have hs := h.pingPong.same hn
  have hi := h.pingPong.inOrder hn hk
  rcases hcur : p.cur with _ | _ <;> rcases hbus : p.busPtr with _ | _ <;>
    simp_all [Ep.bank]

/-- The drain's loop on a good endpoint ends and gives a good endpoint. -/
theorem Ep.Inv.drainAll {c : EpCfg} {p : Ep} (hok : SlotOk c) (h : Ep.Inv c p) :
    ∃ r, p.drainAll c = some r ∧ Ep.Inv c r ∧ r.ipend = p.ipend ∧ Ep.Kept p r := by
  induction p using Ep.drain_induct with
  | h p ih =>
  rw [Ep.drainAll_eq]
  split
  · rename_i hlt
    split
    · rename_i hc
      obtain ⟨v, q, hv⟩ := h.queue.pop_isSome
      obtain ⟨r, h1, h2, h3, h4⟩ := ih (p.drainByte v q) (Ep.drainByte_turns hlt hv)
        (h.drainByte hc.1 hc.2 hv)
      exact ⟨r, by simp only [hv]; exact h1, h2, h3.trans (by simp [Ep.drainByte]),
        (Ep.Kept.drainByte hv).trans h4⟩
    · split
      · rename_i hc
        have hf := h.no_flip hok hc.1 hc.2
        rw [if_pos hf]
        obtain ⟨r, h1, h2, h3, h4⟩ := ih (p.commit c) (Ep.commit_turns hc.1 hc.2) (h.commit hok hf)
        exact ⟨r, h1, h2, h3.trans (by simp), (Ep.Kept.commit c p).trans h4⟩
      · exact ⟨p, rfl, h, rfl, Ep.Kept.refl p⟩
  · exact ⟨p, rfl, h, rfl, Ep.Kept.refl p⟩

theorem Ep.Inv.drainDone {c : EpCfg} {p : Ep} (h : Ep.Inv c p) : Ep.Inv c p.drainDone := by
  unfold Ep.drainDone
  split
  · exact h.of_flags h.queue rfl rfl rfl rfl (h.setupHeld.of_same rfl rfl)
  · exact h

theorem Ep.Kept.drainDone (p : Ep) : Ep.Kept p p.drainDone := by
  unfold Ep.drainDone
  split
  · exact .of_eq rfl rfl rfl
  · exact .refl p

/-- The drain of a good endpoint ends and gives a good endpoint. -/
theorem Ep.Inv.drain {c : EpCfg} {p : Ep} (hok : SlotOk c) (h : Ep.Inv c p) :
    ∃ r, p.drain c = some r ∧ Ep.Inv c r ∧ Ep.Kept p r := by
  obtain ⟨r, h1, h2, _, h4⟩ := h.drainAll hok
  refine ⟨_, by rw [Ep.drain_eq, h1]; rfl, (h2.clearTxAck hok).drainDone, ?_⟩
  exact h4.trans ((Ep.Kept.clearTxAck c r).trans (Ep.Kept.drainDone _))

/-! ### IN-abort and SETUP handling -/

/-- The IN-abort leaves a good, clean endpoint (R194). -/
theorem Ep.Inv.inAbort {c : EpCfg} {p : Ep} (hok : SlotOk c) (h : Ep.Inv c p)
    (hx : p.ipend.getLsbD bitSetup = false) : Ep.Inv c (p.inAbort c) where
  queue := h.queue.reset
  bank0 := h.bank0.emptied hok.conf
  bank1 := by
    show Bank.Inv c (if c.nbanks = 2 then Bank.emptied c p.bank1 else p.bank1)
    split
    · exact h.bank1.emptied hok.conf
    · exact h.bank1
  pingPong := by
    constructor
    · intro _; exact ⟨rfl, rfl⟩
    · intro hn _
      show (Bank.emptied c p.bank0).st
        = (if c.nbanks = 2 then Bank.emptied c p.bank1 else p.bank1).st
      rw [if_pos hn]; rfl
    all_goals intro _ _ hne; exact absurd rfl hne
  setupHeld := Ep.SetupHeld.of_clear (by
    show (setBit (setBit p.ipend bitOut false) bitIn _).getLsbD bitSetup = false
    rw [getLsbD_setBit, if_neg (by decide), getLsbD_setBit, if_neg (by decide)]; exact hx)

theorem Ep.Kept.inAbort (c : EpCfg) (p : Ep) : Ep.Kept p (p.inAbort c) := .of_eq rfl rfl rfl

theorem Ep.Inv.cancelTransfer {c : EpCfg} {p : Ep} (h : Ep.Inv c p) : Ep.Inv c p.cancelTransfer :=
  h.of_flags h.queue rfl rfl rfl rfl (h.setupHeld.of_same rfl rfl)

theorem tokHas_clear_setup (t : Token) : tokHas (t &&& ~~~tokSetup) tokSetup = false := by
  revert t; decide

/-- SETUP handling of a good control endpoint ends and gives a good endpoint; when the SETUP stays in
the token the eight bytes of the request are written (R188, R189). -/
theorem Ep.Inv.setupHandling {c : EpCfg} {p : Ep} (hok : SlotOk c) (h : Ep.Inv c p)
    (hx : p.ipend.getLsbD bitSetup) (tok : Token) :
    ∃ r t, p.setupHandling tok = some (r, t) ∧ Ep.Inv c r ∧ Ep.Kept p r ∧
      (tokHas t tokSetup → requestWritten r.q.mem) := by
  have hk := h.setupHeld.controlOnly hx
  have hcnt := (h.setupHeld.bankHeld hx).2
  unfold Ep.setupHandling
  split
  · refine ⟨_, _, rfl, ?_, .of_eq rfl rfl rfl, ?_⟩
    · exact ((h.withQueue h.queue.reset).doStall.clearSetupAck hok hk).cancelTransfer
    · intro hs; rw [tokHas_clear_setup] at hs; cases hs
  · rename_i hcap
    obtain ⟨d, hd⟩ := Mem.readAll_isSome (m := p.bank0.data) (k := 0) (n := p.bank0.cnt)
      fun i hi => by rw [Nat.zero_add]; exact h.bank0.written i hi
    have hlen := (Mem.readAll_eq_some hd).1
    have hmem : (p.q.reset.pushAll d).mem = Mem.writeAll p.q.mem 0 d :=
      Queue.pushAll_linear (q := p.q.reset) rfl
        (show 0 + d.length ≤ p.q.cap by omega)
    simp only [hd]
    refine ⟨_, _, rfl, ?_, ⟨rfl, rfl, ?_⟩, ?_⟩
    · exact ((h.withQueue (h.queue.reset.pushAll d)).clearSetupAck hok hk).cancelTransfer
    · intro j hj
      exact Queue.isSome_pushAll (q := p.q.reset) hj d
    · intro _ i hi
      show (Mem.read (p.q.reset.pushAll d).mem i).isSome
      rw [hmem, Mem.read_writeAll, if_pos (by omega)]
      simp; omega

/-! ### The step -/

theorem Ep.pending_getLsbD (p : Ep) (k : Nat) :
    p.pending.getLsbD k = (p.ipend.getLsbD k && p.ien.getLsbD k) := by
  simp [Ep.pending, BitVec.getLsbD_and]

/-- The token bits that choose the work are the pending bits (R171). -/
theorem tokHas_tokenOf (v : Bits7) :
    tokHas (tokenOf v) tokSetup = v.getLsbD bitSetup ∧
    tokHas (tokenOf v) tokIn = v.getLsbD bitIn ∧
    tokHas (tokenOf v) tokOut = v.getLsbD bitOut := by
  revert v; decide

theorem getLsbD_clearAux {v w : Bits7} {j : Nat} (hj : j ≤ 2) :
    (clearAux v w).getLsbD j = v.getLsbD j := by
  have hm : auxMask.getLsbD j = false := by
    have : j = 0 ∨ j = 1 ∨ j = 2 := by omega
    rcases this with rfl | rfl | rfl <;> decide
  unfold clearAux
  rw [BitVec.getLsbD_and, BitVec.getLsbD_not, BitVec.getLsbD_and, hm]
  simp [show j < 7 by omega]

theorem Ep.Inv.clearAux {c : EpCfg} {p : Ep} (h : Ep.Inv c p) (w : Bits7) :
    Ep.Inv c { p with ipend := clearAux p.ipend w } :=
  h.of_flags h.queue rfl rfl rfl rfl (h.setupHeld.of_aux (fun _ hj => getLsbD_clearAux hj) rfl)

/-- A service of a good endpoint ends and gives a good endpoint; when the delivered token holds SETUP
the eight bytes of the request are written. -/
theorem Ep.Inv.service {c : EpCfg} {p : Ep} (hok : SlotOk c) (h : Ep.Inv c p) :
    ∃ r t, p.service c = some (r, t) ∧ Ep.Inv c r ∧ Ep.Kept p r ∧
      (tokHas t tokSetup → requestWritten r.q.mem) := by
  obtain ⟨t1, t2, t3⟩ := tokHas_tokenOf p.pending
  have pend := Ep.pending_getLsbD p
  have key : ∃ r t, p.serviceWork c (tokenOf p.pending) = some (r, t) ∧ Ep.Inv c r ∧ Ep.Kept p r ∧
      (tokHas t tokSetup → requestWritten r.q.mem) := by
    unfold Ep.serviceWork
    rw [t1, t2, t3, pend, pend, pend]
    split
    · rename_i hc
      have hx : p.ipend.getLsbD bitSetup = false := by
        by_contra hx
        have := (h.setupHeld.noData (by simpa using hx)).1
        simp only [this, Bool.false_and, Bool.false_eq_true, false_and] at hc
      refine ⟨_, _, rfl, h.inAbort hok hx, .inAbort c p, ?_⟩
      rw [t1, pend, hx]; intro hs; cases hs
    · split
      · rename_i hs
        exact h.setupHandling hok (by revert hs; cases p.ipend.getLsbD bitSetup <;> simp) _
      · rename_i hs
        have hnot : tokHas (tokenOf p.pending) tokSetup = false := by
          rw [t1, pend]; simpa using hs
        have hfill : ∃ r, (if (p.ipend.getLsbD bitOut && p.ien.getLsbD bitOut) then p.fill c
            else some p) = some r ∧ Ep.Inv c r ∧ Ep.Kept p r := by
          split
          · rename_i ho
            have hx : p.ipend.getLsbD bitSetup = false := by
              by_contra hx
              have := (h.setupHeld.noData (by simpa using hx)).2
              simp [this] at ho
            obtain ⟨r, h1, h2, _, h4⟩ := h.fill hok hx
            exact ⟨r, h1, h2, h4⟩
          · exact ⟨p, rfl, h, .refl p⟩
        obtain ⟨r1, e1, i1, k1⟩ := hfill
        have hdrain : ∃ r, (if (p.ipend.getLsbD bitIn && p.ien.getLsbD bitIn) then r1.drain c
            else some r1) = some r ∧ Ep.Inv c r ∧ Ep.Kept r1 r := by
          split
          · exact i1.drain hok
          · exact ⟨r1, rfl, i1, .refl r1⟩
        obtain ⟨r2, e2, i2, k2⟩ := hdrain
        refine ⟨r2, tokenOf p.pending, by simp only [e1, e2], i2, k1.trans k2, ?_⟩
        rw [hnot]; intro hs; cases hs
  obtain ⟨r, t, e, i, k, hw⟩ := key
  refine ⟨_, t, by unfold Ep.service; simp only [e]; rfl, i.clearAux _, ?_, hw⟩
  exact k.trans (.of_eq rfl rfl rfl)

/-! ### The interrupt request output -/

/-- IRQ[e] of a configured endpoint; a slot that is not configured has none (R41). -/
theorem State.irq_eq_true {s : State} {e : Nat} :
    s.irq e = true ↔ ∃ c p, s.ep? e = some (c, p) ∧ p.pending ≠ 0 := by
  unfold State.irq Ep.irq
  split <;> simp_all

/-- The output IRQ is true exactly when there is an endpoint to serve (R41, R170). -/
theorem State.irqOutput_eq (s : State) : s.irqOutput = s.lowestIrq.isSome := by
  unfold State.irqOutput State.lowestIrq
  rw [Bool.eq_iff_iff, List.find?_isSome, List.any_eq_true]

end Sys2Proof.Machine
end

