-- ==== Sys2Proof/Laws/Bus.lean ====
section
/-!
SUPPORT. What the bus side does to an endpoint, and the two resets: the endpoint invariant kept
(43_bus_agent.md R213 to R219, 70_reset_and_hazards.md R310, R311).
-/

namespace Sys2Proof.Machine

/-! ### Reception -/

theorem Bank.Inv.receive {c : EpCfg} {b : Bank} (h : Bank.Inv c b) {d : List Byte}
    (hd : d.length ≤ c.bsize) (hk : c.kind = .out ∨ c.kind = .control) :
    Bank.Inv c (b.receive d) where
  cnt_le := hd
  rdp_le := Nat.zero_le _
  rdp_zero := fun hs => absurd rfl hs
  free_empty := fun hs => by cases hs
  allowed := by rcases hk with hk | hk <;> simp [Bank.receive, hk, stateAllowed]
  written := fun i hi => by
    have hi' : i < d.length := hi
    show (Mem.read (Mem.writeAll b.data 0 d) i).isSome
    rw [Mem.read_writeAll, if_pos (by omega)]
    simp; omega
  canon := Mem.canon_writeAll h.canon 0 d
  below := Mem.below_writeAll h.below d (by omega)

/-- A flag of IPEND above RXOUT may be raised. -/
theorem Ep.Inv.raise {c : EpCfg} {p : Ep} (h : Ep.Inv c p) {k : Nat} (hk : 2 < k) (b : Bool) :
    Ep.Inv c { p with ipend := setBit p.ipend k b } :=
  h.of_flags h.queue rfl rfl rfl rfl
    (h.setupHeld.of_aux (fun j hj => by rw [getLsbD_setBit, if_neg (by omega)]) rfl)

/-- SETUP reception keeps the invariant (R213, R214). -/
theorem Ep.Inv.receiveSetup {c : EpCfg} {p : Ep} (hok : SlotOk c) (hk : c.kind = .control)
    (h : Ep.Inv c p) {d : List Byte} (hd : d.length = 8) : Ep.Inv c (p.receiveSetup d) where
  queue := h.queue
  bank0 := h.bank0.receive (by have := hok.bsize.1; omega) (.inr hk)
  bank1 := h.bank1
  pingPong := by
    have hn := hok.control hk
    constructor
    · exact h.pingPong.single
    all_goals intro h2; omega
  setupHeld := by
    constructor
    · intro _; exact hk
    · intro _; exact ⟨rfl, hd⟩
    · intro _
      show (setBit (setBit (setBit p.ipend bitSetup true) bitIn false) bitOut false).getLsbD bitIn
          = false ∧ (setBit (setBit (setBit p.ipend bitSetup true) bitIn false) bitOut false).getLsbD
          bitOut = false
      constructor
      · rw [getLsbD_setBit, if_neg (by decide), getLsbD_setBit, if_pos rfl, Bool.false_and]
      · rw [getLsbD_setBit, if_pos rfl, Bool.false_and]

/-- OUT on a control endpoint keeps the invariant (R215). -/
theorem Ep.Inv.outControl {c : EpCfg} {p : Ep} (hok : SlotOk c) (hk : c.kind = .control)
    (h : Ep.Inv c p) {d : List Byte} (hd : d.length ≤ c.bsize) : Ep.Inv c (p.outControl d).1 := by
  unfold Ep.outControl
  split
  · exact h.raise (by decide) _
  · split
    · exact h.raise (by decide) _
    · rename_i hc
      have hx : p.ipend.getLsbD bitSetup = false := by
        by_contra hx
        exact hc (.inr (.inl (by simpa using hx)))
      have hn := hok.control hk
      refine ⟨h.queue, h.bank0.receive hd (.inr hk), h.bank1, ?_, Ep.SetupHeld.of_clear ?_⟩
      · constructor
        · exact h.pingPong.single
        all_goals intro h2; omega
      · simp only
        rw [getLsbD_setBit, if_neg (by decide)]
        split
        · rw [getLsbD_setBit, if_neg (by decide)]; exact hx
        · exact hx

/-- OUT on an OUT endpoint keeps the invariant (R217). -/
theorem Ep.Inv.outData {c : EpCfg} {p : Ep} (hok : SlotOk c) (hk : c.kind = .out)
    (h : Ep.Inv c p) {d : List Byte} (hd : d.length ≤ c.bsize) : Ep.Inv c (p.outData c d).1 := by
  unfold Ep.outData
  split
  · exact h.raise (by decide) _
  · split
    · exact h.raise (by decide) _
    · rename_i hc
      have hf : (p.bank p.busPtr).st = .freeRx := by
        by_contra hf; exact hc (.inr hf)
      have hx : p.ipend.getLsbD bitSetup = false := by
        by_contra hx
        have := h.setupHeld.controlOnly (by simpa using hx)
        rw [hk] at this; cases this
      have hb := (h.bank p.busPtr).receive hd (.inl hk)
      have hpp := h.pingPong
      have h0 := h.bank0
      have h1 := h.bank1
      refine ⟨by simpa using h.queue, ?_, ?_, ?_, Ep.SetupHeld.of_clear ?_⟩
      · simp only [Ep.setBank_bank0]; split <;> assumption
      · simp only [Ep.setBank_bank1]; split <;> assumption
      · rcases hok.banks with hn | hn
        · obtain ⟨e1, e2⟩ := hpp.single hn
          constructor
          · intro _; simp [nextBank, hn, e1, e2]
          all_goals intro h2; omega
        · have hs := hpp.same hn
          have ho := hpp.outOrder hn hk
          constructor
          · intro h2; omega
          all_goals intro _
          · simp only [Ep.setBank_bank0, Ep.setBank_bank1, Ep.setBank_cur, nextBank, hn]
            rcases hcur : p.cur with _ | _ <;> rcases hbus : p.busPtr with _ | _ <;>
              simp_all [Ep.bank, Bank.receive]
          · simp only [Ep.setBank_cur, nextBank, hn]
            rcases hcur : p.cur with _ | _ <;> rcases hbus : p.busPtr with _ | _ <;>
              simp_all [Ep.bank, Ep.setBank, Bank.receive]
          · intro hi; rw [hk] at hi; cases hi
      · simp only
        rw [getLsbD_setBit, if_neg (by decide)]; exact hx

/-- IN on an IN or CONTROL endpoint: a committed bank is sent whole, and the invariant is kept (R216). -/
theorem Ep.Inv.inPoll {c : EpCfg} {p : Ep} (hok : SlotOk c) (h : Ep.Inv c p) :
    ∃ r y, p.inPoll c = some (r, y) ∧ Ep.Inv c r ∧ Ep.Kept p r := by
  unfold Ep.inPoll
  split
  · exact ⟨_, _, rfl, h.raise (by decide) _, .of_eq rfl rfl rfl⟩
  · split
    · rename_i hc
      have hb := h.bank p.busPtr
      have hpp := h.pingPong
      have h0 := h.bank0
      have h1 := h.bank1
      have hkind := hb.kind_of_committed hc
      obtain ⟨d, hd⟩ := Mem.readAll_isSome (m := (p.bank p.busPtr).data) (k := 0)
        (n := (p.bank p.busPtr).cnt) fun i hi => by rw [Nat.zero_add]; exact hb.written i hi
      have hrdp := hb.rdp_zero (by rw [hc]; decide)
      have hb' : Bank.Inv c { p.bank p.busPtr with st := .fill, cnt := 0 } :=
        { cnt_le := Nat.zero_le _
          rdp_le := by simp only; omega
          rdp_zero := fun _ => hrdp
          free_empty := fun hf => by cases hf
          allowed := by rcases hkind with hk | hk <;> simp [hk, stateAllowed]
          written := fun i hi => absurd hi (Nat.not_lt_zero i)
          canon := hb.canon
          below := hb.below }
      have hx : p.ipend.getLsbD bitSetup = false := by
        by_contra hx
        have hx' : p.ipend.getLsbD bitSetup := by simpa using hx
        have hk := h.setupHeld.controlOnly hx'
        have hbus := (hpp.single (hok.control hk)).2
        rw [hbus] at hc
        have : p.bank0.st = .committed := hc
        rw [(h.setupHeld.bankHeld hx').1] at this; cases this
      simp only [hd]
      refine ⟨_, _, rfl, ?_, .of_eq (by simp) (by simp) (by simp)⟩
      refine ⟨by simpa using h.queue, ?_, ?_, ?_, Ep.SetupHeld.of_clear ?_⟩
      · simp only [Ep.setBank_bank0]; split <;> assumption
      · simp only [Ep.setBank_bank1]; split <;> assumption
      · rcases hok.banks with hn | hn
        · obtain ⟨e1, e2⟩ := hpp.single hn
          constructor
          · intro _; simp [nextBank, hn, e1, e2]
          all_goals intro h2; omega
        · have hk : c.kind = .inn := hkind.resolve_right fun hcc => by
            have := hok.control hcc; omega
          have hs := hpp.same hn
          have ho := hpp.inOrder hn hk
          constructor
          · intro h2; omega
          all_goals intro _
          · simp only [Ep.setBank_bank0, Ep.setBank_bank1, Ep.setBank_cur, nextBank, hn]
            rcases hcur : p.cur with _ | _ <;> rcases hbus : p.busPtr with _ | _ <;>
              simp_all [Ep.bank]
          · intro hi; rw [hk] at hi; cases hi
          · simp only [Ep.setBank_cur, nextBank, hn]
            rcases hcur : p.cur with _ | _ <;> rcases hbus : p.busPtr with _ | _ <;>
              simp_all [Ep.bank, Ep.setBank]
      · simp only
        rw [getLsbD_setBit, if_neg (by decide)]; exact hx
    · exact ⟨_, _, rfl, h.raise (by decide) _, .of_eq rfl rfl rfl⟩

theorem Ep.Kept.receiveSetup (p : Ep) (d : List Byte) : Ep.Kept p (p.receiveSetup d) :=
  .of_eq rfl rfl rfl

theorem Ep.Kept.outControl (p : Ep) (d : List Byte) : Ep.Kept p (p.outControl d).1 := by
  unfold Ep.outControl
  split
  · exact .of_eq rfl rfl rfl
  · split <;> exact .of_eq rfl rfl rfl

theorem Ep.Kept.outData (c : EpCfg) (p : Ep) (d : List Byte) : Ep.Kept p (p.outData c d).1 := by
  unfold Ep.outData
  split
  · exact .of_eq rfl rfl rfl
  · split
    · exact .of_eq rfl rfl rfl
    · exact .of_eq (by simp) (by simp) (by simp)

/-! ### Resets -/

theorem Bank.Inv.por {c : EpCfg} (hk : c.kind ≠ .unconf) {m : Mem} (h1 : Mem.canon m)
    (h2 : Mem.below c.bsize m) : Bank.Inv c { Bank.por c with data := m } where
  cnt_le := Nat.zero_le _
  rdp_le := Nat.le_refl _
  rdp_zero := fun _ => rfl
  free_empty := fun _ => rfl
  allowed := by
    unfold Bank.por
    cases hk' : c.kind <;> simp_all [stateAllowed]
  written := fun i hi => absurd hi (Nat.not_lt_zero i)
  canon := h1
  below := h2

theorem Queue.Inv.por {c : EpCfg} (hok : SlotOk c) {m : Mem} (h1 : Mem.canon m)
    (h2 : Mem.below c.qmax m) : Queue.Inv c { Queue.por c with mem := m } where
  cap_pos := hok.qmax.1
  cap_le := Nat.le_refl _
  size_le := Nat.zero_le _
  rd_lt := hok.qmax.1
  held := fun i hi => absurd hi (Nat.not_lt_zero i)
  canon := h1
  below := h2

/-- No RXSTP after reset (R312). -/
theorem Ep.por_rxstp (c : EpCfg) : (Ep.por c).ipend.getLsbD bitSetup = false := by
  rcases hk : c.kind with _ | _ | _ | _ <;> simp [Ep.por, hk]
  decide

/-- A configured endpoint is good after power-on reset (R310). -/
theorem Ep.Inv.por {c : EpCfg} (hok : SlotOk c) : Ep.Inv c (Ep.por c) where
  queue := Queue.Inv.por hok rfl rfl
  bank0 := Bank.Inv.por hok.conf rfl rfl
  bank1 := Bank.Inv.por hok.conf rfl rfl
  pingPong :=
    { single := fun _ => ⟨rfl, rfl⟩
      same := fun _ _ => rfl
      outOrder := fun _ _ h => absurd rfl h
      inOrder := fun _ _ h => absurd rfl h }
  setupHeld := Ep.SetupHeld.of_clear (Ep.por_rxstp c)

/-- A good endpoint is good after a bus reset (R311). -/
theorem Ep.Inv.busReset {c : EpCfg} {p : Ep} (hok : SlotOk c) (h : Ep.Inv c p) :
    Ep.Inv c (p.busReset c) := by
  unfold Ep.busReset
  rw [if_neg hok.conf]
  exact
    { queue := Queue.Inv.por hok h.queue.canon h.queue.below
      bank0 := Bank.Inv.por hok.conf h.bank0.canon h.bank0.below
      bank1 := Bank.Inv.por hok.conf h.bank1.canon h.bank1.below
      pingPong :=
        { single := fun _ => ⟨rfl, rfl⟩
          same := fun _ _ => rfl
          outOrder := fun _ _ h => absurd rfl h
          inOrder := fun _ _ h => absurd rfl h }
      setupHeld := Ep.SetupHeld.of_clear (Ep.por_rxstp c) }

theorem Ep.Kept.busReset (c : EpCfg) (p : Ep) : Ep.Kept p (p.busReset c) := by
  unfold Ep.busReset
  split
  · exact .refl p
  · exact .of_eq rfl rfl rfl

/-- The endpoint a bus reset leaves in slot `e`. -/
theorem State.ep?_busReset {s : State} {e : Nat} {c : EpCfg} {r : Ep}
    (h : s.busReset.ep? e = some (c, r)) : ∃ p, s.ep? e = some (c, p) ∧ r = p.busReset c := by
  rw [State.ep?_eq_some] at h
  obtain ⟨h1, h2, h3⟩ := h
  have h1' : s.cfg.eps[e]? = some c := h1
  have h2' : (List.zipWith Ep.busReset s.cfg.eps s.eps)[e]? = some r := h2
  rw [List.getElem?_zipWith] at h2'
  rw [h1'] at h2'
  cases hp : s.eps[e]? with
  | none => rw [hp] at h2'; cases h2'
  | some p =>
    rw [hp] at h2'
    refine ⟨p, State.ep?_eq_some.2 ⟨h1', hp, h3⟩, ?_⟩
    simpa using h2'.symm

end Sys2Proof.Machine
end

