-- ==== Sys2Proof/Laws/Machine.lean ====
section
/-!
SUPPORT. What a change of one endpoint, the end of a command, a fault record and the host transfers do
to the machine's invariant; and what each transfer between HOST memory and a queue keeps.
-/

namespace Sys2Proof.Machine

/-! ### The invariant -/

/-- The slots of a good state are good. -/
theorem State.Inv.slot {s : State} (h : State.Inv s) {e : Nat} {c : EpCfg} {p : Ep}
    (he : s.ep? e = some (c, p)) : SlotOk c := by
  obtain ⟨h1, _, h3⟩ := State.ep?_eq_some.1 he
  have hc := h.config
  simp only [configOk, Bool.and_eq_true] at hc
  have hall : s.cfg.eps.all slotOk = true := hc.1.1.1.1.1.1.1.2
  rw [List.all_eq_true] at hall
  exact SlotOk.of_slotOk (hall c (List.mem_of_getElem? h1)) h3

/-- Endpoint 0 of a good state is a configured control endpoint (00_scope.md R8). -/
theorem State.Inv.ep0 {s : State} (h : State.Inv s) :
    ∃ c p, s.ep? 0 = some (c, p) ∧ c.kind = .control := by
  have hc := h.config
  simp only [configOk, Bool.and_eq_true, decide_eq_true_eq] at hc
  have h0 : Option.map EpCfg.kind s.cfg.eps[0]? = some .control := hc.1.1.1.1.1.1.1.1.2
  obtain ⟨c, h1, h2⟩ := Option.map_eq_some_iff.1 h0
  have hl : 0 < s.eps.length := by
    rw [h.slots]
    exact (List.getElem?_eq_some_iff.1 h1).1
  refine ⟨c, s.eps[0], State.ep?_eq_some.2 ⟨h1, by simp [hl], ?_⟩, h2⟩
  rw [h2]; decide

/-- A good state changed in nothing the invariant reads stays good. -/
theorem State.Inv.congr {s t : State} (h : State.Inv s) (h1 : t.cfg = s.cfg) (h2 : t.eps = s.eps)
    (h3 : Mem.wf t.hostMem) (h4 : t.status ≤ 4) (h5 : t.tokenLatch = s.tokenLatch)
    (h6 : t.tokenPending = s.tokenPending) : State.Inv t where
  config := by rw [h1]; exact h.config
  slots := by rw [h1, h2]; exact h.slots
  endpoints := by
    intro e c p he; rw [State.ep?_congr h1 h2] at he; exact h.endpoints e c p he
  hostMem := h3
  status := h4
  pending := by rw [h5, h6]; exact h.pending
  request := by
    intro ht c p he; rw [h5] at ht; rw [State.ep?_congr h1 h2] at he; exact h.request ht c p he
  noCallback0 := by
    intro c p he; rw [State.ep?_congr h1 h2] at he; exact h.noCallback0 c p he

/-- A good state stays good when one endpoint becomes another good one that keeps its storage and, if
it is endpoint 0, its absent callback. -/
theorem State.Inv.setEp {s : State} (h : State.Inv s) {e : Nat} {c : EpCfg} {p r : Ep}
    (he : s.ep? e = some (c, p)) (hr : Ep.Inv c r)
    (hw : ∀ j, (Mem.read p.q.mem j).isSome → (Mem.read r.q.mem j).isSome)
    (hcb : e = 0 → r.cb = p.cb ∧ r.cbctx = p.cbctx) : State.Inv (s.setEp e r) where
  config := h.config
  slots := by simp [h.slots]
  endpoints := by
    intro j d t hj
    rcases State.ep?_setEp_cases he hj with ⟨_, rfl, rfl⟩ | ⟨_, hj'⟩
    · exact hr
    · exact h.endpoints j d t hj'
  hostMem := h.hostMem
  status := h.status
  pending := h.pending
  request := by
    intro ht d t hj
    rcases State.ep?_setEp_cases he hj with ⟨h0, rfl, rfl⟩ | ⟨_, hj'⟩
    · subst h0
      exact fun i hi => hw i (h.request ht _ _ he i hi)
    · exact h.request ht _ _ hj'
  noCallback0 := by
    intro d t hj
    rcases State.ep?_setEp_cases he hj with ⟨h0, rfl, rfl⟩ | ⟨_, hj'⟩
    · subst h0
      obtain ⟨e1, e2⟩ := hcb rfl
      obtain ⟨f1, f2⟩ := h.noCallback0 _ _ he
      exact ⟨e1.trans f1, e2.trans f2⟩
    · exact h.noCallback0 _ _ hj'

/-- The same, for a change that keeps callback and storage. -/
theorem State.Inv.setEp_kept {s : State} (h : State.Inv s) {e : Nat} {c : EpCfg} {p r : Ep}
    (he : s.ep? e = some (c, p)) (hr : Ep.Inv c r) (hk : Ep.Kept p r) : State.Inv (s.setEp e r) :=
  h.setEp he hr hk.written fun _ => ⟨hk.cb, hk.cbctx⟩

theorem State.Inv.finish {s : State} (h : State.Inv s) {k : BitVec 4} (hk : k ≤ 4) (r : Half) :
    State.Inv (s.finish k r) :=
  h.congr rfl rfl h.hostMem hk rfl rfl

theorem State.Inv.emit {s : State} (h : State.Inv s) (ev : Event) : State.Inv (s.emit ev) :=
  h.congr rfl rfl h.hostMem h.status rfl rfl

theorem State.Inv.recordFault {s : State} (h : State.Inv s) (k : FaultKind) :
    State.Inv (s.recordFault k) :=
  h.congr (by simp) (by simp) (by simpa using h.hostMem) (by simpa using h.status) (by simp) (by simp)

/-! ### Running a command on an endpoint -/

/-- What the checks before a command on an endpoint can answer (60_exceptions.md R282). -/
theorem withEndpoint_cases {e : Nat} {reserved : Bool} {s : State} {body : EpCfg → Ep → Result}
    {o : Result} (h : withEndpoint e reserved s body = o) :
    (reserved = true ∧ o = .next (s.cmdError errReservedBits)) ∨
    (reserved = false ∧ s.ep? e = none ∧ o = .next (s.cmdError errBadEndpoint)) ∨
    (∃ c p, reserved = false ∧ s.ep? e = some (c, p) ∧ o = body c p) := by
  unfold withEndpoint at h
  split at h
  · exact .inl ⟨‹_›, h.symm⟩
  · rename_i hr
    have hr' : reserved = false := by simpa using hr
    split at h
    · exact .inr (.inl ⟨hr', ‹_›, h.symm⟩)
    · exact .inr (.inr ⟨_, _, hr', ‹_›, h.symm⟩)

/-- The checks pass. -/
theorem withEndpoint_ok {e : Nat} {s : State} {c : EpCfg} {p : Ep} (body : EpCfg → Ep → Result)
    (he : s.ep? e = some (c, p)) : withEndpoint e false s body = body c p := by
  simp [withEndpoint, he]

/-! ### Host transfers -/

/-- Bytes of HOST memory keep the queue good and its storage written (41_endpoint_commands.md R140). -/
theorem Queue.Inv.hostToQueue {c : EpCfg} {q : Queue} (h : Queue.Inv c q) (k : Config) (m : Mem)
    (n : Nat) (a : Word) :
    Queue.Inv c (hostToQueue k m n a q).2 ∧
      ∀ j, (Mem.read q.mem j).isSome → (Mem.read (hostToQueue k m n a q).2.mem j).isSome := by
  induction n generalizing a q with
  | zero => exact ⟨h, fun _ hj => hj⟩
  | succ n ih =>
    unfold Machine.hostToQueue
    split
    · obtain ⟨h1, h2⟩ := ih (h.push (hostRead m a)) (a + 1)
      exact ⟨h1, fun j hj => h2 j (Queue.isSome_push hj _)⟩
    · exact ⟨h, fun _ hj => hj⟩

/-- Bytes leave a good queue without reading an unwritten byte, and everything stays good
(41_endpoint_commands.md R141). -/
theorem Queue.Inv.queueToHost {c : EpCfg} {q : Queue} (h : Queue.Inv c q) (k : Config) {m : Mem}
    (hm : Mem.wf m) (n : Nat) (a : Word) :
    ∃ b r t, queueToHost k n a q m = some (b, r, t) ∧ Queue.Inv c r ∧ r.mem = q.mem ∧ Mem.wf t := by
  induction n generalizing a q m with
  | zero => exact ⟨true, q, m, rfl, h, rfl, hm⟩
  | succ n ih =>
    obtain ⟨v, q', hp⟩ := h.pop_isSome
    unfold Machine.queueToHost
    simp only [hp]
    split
    · obtain ⟨b, r, t, e1, e2, e3, e4⟩ := ih (h.pop hp) (Mem.wf_hostWrite hm a v) (a + 1)
      exact ⟨b, r, t, e1, e2, e3.trans (Queue.pop_mem hp), e4⟩
    · refine ⟨false, _, m, rfl, ?_, ?_, hm⟩
      · split
        · exact h.pop hp
        · exact h
      · split
        · exact Queue.pop_mem hp
        · rfl

end Sys2Proof.Machine
end

