-- ==== Sys2Proof/Laws/Control.lean ====
section
/-!
SUPPORT. What the dispatcher does to the machine's invariant (44_control_fsm.md R240 to R265): with the
request's eight bytes written it reads no unwritten byte, and it keeps the invariant.
-/

namespace Sys2Proof.Machine

/-- The request view exists when its eight bytes are written (R251). -/
theorem requestView_isSome {m : Mem} (h : requestWritten m) : ∃ r, requestView m = some r := by
  obtain ⟨vs, hv⟩ := Mem.readAll_isSome (m := m) (k := 0) (n := 8) (fun i hi => by simpa using h i hi)
  obtain ⟨hl, -⟩ := Mem.readAll_eq_some hv
  match vs, hl, hv with
  | [b0, b1, b2, b3, b4, b5, b6, b7], _, hv => exact ⟨_, by unfold requestView; rw [hv]⟩

/-- A good state stays good when endpoint 0 becomes another good one and the control state changes. -/
theorem State.Inv.control {s : State} (h : State.Inv s) {c : EpCfg} {p r : Ep}
    (he : s.ep? 0 = some (c, p)) (hr : Ep.Inv c r) (hk : Ep.Kept p r) (n : CtlState) :
    State.Inv (s.control r n) :=
  (h.setEp_kept he hr hk).congr rfl rfl h.hostMem h.status rfl rfl

theorem Ep.Kept.startIn (p : Ep) : Ep.Kept p p.startIn := .of_eq rfl rfl rfl

theorem Ep.Kept.doFlush (p : Ep) : Ep.Kept p p.doFlush := .of_eq rfl rfl rfl

theorem Ep.Kept.doStall (p : Ep) : Ep.Kept p p.doStall := .of_eq rfl rfl rfl

theorem Ep.Kept.enqueueTx (p : Ep) (src : List Byte) : Ep.Kept p (p.enqueueTx src) := by
  unfold Ep.enqueueTx
  simp only
  split <;> exact ⟨rfl, rfl, fun _ hj => Queue.isSome_pushAll hj _⟩

/-- Every request rule keeps a good state good (R252 to R259). -/
theorem State.Inv.handleRequest {s : State} (h : State.Inv s) {c : EpCfg} {p0 p : Ep}
    (he : s.ep? 0 = some (c, p0)) (hp : Ep.Inv c p) (hk : Ep.Kept p0 p) (r : Request) :
    State.Inv (s.handleRequest p r) := by
  have hrespond : ∀ src, State.Inv (s.respond p src) := fun src =>
    h.control he (hp.enqueueTx src).doFlush
      ((hk.trans (Ep.Kept.enqueueTx p src)).trans (Ep.Kept.doFlush _)) _
  have hstall : State.Inv (s.control p.doStall .setup) :=
    h.control he hp.doStall (hk.trans (Ep.Kept.doStall p)) _
  unfold State.handleRequest
  split
  · unfold State.getDescriptor
    split
    · exact hrespond _
    · split <;> exact hrespond _
    · exact h.control he hp hk _
    · exact hstall
  · exact (h.control he (hp.of_flags (r := { p with ien := setBit p.ien bitIn true }) hp.queue rfl rfl
      rfl rfl (hp.setupHeld.of_same rfl rfl)) (hk.trans (.of_eq rfl rfl rfl)) .awaitInForAddress).congr
      rfl rfl h.hostMem h.status rfl rfl
  · exact h.control he hp.doFlush (hk.trans (Ep.Kept.doFlush p)) _
  · exact hrespond _
  · exact hstall

/-- The transition on a batch reads no unwritten byte and keeps a good state good (R242 to R248). -/
theorem State.Inv.transition {s : State} (h : State.Inv s) {c : EpCfg} {p : Ep}
    (he : s.ep? 0 = some (c, p)) {t : Token} (ht : tokHas t tokSetup → requestWritten p.q.mem) :
    ∃ s', s.transition t c p = some s' ∧ State.Inv s' := by
  have hctl : ∀ n, State.Inv { s with ctlState := n } := fun n =>
    h.congr rfl rfl h.hostMem h.status rfl rfl
  have hp := h.endpoints 0 c p he
  unfold State.transition
  split
  · split
    · obtain ⟨r, hr⟩ := requestView_isSome (ht ‹_›)
      rw [hr]
      exact ⟨_, rfl, h.handleRequest he (hp.withQueue hp.queue.reset) (.of_eq rfl rfl rfl) r⟩
    · exact ⟨s, rfl, h⟩
  · refine ⟨_, rfl, ?_⟩
    split
    · exact h
    · exact hctl _
  · split
    · refine ⟨_, rfl, ?_⟩
      have h1 := hp.clearTxAck (h.slot he)
      refine (h.control (r := { p.clearTxAck c with q := (p.clearTxAck c).q.reset }) he
        (h1.withQueue h1.queue.reset)
        ((Ep.Kept.clearTxAck c p).trans (.of_eq rfl rfl rfl)) .setup).congr
        rfl rfl h.hostMem h.status rfl rfl
    · split
      · exact ⟨_, rfl, hctl _⟩
      · exact ⟨s, rfl, h⟩

end Sys2Proof.Machine
end

