-- ==== Sys2Proof/Laws/Decode.lean ====
section
/-!
SUPPORT. The fields of a command word (30_encoding.md R92), the opcode map (R95, R96), and the checks of
60_exceptions.md R282 in the words the statements use.
-/

namespace Sys2Proof

/-- A word is its three fields, high to low (R92). -/
theorem word_eq_fields (w : Word) : w = fieldRsv w ++ fieldEp w ++ fieldOp w := by
  unfold fieldRsv fieldEp fieldOp
  apply BitVec.eq_of_getLsbD_eq
  intro i hi
  simp only [BitVec.getLsbD_append, BitVec.getLsbD_extractLsb']
  rcases Nat.lt_or_ge i 8 with h | h
  · simp [h]
  · rcases Nat.lt_or_ge i 12 with h2 | h2
    · simp [show ¬ i < 8 by omega, show i - 8 < 4 by omega, show 8 + (i - 8) = i by omega]
    · simp [show ¬ i < 8 by omega, show ¬ i - 8 < 4 by omega, show 12 + (i - 8 - 4) = i by omega,
        show i - 8 - 4 < 20 by omega]

/-- The command an opcode selects has that opcode and names that endpoint (R95). -/
theorem opcodeRow_spec {op e : Nat} {i : Instr} (h : opcodeRow op e = some i) :
    (opcodeOf i).toNat = op ∧ (i = .devSetAddress ∨ i.endpoint = e) := by
  unfold opcodeRow at h
  split at h <;>
    first
    | (cases h; exact ⟨rfl, .inr rfl⟩)
    | (cases h; exact ⟨rfl, .inl rfl⟩)
    | cases h

/-- The opcodes with no row are exactly those outside the map (R96). -/
theorem opcodeRow_eq_none {n e : Nat} : opcodeRow n e = none ↔ ¬ Machine.legalOpcode n := by
  rcases Nat.lt_or_ge n 25 with h | h
  · interval_cases n <;> simp [opcodeRow]
  · obtain ⟨k, rfl⟩ := Nat.exists_eq_add_of_le' h
    refine iff_of_true rfl ?_
    unfold Machine.legalOpcode; omega

namespace Machine

/-- The endpoint check is that the endpoint is not configured (60_exceptions.md R280). -/
theorem State.badEndpoint_iff {s : State} (hl : s.eps.length = s.cfg.eps.length) (e : Nat) :
    s.badEndpoint e = true ↔ s.ep? e = none := by
  unfold State.badEndpoint State.ep?
  cases h1 : s.cfg.eps[e]? with
  | none => simp
  | some c =>
    have : e < s.eps.length := by rw [hl]; exact (List.getElem?_eq_some_iff.1 h1).1
    rw [List.getElem?_eq_getElem this]
    by_cases hk : c.kind = .unconf <;> simp [hk]

/-- ARG_B's bits from `k` up are 0 exactly when the mask of those bits finds none (30_encoding.md R93). -/
theorem extract_eq_zero_iff (b : Half) {k : Nat} (hk : k < 16) :
    b.extractLsb' k (16 - k) = 0#(16 - k) ↔ b &&& (BitVec.allOnes 16 <<< k) = 0#16 := by
  constructor
  · intro h
    apply BitVec.eq_of_getLsbD_eq
    intro i hi
    have := congrArg (fun v => v.getLsbD (i - k)) h
    simp only [BitVec.getLsbD_extractLsb', BitVec.getLsbD_zero] at this
    rw [BitVec.getLsbD_and, BitVec.getLsbD_shiftLeft]
    rcases Nat.lt_or_ge i k with h8 | h8
    · simp [h8]
    · rw [show k + (i - k) = i by omega] at this
      have h3 : i - k < 16 - k := by omega
      simp [h3] at this
      rw [this, Bool.false_and]; simp
  · intro h
    apply BitVec.eq_of_getLsbD_eq
    intro i hi
    have := congrArg (fun v => v.getLsbD (k + i)) h
    simp only [BitVec.getLsbD_and, BitVec.getLsbD_shiftLeft, BitVec.getLsbD_zero,
      BitVec.getLsbD_allOnes] at this
    simp only [BitVec.getLsbD_extractLsb', BitVec.getLsbD_zero]
    simpa [show k + i < 16 by omega, show i < 16 by omega, hi] using this

end Machine

end Sys2Proof
end

