-- ==== Sys2Proof/Laws/Step.lean ====
section
/-!
SUPPORT. What one step is: the next input acting on the state with that input taken
(log entries 1 and 2).
-/

namespace Sys2Proof.Machine

/-- With a machine for the configuration, a step is the next input acting. -/
theorem step_eq {s : State} (h : s.shapeOk = true) : step s = runInput s.nextInput s.advance := by
  unfold step State.nextInput State.advance
  rw [if_pos h]
  cases s.inputs <;> rfl

/-- Without one, it is refused (00_scope.md R10). -/
theorem step_refused {s : State} (h : s.shapeOk = false) :
    step s = .refused .illFormedConfiguration := by
  unfold step
  rw [if_neg (by simp [h])]

/-- A step that ends in a next state is the next input acting. -/
theorem step_next {s t : State} (h : step s = .next t) :
    s.shapeOk = true ∧ runInput s.nextInput s.advance = .next t := by
  cases hs : s.shapeOk with
  | true => exact ⟨rfl, (step_eq hs).symm.trans h⟩
  | false => rw [step_refused hs] at h; cases h

/-- Taking the input changes nothing but the model's list and draw counter. -/
theorem State.advance_eq (s : State) :
    s.advance = { s with inputs := s.advance.inputs, draws := s.advance.draws } := by
  unfold State.advance
  split <;> rfl

@[simp] theorem State.advance_cfg (s : State) : s.advance.cfg = s.cfg := by
  rw [State.advance_eq]
@[simp] theorem State.advance_cmd (s : State) : s.advance.cmd = s.cmd := by
  rw [State.advance_eq]
@[simp] theorem State.advance_argA (s : State) : s.advance.argA = s.argA := by
  rw [State.advance_eq]
@[simp] theorem State.advance_argB (s : State) : s.advance.argB = s.argB := by
  rw [State.advance_eq]
@[simp] theorem State.advance_argC (s : State) : s.advance.argC = s.argC := by
  rw [State.advance_eq]
@[simp] theorem State.advance_faddr (s : State) : s.advance.faddr = s.faddr := by
  rw [State.advance_eq]
@[simp] theorem State.advance_ctlState (s : State) : s.advance.ctlState = s.ctlState := by
  rw [State.advance_eq]
@[simp] theorem State.advance_ctlAddr (s : State) : s.advance.ctlAddr = s.ctlAddr := by
  rw [State.advance_eq]
@[simp] theorem State.advance_tokenLatch (s : State) : s.advance.tokenLatch = s.tokenLatch := by
  rw [State.advance_eq]
@[simp] theorem State.advance_tokenPending (s : State) : s.advance.tokenPending = s.tokenPending := by
  rw [State.advance_eq]
@[simp] theorem State.advance_eps (s : State) : s.advance.eps = s.eps := by
  rw [State.advance_eq]
@[simp] theorem State.advance_faultMmio (s : State) : s.advance.faultMmio = s.faultMmio := by
  rw [State.advance_eq]
@[simp] theorem State.advance_faultHost (s : State) : s.advance.faultHost = s.faultHost := by
  rw [State.advance_eq]
@[simp] theorem State.advance_faultUnwritten (s : State) :
    s.advance.faultUnwritten = s.faultUnwritten := by
  rw [State.advance_eq]
@[simp] theorem State.advance_history (s : State) : s.advance.history = s.history := by
  rw [State.advance_eq]
@[simp] theorem State.advance_hostMem (s : State) : s.advance.hostMem = s.hostMem := by
  rw [State.advance_eq]
@[simp] theorem State.advance_ep? (s : State) (e : Nat) : s.advance.ep? e = s.ep? e :=
  State.ep?_congr (State.advance_cfg s) (State.advance_eps s) e

end Sys2Proof.Machine
end

