-- ==== Sys2Proof/Laws/Transfer.lean ====
section
/-!
SUPPORT. What the transfers between HOST memory and a queue do, byte by byte (41_endpoint_commands.md
R140, R141, 20_memory.md R73): the bytes moved when every access is admitted, the bytes moved up to a
refused one, and what each transfer leaves alone.
-/

namespace Sys2Proof.Machine

/-! ### A changed endpoint -/

theorem State.ep?_setEp_self {s : State} {e : Nat} {c : EpCfg} {p r : Ep}
    (h : s.ep? e = some (c, p)) : (s.setEp e r).ep? e = some (c, r) := by
  obtain ⟨h1, h2, h3⟩ := State.ep?_eq_some.1 h
  refine State.ep?_eq_some.2 ⟨h1, ?_, h3⟩
  have := (List.getElem?_eq_some_iff.1 h2).1
  simp [this]

theorem State.setEp_eps_ne {s : State} {e j : Nat} {r : Ep} (h : j ≠ e) :
    (s.setEp e r).eps[j]? = s.eps[j]? := by
  rw [State.setEp_eps, List.getElem?_set_ne (by omega)]

/-! ### Pushing a list that fits -/

@[simp] theorem Queue.contents_length (q : Queue) : q.contents.length = q.size := by
  simp [Queue.contents]

@[simp] theorem hostBytes_length (m : Mem) (a : Word) (n : Nat) : (hostBytes m a n).length = n := by
  simp [hostBytes]

theorem hostBytes_succ (m : Mem) (a : Word) (n : Nat) :
    hostBytes m a (n + 1) = hostRead m a :: hostBytes m (a + 1) n := by
  unfold hostBytes
  rw [List.range_succ_eq_map, List.map_cons, List.map_map]
  simp only [BitVec.ofNat_eq_ofNat, BitVec.add_zero]
  congr 1
  apply List.map_congr_left
  intro i _
  simp only [Function.comp]
  congr 1
  rw [show i.succ = 1 + i by omega, BitVec.ofNat_add, ← BitVec.add_assoc]

theorem Queue.pushAll_fail {q : Queue} {vs : List Byte} (h : q.size + vs.length ≤ q.cap) :
    (q.pushAll vs).fail = q.fail := by
  induction vs generalizing q with
  | nil => rfl
  | cons v vs ih =>
    simp only [List.length_cons] at h
    have hs : q.size ≠ q.cap := by omega
    unfold Queue.pushAll
    rw [Queue.push_room hs, ih (by simp; omega)]

/-- Only the slots after the bytes held are written (40_queue_commands.md R112). -/
theorem Queue.pushAll_mem {q : Queue} {vs : List Byte} (h : q.size + vs.length ≤ q.cap) (k : Nat)
    (hk : ∀ i, i < vs.length → k ≠ (q.rd + (q.size + i)) % q.cap) :
    Mem.read (q.pushAll vs).mem k = Mem.read q.mem k := by
  induction vs generalizing q with
  | nil => rfl
  | cons v vs ih =>
    simp only [List.length_cons] at h hk
    have hs : q.size ≠ q.cap := by omega
    unfold Queue.pushAll
    rw [Queue.push_room hs, ih (by simp; omega)]
    · simp only
      rw [Mem.read_write_ne]
      exact hk 0 (by omega)
    · intro i hi
      simp only
      rw [show q.rd + (q.size + 1 + i) = q.rd + (q.size + (i + 1)) by omega]
      exact hk (i + 1) (by omega)

/-! ### HOST memory to a queue -/

/-- Every read admitted: the bytes are pushed in order. -/
theorem hostToQueue_admitted (c : Config) (m : Mem) {n : Nat} {a : Word} (q : Queue)
    (h : ∀ i, i < n → hostAdmits c false (a + BitVec.ofNat 32 i)) :
    hostToQueue c m n a q = (true, q.pushAll (hostBytes m a n)) := by
  induction n generalizing a q with
  | zero => rfl
  | succ n ih =>
    have h0 : hostAdmits c false a := by simpa using h 0 (by omega)
    unfold hostToQueue
    rw [if_pos h0, ih, hostBytes_succ]
    · rfl
    · intro i hi
      have := h (1 + i) (by omega)
      rwa [BitVec.ofNat_add, ← BitVec.add_assoc] at this

/-- Byte `k`'s read is the first one refused: the bytes before it are pushed. -/
theorem hostToQueue_refused (c : Config) (m : Mem) {k n : Nat} {a : Word} (q : Queue) (hn : k < n)
    (h : ∀ i, i < k → hostAdmits c false (a + BitVec.ofNat 32 i))
    (hk : hostAdmits c false (a + BitVec.ofNat 32 k) = false) :
    hostToQueue c m n a q = (false, q.pushAll (hostBytes m a k)) := by
  induction k generalizing n a q with
  | zero =>
    obtain ⟨n, rfl⟩ := Nat.exists_eq_succ_of_ne_zero (by omega : n ≠ 0)
    unfold hostToQueue
    rw [if_neg (by simpa using hk)]; rfl
  | succ k ih =>
    obtain ⟨n, rfl⟩ := Nat.exists_eq_succ_of_ne_zero (by omega : n ≠ 0)
    have h0 : hostAdmits c false a := by simpa using h 0 (by omega)
    unfold hostToQueue
    rw [if_pos h0, ih, hostBytes_succ]
    · rfl
    · omega
    · intro i hi
      have := h (1 + i) (by omega)
      rwa [BitVec.ofNat_add, ← BitVec.add_assoc] at this
    · rw [show k + 1 = 1 + k by omega, BitVec.ofNat_add, ← BitVec.add_assoc] at hk
      exact hk

/-- Admitted or not, bytes that would fit change only the slots after the bytes held. -/
theorem hostToQueue_frame (c : Config) (m : Mem) {n : Nat} {q : Queue} (h : q.size + n ≤ q.cap)
    (a : Word) :
    (hostToQueue c m n a q).2.cap = q.cap ∧ (hostToQueue c m n a q).2.rd = q.rd ∧
    (hostToQueue c m n a q).2.fail = q.fail ∧
    ∀ k, (∀ j, j < n → k ≠ (q.rd + (q.size + j)) % q.cap) →
      Mem.read (hostToQueue c m n a q).2.mem k = Mem.read q.mem k := by
  induction n generalizing a q with
  | zero => exact ⟨rfl, rfl, rfl, fun _ _ => rfl⟩
  | succ n ih =>
    unfold hostToQueue
    split
    · have hs : q.size ≠ q.cap := by omega
      rw [Queue.push_room hs]
      obtain ⟨e1, e2, e3, e4⟩ := ih (q := { q with
        mem := Mem.write q.mem ((q.rd + q.size) % q.cap) (hostRead m a)
        size := q.size + 1 }) (by simp; omega) (a + 1)
      refine ⟨e1, e2, e3, fun k hk => ?_⟩
      rw [e4, Mem.read_write_ne]
      · exact hk 0 (by omega)
      · intro i hi
        have := hk (i + 1) (by omega)
        rwa [show q.rd + (q.size + (i + 1)) = q.rd + (q.size + 1 + i) by omega] at this
    · exact ⟨rfl, rfl, rfl, fun _ _ => rfl⟩

/-! ### A queue to HOST memory -/

/-- An address past `a + 1` and before the wrap is not `a`. -/
theorem host_address_ne {a : Word} {i n : Nat} (hi : i < n) (hn : n + 1 < 2 ^ 32) :
    a ≠ a + 1 + BitVec.ofNat 32 i := by
  intro hc
  have h1 := congrArg BitVec.toNat hc
  simp only [BitVec.add_assoc, BitVec.toNat_add, BitVec.toNat_ofNat,
    show (1 : Word).toNat = 1 from rfl] at h1
  have := a.isLt
  omega

/-- Every write admitted: the bytes at the front leave the queue and land in order. -/
theorem queueToHost_admitted {k : Config} {c : EpCfg} {n : Nat} {a : Word} {q : Queue} {m : Mem}
    (hq : Queue.Inv c q) (hm : Mem.wf m) (hn : n ≤ q.size) (hlt : n < 2 ^ 32)
    (ha : ∀ i, i < n → hostAdmits k true (a + BitVec.ofNat 32 i)) :
    ∃ (vs : List Byte) (q' : Queue) (m' : Mem), queueToHost k n a q m = some (true, q', m') ∧
      vs.length = n ∧ q.contents = vs.map some ++ q'.contents ∧
      q'.cap = q.cap ∧ q'.rd = (q.rd + n) % q.cap ∧ q'.size = q.size - n ∧ q'.fail = q.fail ∧
      q'.mem = q.mem ∧
      (∀ i v, vs[i]? = some v → hostRead m' (a + BitVec.ofNat 32 i) = v) ∧
      (∀ b, (∀ i, i < n → b ≠ a + BitVec.ofNat 32 i) → hostRead m' b = hostRead m b) := by
  induction n generalizing a q m with
  | zero =>
    exact ⟨[], q, m, rfl, rfl, by simp, rfl, by rw [Nat.add_zero, Nat.mod_eq_of_lt hq.rd_lt], rfl, rfl,
      rfl, by simp, fun _ _ => rfl⟩
  | succ n ih =>
    have h0 : hostAdmits k true a := by simpa using ha 0 (by omega)
    have hne : q.size ≠ 0 := by omega
    obtain ⟨v, hv⟩ := hq.front hne
    have hp := Queue.pop_some hne hv
    unfold queueToHost
    simp only [hp, if_pos h0]
    obtain ⟨vs, q', m', e1, e4, e5, e6, e7, e8, e9, e10, e11, e12⟩ :=
      ih (a := a + 1) (hq.pop hp) (Mem.wf_hostWrite hm a v) (by simp; omega) (by omega) (by
        intro i hi
        have := ha (1 + i) (by omega)
        rwa [BitVec.ofNat_add, ← BitVec.add_assoc] at this)
    refine ⟨v :: vs, q', m', e1, by simp [e4], ?_, e6, ?_, ?_, e9, e10, ?_, ?_⟩
    · rw [Queue.contents_pop hq.rd_lt hne hp, e5]; rfl
    · rw [e7]; simp only; rw [Nat.mod_add_mod]; congr 1; omega
    · rw [e8]; simp only; omega
    · intro i w hi
      cases i with
      | zero =>
        have : w = v := by simpa using hi.symm
        subst this
        rw [e12 _ (by
          intro i hi
          simpa using host_address_ne hi (by omega))]
        simpa using hostRead_hostWrite_same hm a w
      | succ i =>
        have := e11 i w (by simpa using hi)
        rw [show i + 1 = 1 + i by omega, BitVec.ofNat_add, ← BitVec.add_assoc]
        exact this
    · intro b hb
      rw [e12, hostRead_hostWrite_ne]
      · simpa using hb 0 (by omega)
      · intro i hi
        have := hb (1 + i) (by omega)
        rwa [BitVec.ofNat_add, ← BitVec.add_assoc] at this

/-- Admitted or not, only the HOST bytes from `a` upward change, and no queue storage. -/
theorem queueToHost_frame {k : Config} {n : Nat} {a : Word} {q q' : Queue} {m m' : Mem} {b : Bool}
    (h : queueToHost k n a q m = some (b, q', m')) :
    q'.cap = q.cap ∧ q'.mem = q.mem ∧ (n ≤ q.size → q'.fail = q.fail) ∧
      (∀ x, (∀ i, i < n → x ≠ a + BitVec.ofNat 32 i) → hostRead m' x = hostRead m x) := by
  induction n generalizing a q m with
  | zero => cases h; exact ⟨rfl, rfl, fun _ => rfl, fun _ _ => rfl⟩
  | succ n ih =>
    unfold queueToHost at h
    split at h
    · cases h
    · rename_i v q1 hp
      have hm := Queue.pop_mem hp
      have hc : q1.cap = q.cap := by
        rcases Queue.pop_cases hp with ⟨_, _, rfl⟩ | ⟨_, _, rfl⟩ <;> rfl
      have hf : q.size ≠ 0 → q1.fail = q.fail ∧ q1.size = q.size - 1 := by
        intro h0
        rcases Queue.pop_cases hp with ⟨h1, _, rfl⟩ | ⟨_, _, rfl⟩
        · exact absurd h1 h0
        · exact ⟨rfl, rfl⟩
      split at h
      · obtain ⟨e1, e2, e3, e4⟩ := ih h
        refine ⟨e1.trans hc, e2.trans hm, fun hn => ?_, fun x hx => ?_⟩
        · have := hf (by omega)
          rw [e3 (by omega), this.1]
        · rw [e4, hostRead_hostWrite_ne]
          · simpa using hx 0 (by omega)
          · intro i hi
            have := hx (1 + i) (by omega)
            rwa [BitVec.ofNat_add, ← BitVec.add_assoc] at this
      · cases h
        refine ⟨?_, ?_, fun hn => ?_, fun _ _ => rfl⟩
        · split <;> simp [hc]
        · split <;> simp [hm]
        · have := hf (by omega)
          split <;> simp [this.1]

end Sys2Proof.Machine
end

