-- ==== Sys2Proof/Laws/Packet.lean ====
section
/-!
SUPPORT. How packets move: the bytes the fill takes from a bank and the drain puts into one
(42_engine_service.md R178, R183), the bytes a bank receives (43_bus_agent.md R213, R215, R217), and the
callback and storage that every service step keeps. Flag writes are given as masks.
-/

namespace Sys2Proof.Machine

/-! ### Flag writes as masks -/

theorem setBit_in_true : ∀ v : Bits7, setBit v bitIn true = v ||| 0x02 := by decide
theorem setBit_in_false : ∀ v : Bits7, setBit v bitIn false = v &&& 0x7D := by decide
theorem setBit_out_true : ∀ v : Bits7, setBit v bitOut true = v ||| 0x04 := by decide
theorem setBit_out_false : ∀ v : Bits7, setBit v bitOut false = v &&& 0x7B := by decide
theorem setBit_setup_false : ∀ v : Bits7, setBit v bitSetup false = v &&& 0x7E := by decide
theorem setBit_nakIn : ∀ v : Bits7, setBit v bitNakIn true = v ||| 0x08 := by decide
theorem setBit_nakOut : ∀ v : Bits7, setBit v bitNakOut true = v ||| 0x10 := by decide
theorem setBit_flowErr : ∀ v : Bits7, setBit v bitFlowErr true = v ||| 0x20 := by decide
theorem setBit_stalled : ∀ v : Bits7, setBit v bitStalled true = v ||| 0x40 := by decide

/-! ### Banks -/

theorem Ep.bank_setBank_other (p : Ep) (b : Bool) (bk : Bank) :
    (p.setBank b bk).bank (!b) = p.bank (!b) := by
  rw [Ep.bank_setBank]; simp

theorem Ep.bank_setBank_self (p : Ep) (b : Bool) (bk : Bank) : (p.setBank b bk).bank b = bk := by
  rw [Ep.bank_setBank, if_pos rfl]

/-- A packet's bytes land at 0 upward; the bytes above them stay. -/
theorem Mem.read_packet (m : Mem) (d : List Byte) :
    (∀ i, i < d.length → Mem.read (Mem.writeAll m 0 d) i = d[i]?) ∧
    (∀ i, d.length ≤ i → Mem.read (Mem.writeAll m 0 d) i = Mem.read m i) := by
  constructor <;> intro i hi <;> rw [Mem.read_writeAll]
  · rw [if_pos (by omega)]; simp
  · rw [if_neg (by omega)]

/-- The bytes of a packet read back (43_bus_agent.md R216). -/
theorem Mem.readAll_of_forall {m : Mem} {d : List Byte}
    (h : ∀ i, i < d.length → Mem.read m i = d[i]?) : Mem.readAll m 0 d.length = some d := by
  obtain ⟨vs, hv⟩ := Mem.readAll_isSome (m := m) (k := 0) (n := d.length) (fun i hi => by
    rw [Nat.zero_add, h i hi]; simp [hi])
  obtain ⟨hl, hvs⟩ := Mem.readAll_eq_some hv
  rw [hv]
  congr 1
  apply List.ext_getElem?
  intro i
  by_cases hi : i < d.length
  · rw [← h i hi, ← hvs i hi, Nat.zero_add]
  · rw [List.getElem?_eq_none (by omega), List.getElem?_eq_none (by omega)]

/-! ### The fill -/

/-- What one byte of the fill changes. -/
theorem Ep.fillByte_spec (p : Ep) (v : Byte) :
    (p.fillByte v).cur = p.cur ∧ (p.fillByte v).q = (p.q.push v).2 ∧
    (p.fillByte v).bank p.cur = { p.bank p.cur with rdp := (p.bank p.cur).rdp + 1 } ∧
    (p.fillByte v).bank (!p.cur) = p.bank (!p.cur) ∧ (p.fillByte v).dir = .out ∧
    (p.fillByte v).ien = p.ien ∧ (p.fillByte v).ipend = p.ipend ∧
    (p.fillByte v).dataReady = p.dataReady ∧ (p.fillByte v).flush = p.flush ∧
    (p.fillByte v).stall = p.stall ∧ (p.fillByte v).busPtr = p.busPtr := by
  refine ⟨by simp [Ep.fillByte], rfl, Ep.bank_setBank_self _ _ _, Ep.bank_setBank_other _ _ _, rfl, ?_, ?_,
    ?_, ?_, ?_, ?_⟩ <;> simp [Ep.fillByte]

/-- The fill first moves the unread bytes `d` that fit, then goes on from the endpoint they leave. -/
theorem Ep.fill_bytes (c : EpCfg) {d : List Byte} {p : Ep} (h1 : (p.bank p.cur).st = .held)
    (h2 : (p.bank p.cur).rdp + d.length ≤ (p.bank p.cur).cnt)
    (h3 : ∀ i, i < d.length → Mem.read (p.bank p.cur).data ((p.bank p.cur).rdp + i) = d[i]?)
    (h4 : p.q.size + d.length ≤ p.q.cap) :
    ∃ r : Ep, p.fill c = r.fill c ∧ r.q = p.q.pushAll d ∧ r.cur = p.cur ∧
      r.bank p.cur = { p.bank p.cur with rdp := (p.bank p.cur).rdp + d.length } ∧
      r.bank (!p.cur) = p.bank (!p.cur) ∧ r.dir = (if d = [] then p.dir else .out) ∧ r.ien = p.ien ∧
      r.ipend = p.ipend ∧ r.dataReady = p.dataReady ∧ r.flush = p.flush ∧ r.stall = p.stall ∧
      r.busPtr = p.busPtr := by
  induction d generalizing p with
  | nil => exact ⟨p, rfl, rfl, rfl, rfl, rfl, rfl, rfl, rfl, rfl, rfl, rfl, rfl⟩
  | cons v d ih =>
    simp only [List.length_cons] at h2 h3 h4
    obtain ⟨f1, f2, f3, f4, f5, f6, f7, f8, f9, f10, f11⟩ := Ep.fillByte_spec p v
    have hroom : p.q.size ≠ p.q.cap := by omega
    obtain ⟨r, e1, e2, e3, e4, e5, e6, e7, e8, e9, e10, e11, e12⟩ := ih (p := p.fillByte v)
      (by rw [f1, f3]; exact h1) (by rw [f1, f3]; simp only; omega)
      (by
        intro i hi
        rw [f1, f3]; simp only
        rw [show (p.bank p.cur).rdp + 1 + i = (p.bank p.cur).rdp + (i + 1) by omega, h3 (i + 1) (by omega)]
        rfl)
      (by rw [f2, Queue.push_room hroom]; simp only; omega)
    refine ⟨r, ?_, ?_, e3.trans f1, ?_, ?_, ?_, e7.trans f6, e8.trans f7, e9.trans f8, e10.trans f9,
      e11.trans f10, e12.trans f11⟩
    · rw [← e1, Ep.fill_eq, if_pos (by omega), if_pos ⟨h1, by omega⟩]
      have := h3 0 (by omega)
      simp only [Nat.add_zero, List.getElem?_cons_zero] at this
      rw [this]
    · rw [e2, f2]; rfl
    · rw [f1, f3] at e4; rw [e4]; simp only [List.length_cons]; congr 1; omega
    · rw [f1] at e5; rw [e5, f4]
    · rw [e6, f5]; simp

/-- What releasing the current bank changes (R173). -/
theorem Ep.releaseOut_spec (c : EpCfg) (p : Ep) :
    (p.releaseOut c).bank p.cur = Bank.emptied c (p.bank p.cur) ∧
    (p.releaseOut c).bank (!p.cur) = p.bank (!p.cur) ∧
    (p.releaseOut c).cur = nextBank c p.cur ∧
    (p.releaseOut c).dataReady = decide ((p.bank p.cur).cnt < c.bsize) ∧
    p.releaseOut c = { p with
      bank0 := (p.releaseOut c).bank0, bank1 := (p.releaseOut c).bank1
      cur := (p.releaseOut c).cur, dataReady := (p.releaseOut c).dataReady } :=
  ⟨Ep.bank_setBank_self _ _ _, Ep.bank_setBank_other _ _ _, rfl, rfl, by
    unfold Ep.releaseOut Ep.setBank; split <;> rfl⟩

/-- With both banks HELD and room for more than the unread bytes `d` of the current one, the fill moves `d`,
releases that bank and goes on in the other (R178). -/
theorem Ep.fill_toggle {c : EpCfg} {d : List Byte} {p : Ep} (hn : c.nbanks = 2)
    (h1 : (p.bank p.cur).st = .held) (ho : (p.bank (!p.cur)).st = .held)
    (h2 : (p.bank p.cur).rdp + d.length = (p.bank p.cur).cnt)
    (h3 : ∀ i, i < d.length → Mem.read (p.bank p.cur).data ((p.bank p.cur).rdp + i) = d[i]?)
    (h4 : p.q.size + d.length < p.q.cap) :
    ∃ r : Ep, p.fill c = r.fill c ∧ r.q = p.q.pushAll d ∧ r.cur = (!p.cur) ∧
      r.bank p.cur = Bank.emptied c (p.bank p.cur) ∧ r.bank (!p.cur) = p.bank (!p.cur) ∧
      r.dir = (if d = [] then p.dir else .out) ∧ r.ien = p.ien ∧ r.ipend = p.ipend ∧
      r.dataReady = decide ((p.bank p.cur).cnt < c.bsize) ∧ r.flush = p.flush ∧ r.stall = p.stall ∧
      r.busPtr = p.busPtr := by
  obtain ⟨r, e1, e2, e3, e4, e5, e6, e7, e8, e9, e10, e11, e12⟩ :=
    Ep.fill_bytes c h1 (by omega) h3 (by omega)
  obtain ⟨f1, f2, f3, f4, f5⟩ := Ep.releaseOut_spec c r
  have hrb : r.bank r.cur = { p.bank p.cur with rdp := (p.bank p.cur).rdp + d.length } := by rw [e3, e4]
  have hsz : r.q.size = p.q.size + d.length := by rw [e2, Queue.pushAll_size (by omega)]
  have hcap : r.q.cap = p.q.cap := by rw [e2]; simp
  refine ⟨r.releaseOut c, ?_, by simpa using e2, ?_, ?_, ?_, ?_, ?_, ?_, ?_, ?_, ?_, ?_⟩
  · rw [e1, Ep.fill_eq, if_pos (by omega), if_neg (by rw [hrb]; simp only; omega),
      if_pos ⟨hn, by rw [hrb]; exact h1, by rw [e3, e5]; exact ho⟩]
  · rw [f3, nextBank, if_pos hn, e3]
  · rw [← e3, f1, hrb, e3]; rfl
  · rw [← e3, f2, e3, e5]
  · rw [f5]; exact e6
  · rw [f5]; exact e7
  · rw [f5]; exact e8
  · rw [f4, hrb]
  · rw [f5]; exact e10
  · rw [f5]; exact e11
  · rw [f5]; exact e12

/-! ### The drain -/

/-- What one byte of the drain changes. -/
theorem Ep.drainByte_spec (p : Ep) (v : Byte) (q : Queue) :
    (p.drainByte v q).cur = p.cur ∧ (p.drainByte v q).q = q ∧
    (p.drainByte v q).bank p.cur = { p.bank p.cur with
      data := Mem.write (p.bank p.cur).data (p.bank p.cur).cnt v, cnt := (p.bank p.cur).cnt + 1 } ∧
    (p.drainByte v q).bank (!p.cur) = p.bank (!p.cur) ∧
    p.drainByte v q = { p with
      q := q, bank0 := (p.drainByte v q).bank0, bank1 := (p.drainByte v q).bank1 } :=
  ⟨by simp [Ep.drainByte], rfl, Ep.bank_setBank_self _ _ _, Ep.bank_setBank_other _ _ _, by
    unfold Ep.drainByte Ep.setBank; split <;> rfl⟩

/-- The drain's loop first moves the queue's first bytes `d`, which fit the current FILL bank, then goes on
from the endpoint they leave. -/
theorem Ep.drainAll_bytes {c : EpCfg} {d : List Byte} {rest : List (Option Byte)} {p : Ep}
    (hq : Queue.Inv c p.q) (h1 : (p.bank p.cur).st = .fill) (h2 : p.q.contents = d.map some ++ rest)
    (h3 : (p.bank p.cur).cnt + d.length ≤ c.bsize) :
    ∃ r : Ep, p.drainAll c = r.drainAll c ∧ Queue.Inv c r.q ∧ r.q.contents = rest ∧
      r.q.cap = p.q.cap ∧ r.q.fail = p.q.fail ∧
      r = { p with q := r.q, bank0 := r.bank0, bank1 := r.bank1 } ∧
      (r.bank p.cur).st = .fill ∧ (r.bank p.cur).cnt = (p.bank p.cur).cnt + d.length ∧
      (r.bank p.cur).rdp = (p.bank p.cur).rdp ∧
      (∀ i, i < d.length → Mem.read (r.bank p.cur).data ((p.bank p.cur).cnt + i) = d[i]?) ∧
      (∀ i, i < (p.bank p.cur).cnt →
        Mem.read (r.bank p.cur).data i = Mem.read (p.bank p.cur).data i) ∧
      r.bank (!p.cur) = p.bank (!p.cur) := by
  induction d generalizing p with
  | nil =>
    exact ⟨p, rfl, hq, h2, rfl, rfl, rfl, h1, rfl, rfl, by simp, fun _ _ => rfl, rfl⟩
  | cons v d ih =>
    have hs : p.q.size = d.length + rest.length + 1 := by
      rw [← Queue.contents_length, h2]; simp [Nat.add_right_comm]
    have hne : p.q.size ≠ 0 := by omega
    obtain ⟨w, hw⟩ := hq.front hne
    have hp := Queue.pop_some hne hw
    have hcp := Queue.contents_pop hq.rd_lt hne hp
    rw [h2] at hcp
    simp only [List.map_cons, List.cons_append, List.cons.injEq, Option.some.injEq] at hcp
    obtain ⟨rfl, hcp⟩ := hcp
    simp only [List.length_cons] at h3
    obtain ⟨f1, f2, f3, f4, f5⟩ :=
      Ep.drainByte_spec p v { p.q with rd := (p.q.rd + 1) % p.q.cap, size := p.q.size - 1 }
    obtain ⟨r, e1, e2, e3, e4, e5, e6, e7, e8, e9, e10, e11, e12⟩ :=
      ih (p := p.drainByte v { p.q with rd := (p.q.rd + 1) % p.q.cap, size := p.q.size - 1 })
        (by rw [f2]; exact hq.pop hp) (by rw [f1, f3]; exact h1) (by rw [f2]; exact hcp.symm)
        (by rw [f1, f3]; simp only; omega)
    rw [f1] at e7 e8 e9 e10 e11 e12
    rw [f3] at e8 e9 e10 e11
    simp only at e8 e9 e10 e11
    refine ⟨r, ?_, e2, e3, e4, e5, e6.trans (by rw [f5]), e7, ?_, e9, ?_, ?_, e12.trans f4⟩
    · rw [Ep.drainAll_eq, if_pos (by omega), if_pos ⟨h1, by omega⟩, hp]; exact e1
    · rw [e8]; simp only [List.length_cons]; omega
    · intro i hi
      cases i with
      | zero => rw [e11 _ (by omega)]; simp
      | succ i =>
        have := e10 i (by simp at hi; omega)
        rw [show (p.bank p.cur).cnt + (i + 1) = (p.bank p.cur).cnt + 1 + i by omega, this]; rfl
    · intro i hi
      rw [e11 i (by omega), Mem.read_write_ne _ _ (by omega)]

/-- What committing the current bank changes (R175). -/
theorem Ep.commit_spec (c : EpCfg) (p : Ep) :
    (p.commit c).bank p.cur = { p.bank p.cur with st := .committed } ∧
    (p.commit c).bank (!p.cur) = p.bank (!p.cur) ∧
    (p.commit c).cur = nextBank c p.cur ∧
    p.commit c = { p with
      bank0 := (p.commit c).bank0, bank1 := (p.commit c).bank1, cur := (p.commit c).cur } :=
  ⟨Ep.bank_setBank_self _ _ _, Ep.bank_setBank_other _ _ _, rfl, by
    unfold Ep.commit Ep.setBank; split <;> rfl⟩

/-- With both banks FILL and more bytes queued than the current one has room for, the drain's loop fills that
bank up with `d`, commits it and goes on in the other (R183). -/
theorem Ep.drainAll_toggle {c : EpCfg} {d : List Byte} {rest : List (Option Byte)} {p : Ep}
    (hq : Queue.Inv c p.q) (hn : c.nbanks = 2) (h1 : (p.bank p.cur).st = .fill)
    (ho : (p.bank (!p.cur)).st = .fill) (h2 : p.q.contents = d.map some ++ rest) (hr : rest ≠ [])
    (h3 : (p.bank p.cur).cnt + d.length = c.bsize) :
    ∃ r : Ep, p.drainAll c = r.drainAll c ∧ Queue.Inv c r.q ∧ r.q.contents = rest ∧
      r.q.cap = p.q.cap ∧ r.q.fail = p.q.fail ∧
      r = { p with q := r.q, bank0 := r.bank0, bank1 := r.bank1, cur := r.cur } ∧
      r.cur = (!p.cur) ∧ Bank.Sent (p.bank p.cur) (r.bank p.cur) d ∧
      r.bank (!p.cur) = p.bank (!p.cur) := by
  obtain ⟨r, e1, e2, e3, e4, e5, e6, e7, e8, e9, e10, e11, e12⟩ := Ep.drainAll_bytes hq h1 h2 (by omega)
  obtain ⟨g1, g2, g3, g4⟩ := Ep.commit_spec c r
  have hcur : r.cur = p.cur := by rw [e6]
  have hs : r.q.size ≠ 0 := by
    rw [← Queue.contents_length, e3]; exact fun h => hr (List.eq_nil_of_length_eq_zero h)
  rw [hcur] at g1 g2 g3
  refine ⟨r.commit c, ?_, by simpa using e2, by simpa using e3, by simpa using e4, by simpa using e5, ?_,
    by rw [g3, nextBank, if_pos hn], by rw [g1]; exact ⟨rfl, e8, e9, e10, e11⟩, g2.trans e12⟩
  · rw [e1, Ep.drainAll_eq c r, if_pos (by omega), if_neg (by rw [hcur]; omega),
      if_pos (by rw [hcur, e12]; exact ⟨hn, ho⟩), if_pos (by rw [hcur]; exact e7)]
  · have e : ∀ {α : Type} (f : Ep → α), f r = f { p with q := r.q, bank0 := r.bank0, bank1 := r.bank1 } :=
      fun f => congrArg f e6
    conv_lhs => rw [g4]
    rw [e Ep.flush, e Ep.dir, e Ep.dataReady, e Ep.stall, e Ep.cb, e Ep.cbctx, e Ep.ien, e Ep.ipend,
      e Ep.busPtr, Ep.commit_q]

/-- The transmit-ready acknowledgment commits the current bank if it is FILL; else it changes TXIN alone
(R176). -/
theorem Ep.clearTxAck_spec (c : EpCfg) (p : Ep) :
    p.clearTxAck c = { (if (p.bank p.cur).st = .fill then p.commit c else p) with
      ipend := (p.clearTxAck c).ipend } ∧
    (p.clearTxAck c).ipend.getLsbD bitIn =
      decide (c.kind = .inn ∧ ((p.clearTxAck c).bank (p.clearTxAck c).cur).st = .fill) ∧
    ∀ k, k ≠ bitIn → (p.clearTxAck c).ipend.getLsbD k = p.ipend.getLsbD k := by
  refine ⟨rfl, ?_, fun k hk => ?_⟩
  · unfold Ep.clearTxAck; simp only [getLsbD_setBit]; simp; rfl
  · unfold Ep.clearTxAck; simp only [getLsbD_setBit, if_neg hk]; split <;> simp

/-- How the drain ends once its loop has stopped at `r` with the bytes `rest` queued: the banks are those the
transmit-ready acknowledgment leaves (R183). -/
theorem Ep.drain_of_all {c : EpCfg} {p r : Ep} {rest : List Byte} (h : p.drainAll c = some r)
    (hf : r = { p with q := r.q, bank0 := r.bank0, bank1 := r.bank1, cur := r.cur })
    (hc : r.q.contents = rest.map some) (hcap : r.q.cap = p.q.cap) (hfail : r.q.fail = p.q.fail) :
    ∃ t, p.drain c = some t ∧ Ep.DrainEnd c p t rest ∧
      (∀ b, t.bank b = (if (r.bank r.cur).st = .fill then r.commit c else r).bank b) ∧
      t.cur = (if (r.bank r.cur).st = .fill then r.commit c else r).cur := by
  refine ⟨(r.clearTxAck c).drainDone, by rw [Ep.drain_eq, h]; rfl, ?_⟩
  obtain ⟨h1, h2, h3⟩ := Ep.clearTxAck_spec c r
  obtain ⟨_, _, _, hm⟩ := Ep.commit_spec c r
  have hb : ∀ b, (r.clearTxAck c).bank b = (if (r.bank r.cur).st = .fill then r.commit c else r).bank b := by
    intro b; rw [h1]; rfl
  have hk : r.clearTxAck c = { r with
      bank0 := (r.clearTxAck c).bank0, bank1 := (r.clearTxAck c).bank1, cur := (r.clearTxAck c).cur
      ipend := (r.clearTxAck c).ipend } := by
    rw [h1]; split
    · conv_lhs => rw [hm]
    · rfl
  generalize r.clearTxAck c = u at *
  have hq : u.q = r.q := by rw [hk]
  have hs : u.q.size = rest.length := by rw [hq, ← Queue.contents_length, hc, List.length_map]
  have hu : u.flush = p.flush ∧ u.dir = p.dir ∧ u.ien = p.ien ∧ r.ipend = p.ipend := by
    refine ⟨?_, ?_, ?_, ?_⟩
    · rw [hk, hf]
    · rw [hk, hf]
    · rw [hk, hf]
    · rw [hf]
  have hfr : u = { p with
      q := u.q, bank0 := u.bank0, bank1 := u.bank1, cur := u.cur, ipend := u.ipend } := by
    conv_lhs => rw [hk, hf]
    rw [hq]
  obtain ⟨u1, u2, u3, u4⟩ := hu
  rw [u4] at h3
  rw [← hq] at hc hcap hfail
  have hcur : u.cur = (if (r.bank r.cur).st = .fill then r.commit c else r).cur := by
    conv_lhs => rw [h1]
  by_cases h0 : rest = []
  · subst h0
    have hd : u.drainDone = { u with ien := u.ien &&& 0x7D, flush := false, dir := .none } := by
      unfold Ep.drainDone; rw [if_pos (by simpa using hs), setBit_in_false]
    rw [hd]
    refine ⟨⟨?_, hc, hcap, hfail, fun _ => ⟨rfl, rfl, by rw [← u3]⟩, fun hx => absurd rfl hx, h2, h3⟩, hb, hcur⟩
    have e1 : u.dataReady = p.dataReady ∧ u.stall = p.stall ∧ u.cb = p.cb ∧ u.cbctx = p.cbctx ∧
        u.busPtr = p.busPtr := by rw [hfr]; exact ⟨rfl, rfl, rfl, rfl, rfl⟩
    rw [e1.1, e1.2.1, e1.2.2.1, e1.2.2.2.1, e1.2.2.2.2]
  · have hd : u.drainDone = u := by
      unfold Ep.drainDone; rw [if_neg]; intro hx; exact h0 (List.eq_nil_of_length_eq_zero (hs ▸ hx))
    rw [hd]
    refine ⟨⟨?_, hc, hcap, hfail, fun hx => absurd hx h0, fun _ => ⟨u1, u2, u3⟩, h2, h3⟩, hb, hcur⟩
    conv_lhs => rw [hfr]
    rw [u1, u2, u3]

/-- The drain's loop leaves FLUSH, DIR and the enables alone. -/
theorem Ep.drainAll_flags {c : EpCfg} : ∀ (p : Ep) {r : Ep}, p.drainAll c = some r →
    r.flush = p.flush ∧ r.dir = p.dir ∧ r.ien = p.ien := by
  intro p
  induction p using Ep.drain_induct with
  | h p ih =>
    intro r h
    rw [Ep.drainAll_eq] at h
    split at h
    · split at h
      · split at h
        · cases h
        · rename_i v q hp
          simpa [Ep.drainByte] using ih _ (Ep.drainByte_turns ‹_› hp) h
      · split at h
        · rename_i hh
          split at h
          · simpa [Ep.commit] using ih _ (Ep.commit_turns hh.1 hh.2) h
          · exact ih _ (Ep.flip_turns ‹_› hh.2) h
        · cases h; exact ⟨rfl, rfl, rfl⟩
    · cases h; exact ⟨rfl, rfl, rfl⟩

/-! ### Callback and storage kept, in every state -/

theorem Ep.Kept.of_fill {c : EpCfg} : ∀ (p : Ep) {r : Ep}, p.fill c = some r → Ep.Kept p r := by
  intro p
  induction p using Ep.fill_induct with
  | h p ih =>
    intro r h
    rw [Ep.fill_eq] at h
    split at h
    · split at h
      · split at h
        · cases h
        · exact (Ep.Kept.fillByte p _).trans (ih _ (Ep.fillByte_turns _ ‹_›) h)
      · split at h
        · rename_i hh
          exact (Ep.Kept.releaseOut c p).trans (ih _ (Ep.releaseOut_turns hh.2.1 hh.2.2) h)
        · cases h; exact Ep.Kept.clearOutAck c p
    · cases h; exact .of_eq rfl rfl rfl

theorem Ep.Kept.of_drainAll {c : EpCfg} : ∀ (p : Ep) {r : Ep}, p.drainAll c = some r → Ep.Kept p r := by
  intro p
  induction p using Ep.drain_induct with
  | h p ih =>
    intro r h
    rw [Ep.drainAll_eq] at h
    split at h
    · split at h
      · split at h
        · cases h
        · rename_i hp
          exact (Ep.Kept.drainByte hp).trans (ih _ (Ep.drainByte_turns ‹_› hp) h)
      · split at h
        · rename_i hh
          split at h
          · exact (Ep.Kept.commit c p).trans (ih _ (Ep.commit_turns hh.1 hh.2) h)
          · exact (Ep.Kept.of_eq rfl rfl rfl : Ep.Kept p { p with cur := !p.cur }).trans
              (ih _ (Ep.flip_turns ‹_› hh.2) h)
        · cases h; exact .refl _
    · cases h; exact .refl _

theorem Ep.Kept.of_drain {c : EpCfg} {p r : Ep} (h : p.drain c = some r) : Ep.Kept p r := by
  rw [Ep.drain_eq] at h
  obtain ⟨q, h1, rfl⟩ := Option.map_eq_some_iff.1 h
  exact ((Ep.Kept.of_drainAll p h1).trans (Ep.Kept.clearTxAck c q)).trans (Ep.Kept.drainDone _)

theorem Ep.Kept.of_setupHandling {p r : Ep} {t u : Token} (h : p.setupHandling t = some (r, u)) :
    Ep.Kept p r := by
  unfold Ep.setupHandling at h
  split at h
  · cases h; exact .of_eq rfl rfl rfl
  · split at h
    · cases h
    · cases h; exact ⟨rfl, rfl, fun _ hj => Queue.isSome_pushAll (q := p.q.reset) hj _⟩

theorem Ep.Kept.of_service {c : EpCfg} {p r : Ep} {t : Token} (h : p.service c = some (r, t)) :
    Ep.Kept p r := by
  unfold Ep.service at h
  split at h
  · cases h
  · rename_i p' tok hw
    cases h
    suffices hk : Ep.Kept p p' from hk.trans (.of_eq rfl rfl rfl)
    unfold Ep.serviceWork at hw
    split at hw
    · cases hw; exact Ep.Kept.inAbort c p
    · split at hw
      · exact .of_setupHandling hw
      · split at hw
        · cases hw
        · rename_i p1 h1
          split at hw
          · cases hw
          · rename_i p2 h2
            cases hw
            have k1 : Ep.Kept p p1 := by
              split at h1
              · exact .of_fill _ h1
              · cases h1; exact .refl _
            have k2 : Ep.Kept p1 p' := by
              split at h2
              · exact .of_drain h2
              · cases h2; exact .refl _
            exact k1.trans k2

theorem Ep.Kept.of_inPoll {c : EpCfg} {p r : Ep} {y : Reply} (h : p.inPoll c = some (r, y)) :
    Ep.Kept p r := by
  unfold Ep.inPoll at h
  split at h
  · cases h; exact .of_eq rfl rfl rfl
  · split at h
    · split at h
      · cases h
      · cases h; exact .of_eq (by simp) (by simp) (by simp)
    · cases h; exact .of_eq rfl rfl rfl

end Sys2Proof.Machine
end

