-- ==== Sys2Proof/Laws/PerInstr.lean ====
section
/-!
SUPPORT. One statement made for every command of the opcode table: the three fields of its word
(30_encoding.md R92, R95).
-/

namespace Sys2Proof.Laws.WordFields

/-- The word of a well-formed command has its opcode in OP, its endpoint number in EP and 0 in RSV. -/
def Statement (i : Instr) : Prop :=
  WellFormed i →
    fieldOp (encode i) = opcodeOf i ∧ (fieldEp (encode i)).toNat = i.endpoint ∧ fieldRsv (encode i) = 0

/-- Three bit strings joined are read back field by field. -/
theorem fields_of_parts (e : BitVec 4) (op : BitVec 8) :
    fieldOp (0#20 ++ e ++ op) = op ∧ fieldEp (0#20 ++ e ++ op) = e ∧ fieldRsv (0#20 ++ e ++ op) = 0 := by
  unfold fieldOp fieldEp fieldRsv
  refine ⟨?_, ?_, ?_⟩ <;> apply BitVec.eq_of_getLsbD_eq <;> intro i hi <;>
    simp only [BitVec.getLsbD_extractLsb', BitVec.getLsbD_append]
  · simp [hi]
  · simp [hi]
  · simp [show ¬ 12 + i < 8 by omega, show ¬ 12 + i - 8 < 4 by omega]

/-- Every command has the fields of its word. -/
theorem of_fields (i : Instr) : Statement i := by
  intro h
  obtain ⟨h1, h2, h3⟩ := fields_of_parts (BitVec.ofNat 4 i.endpoint) (opcodeOf i)
  refine ⟨h1, ?_, h3⟩
  unfold encode
  rw [h2, BitVec.toNat_ofNat]
  exact Nat.mod_eq_of_lt h

theorem qInit (e : Nat) : Statement (.qInit e) := of_fields _
theorem qReset (e : Nat) : Statement (.qReset e) := of_fields _
theorem qPush (e : Nat) : Statement (.qPush e) := of_fields _
theorem qPop (e : Nat) : Statement (.qPop e) := of_fields _
theorem qPeek (e : Nat) : Statement (.qPeek e) := of_fields _
theorem qAvailable (e : Nat) : Statement (.qAvailable e) := of_fields _
theorem qFull (e : Nat) : Statement (.qFull e) := of_fields _
theorem qEmpty (e : Nat) : Statement (.qEmpty e) := of_fields _
theorem qFailed (e : Nat) : Statement (.qFailed e) := of_fields _
theorem qClrfail (e : Nat) : Statement (.qClrfail e) := of_fields _
theorem epWrite (e : Nat) : Statement (.epWrite e) := of_fields _
theorem epRead (e : Nat) : Statement (.epRead e) := of_fields _
theorem epFlush (e : Nat) : Statement (.epFlush e) := of_fields _
theorem epFlushComplete (e : Nat) : Statement (.epFlushComplete e) := of_fields _
theorem epDataReady (e : Nat) : Statement (.epDataReady e) := of_fields _
theorem epSetCallback (e : Nat) : Statement (.epSetCallback e) := of_fields _
theorem epSetStall (e : Nat) : Statement (.epSetStall e) := of_fields _
theorem epSetInterrupts (e : Nat) : Statement (.epSetInterrupts e) := of_fields _
theorem devSetAddress : Statement .devSetAddress := of_fields _

end Sys2Proof.Laws.WordFields
end

