-- ==== Sys2Proof/Tests/Slice0.lean ====
section
/-!
SUPPORT. The model's own tests. Expected values come from the spec's encodings (30_encoding.md R92, R95,
R100) and its vectors V<n> (95_test_vectors.md), each one step from a small state; and, for every statement
with hypotheses, a witness that meets them.
-/

namespace Sys2Proof.Tests

open Sys2Proof.Machine

-- one theorem after the other: many kernel evaluations at once would need a thread each
set_option Elab.async false

/-! ### Helpers -/

/-- The answer is a next state with the property. -/
def ok (o : Result) (p : State → Bool) : Bool :=
  match o with
  | .next t => p t
  | .fault _ => false
  | .refused _ => false

/-- The state of the vectors: power-on reset with host bytes 0x2000 .. 0x200F = 0x01 .. 0x10. -/
def por : State :=
  { State.reset with hostMem := (List.range 16).map fun i => (0x2000 + i, BitVec.ofNat 8 (i + 1)) }

/-- `s` with endpoint `e` changed by `f`. -/
def on (s : State) (e : Nat) (f : Ep → Ep) : State := { s with eps := s.eps.modify e f }

/-- `s` with the queue of endpoint `e` as given, its storage listed from index 0. -/
def queue (s : State) (e cap rd size : Nat) (fail : Bool) (bytes : List Byte) : State :=
  on s e fun p =>
    { p with q := { cap := cap, rd := rd, size := size, fail := fail, mem := Mem.writeAll [] 0 bytes } }

/-- A property of endpoint `e`. -/
def at? (t : State) (e : Nat) (p : Ep → Bool) : Bool :=
  match t.eps[e]? with
  | some r => p r
  | none => false

/-- One step with the input `a` and IMASK = 0. -/
def run (s : State) (a : Action) : Result := step { s with inputs := [⟨false, a⟩] }

/-- One CMD step: the 32-bit store of `w` to CMD. -/
def cmd (s : State) (w : Word) : Result := run s (.store 0 .word w)

/-! ### Well-formedness -/

theorem test_endpoint_must_fit : ∀ i ∈ [Instr.qInit 16, .qReset 16, .qPush 16, .qPop 16, .qPeek 16,
    .qAvailable 16, .qFull 16, .qEmpty 16, .qFailed 16, .qClrfail 16, .epWrite 16, .epRead 16,
    .epFlush 16, .epFlushComplete 16, .epDataReady 16, .epSetCallback 16, .epSetStall 16,
    .epSetInterrupts 16], ¬ WellFormed i := by decide

theorem test_endpoint_15_fits : WellFormed (.qInit 15) ∧ WellFormed .devSetAddress := by decide

/-! ### Decoding and encoding: bits 31:12 are 0, then EP, then OP (R92, R95) -/

theorem test_word_qInit :
    decode 0b00000000000000000000001000000001 = .ok (.qInit 2) ∧
    encode (.qInit 2) = 0b00000000000000000000001000000001 := by decide
theorem test_word_qReset :
    decode 0b00000000000000000000000100000010 = .ok (.qReset 1) ∧
    encode (.qReset 1) = 0b00000000000000000000000100000010 := by decide
theorem test_word_qPush :
    decode 0b00000000000000000000000100000011 = .ok (.qPush 1) ∧
    encode (.qPush 1) = 0b00000000000000000000000100000011 := by decide
theorem test_word_qPop :
    decode 0b00000000000000000000001100000100 = .ok (.qPop 3) ∧
    encode (.qPop 3) = 0b00000000000000000000001100000100 := by decide
theorem test_word_qPeek :
    decode 0b00000000000000000000010000000101 = .ok (.qPeek 4) ∧
    encode (.qPeek 4) = 0b00000000000000000000010000000101 := by decide
theorem test_word_qAvailable :
    decode 0b00000000000000000000100000000110 = .ok (.qAvailable 8) ∧
    encode (.qAvailable 8) = 0b00000000000000000000100000000110 := by decide
theorem test_word_qFull :
    decode 0b00000000000000000000101000000111 = .ok (.qFull 10) ∧
    encode (.qFull 10) = 0b00000000000000000000101000000111 := by decide
theorem test_word_qEmpty :
    decode 0b00000000000000000000010100001000 = .ok (.qEmpty 5) ∧
    encode (.qEmpty 5) = 0b00000000000000000000010100001000 := by decide
theorem test_word_qFailed :
    decode 0b00000000000000000000111000001001 = .ok (.qFailed 14) ∧
    encode (.qFailed 14) = 0b00000000000000000000111000001001 := by decide
theorem test_word_qClrfail :
    decode 0b00000000000000000000000000001010 = .ok (.qClrfail 0) ∧
    encode (.qClrfail 0) = 0b00000000000000000000000000001010 := by decide
theorem test_word_epWrite :
    decode 0b00000000000000000000001000010000 = .ok (.epWrite 2) ∧
    encode (.epWrite 2) = 0b00000000000000000000001000010000 := by decide
theorem test_word_epRead :
    decode 0b00000000000000000000111100010001 = .ok (.epRead 15) ∧
    encode (.epRead 15) = 0b00000000000000000000111100010001 := by decide
theorem test_word_epFlush :
    decode 0b00000000000000000000000100010010 = .ok (.epFlush 1) ∧
    encode (.epFlush 1) = 0b00000000000000000000000100010010 := by decide
theorem test_word_epFlushComplete :
    decode 0b00000000000000000000000100010011 = .ok (.epFlushComplete 1) ∧
    encode (.epFlushComplete 1) = 0b00000000000000000000000100010011 := by decide
theorem test_word_epDataReady :
    decode 0b00000000000000000000011000010100 = .ok (.epDataReady 6) ∧
    encode (.epDataReady 6) = 0b00000000000000000000011000010100 := by decide
theorem test_word_epSetCallback :
    decode 0b00000000000000000000111100010101 = .ok (.epSetCallback 15) ∧
    encode (.epSetCallback 15) = 0b00000000000000000000111100010101 := by decide
theorem test_word_epSetStall :
    decode 0b00000000000000000000000100010110 = .ok (.epSetStall 1) ∧
    encode (.epSetStall 1) = 0b00000000000000000000000100010110 := by decide
theorem test_word_epSetInterrupts :
    decode 0b00000000000000000000000000010111 = .ok (.epSetInterrupts 0) ∧
    encode (.epSetInterrupts 0) = 0b00000000000000000000000000010111 := by decide
theorem test_word_devSetAddress :
    decode 0b00000000000000000000000000011000 = .ok .devSetAddress ∧
    encode .devSetAddress = 0b00000000000000000000000000011000 := by decide

/-- The ends of every range of illegal opcodes (R96). -/
theorem test_illegal_opcodes : [(0x000 : Word), 0x10B, 0x20F, 0x119, 0xFFF, 0x1F0FF].all
    (fun w => decide (decode w = .error .illegalOpcode)) = true := by decide +kernel

/-- The lowest and the highest reserved bit, and DEV_SET_ADDRESS with EP ≠ 0 (R97). -/
theorem test_reserved_bits : [(0x00001103 : Word), 0x80000001, 0x00000118].all
    (fun w => decide (decode w = .error .reservedBits)) = true := by decide +kernel

/-! ### Command errors (60_exceptions.md R280 to R282) -/

/-- V17, V20, V21, V22, V27 to V30. -/
theorem test_command_errors : [((0x00000000 : Word), (1 : BitVec 4)), (0x0001F0FF, 1),
    (0x00001103, 2), (0x00000118, 2), (0x00010F01, 2), (0x00000304, 3), (0x00000501, 3),
    (0x00000101, 4)].all (fun r => ok (cmd por r.1) fun t => t.status = r.2 ∧ t.result = 0 ∧
      t.eps = por.eps ∧ t.history = [.cmd r.1 r.2 0]) = true := by decide +kernel

/-- V23 to V26: an operand's bits that must be 0. -/
theorem test_operand_errors : [((0x103 : Word), (0x100 : Half)), (0x116, 2), (0x117, 0x80),
    (0x018, 0x80)].all (fun r => ok (cmd { por with argB := r.2 } r.1) fun t =>
      t.status = 2 ∧ t.eps = por.eps ∧ t.faddr = 0) = true := by decide +kernel

/-! ### Queue commands (40_queue_commands.md) -/

/-- V31: a capacity above QMAX. -/
theorem test_qInit_capacity : ok (exec (.qInit 1) { por with argB := 17 })
    (fun t => t.status = 4 ∧ at? t 1 fun p => p.q.cap = 16) = true := by decide +kernel
/-- V45. -/
theorem test_qInit : ok (exec (.qInit 2) { queue por 2 16 0 3 true [1, 2, 3] with argB := 1 })
    (fun t => t.status = 0 ∧ t.result = 0 ∧ at? t 2 fun p =>
      p.q.cap = 1 ∧ p.q.size = 0 ∧ p.q.fail = false ∧ Mem.read p.q.mem 2 = some 3) = true := by
  decide +kernel
/-- V43: Q_RESET keeps QFAIL. -/
theorem test_qReset : ok (exec (.qReset 2) (queue por 2 16 5 3 true [0, 0, 0, 0, 0, 1, 2, 3]))
    (fun t => at? t 2 fun p =>
      p.q.rd = 0 ∧ p.q.size = 0 ∧ p.q.fail = true ∧ Mem.read p.q.mem 7 = some 3) = true := by
  decide +kernel
/-- V37: the slot wraps. -/
theorem test_qPush_wraps :
    ok (exec (.qPush 2) { queue por 2 4 3 1 false [0, 0, 0, 0x77] with argB := 0x88 })
      (fun t => t.result = 1 ∧ at? t 2 fun p => p.q.size = 2 ∧ Mem.read p.q.mem 0 = some 0x88) = true := by
  decide +kernel
/-- V2: a full queue. -/
theorem test_qPush_full : ok (exec (.qPush 2) { queue por 2 2 0 2 false [0x0A, 0x0B] with argB := 0x0C })
    (fun t => t.result = 0 ∧ at? t 2 fun p =>
      p.q.size = 2 ∧ p.q.fail = true ∧ Mem.read p.q.mem 0 = some 0x0A) = true := by decide +kernel
/-- V38: the cursor wraps. -/
theorem test_qPop_wraps : ok (exec (.qPop 2) (queue por 2 4 3 2 false [0x88, 0, 0, 0x77]))
    (fun t => t.result = 0x77 ∧ at? t 2 fun p => p.q.rd = 0 ∧ p.q.size = 1) = true := by decide +kernel
/-- V39. -/
theorem test_qPop_empty : ok (exec (.qPop 2) por)
    (fun t => t.result = 0 ∧ at? t 2 fun p => p.q.fail = true ∧ p.q.rd = 0) = true := by decide +kernel
/-- V41. -/
theorem test_qPeek : ok (exec (.qPeek 2) (queue por 2 16 0 1 false [0x34]))
    (fun t => t.result = 0x34 ∧ at? t 2 fun p => p.q.size = 1 ∧ p.q.rd = 0 ∧ p.q.fail = false) = true := by
  decide +kernel
/-- V40. -/
theorem test_qPeek_empty : ok (exec (.qPeek 2) por)
    (fun t => t.result = 0 ∧ at? t 2 fun p => p.q.fail = true) = true := by decide +kernel
/-- V42. -/
theorem test_qAvailable : ok (exec (.qAvailable 2) (queue por 2 16 0 3 false [1, 2, 3]))
    (fun t => t.result = 13) = true := by decide +kernel
/-- V45 and V42. -/
theorem test_qFull : ok (exec (.qFull 2) (queue por 2 1 0 1 false [9])) (fun t => t.result = 1) = true ∧
    ok (exec (.qFull 2) (queue por 2 16 0 3 false [1, 2, 3])) (fun t => t.result = 0) = true := by
  decide +kernel
/-- P1 step 17 and V42. -/
theorem test_qEmpty : ok (exec (.qEmpty 2) por) (fun t => t.result = 1) = true ∧
    ok (exec (.qEmpty 2) (queue por 2 16 0 3 false [1, 2, 3])) (fun t => t.result = 0) = true := by
  decide +kernel
/-- V43. -/
theorem test_qFailed : ok (exec (.qFailed 2) (queue por 2 16 0 0 true [])) (fun t => t.result = 1) = true := by
  decide +kernel
/-- V44. -/
theorem test_qClrfail : ok (exec (.qClrfail 2) (queue por 2 16 0 0 true []))
    (fun t => t.result = 0 ∧ at? t 2 fun p => p.q.fail = false) = true := by decide +kernel

/-! ### Endpoint commands (41_endpoint_commands.md) -/

/-- V47: 20 bytes offered, 16 accepted. -/
theorem test_epWrite_partial : ok (exec (.epWrite 1) { por with argA := 0x2000, argB := 20 })
    (fun t => t.result = 16 ∧ at? t 1 fun p =>
      p.q.size = 16 ∧ p.ien = 0x02 ∧ p.dir = .inn ∧ Mem.read p.q.mem 15 = some 0x10) = true := by
  decide +kernel
/-- V46: nothing written, no IN. -/
theorem test_epWrite_nothing : ok (exec (.epWrite 1) { por with argA := 0x2000, argB := 0 })
    (fun t => t.result = 0 ∧ at? t 1 fun p => p.ien = 0x00 ∧ p.dir = .none) = true := by decide +kernel
/-- V48. -/
theorem test_epRead : ok (exec (.epRead 2)
    { queue por 2 16 0 3 false [1, 2, 3] with argA := 0x3000, argB := 2 })
    (fun t => t.result = 2 ∧ hostRead t.hostMem 0x3000 = 1 ∧ hostRead t.hostMem 0x3001 = 2 ∧
      at? t 2 fun p => p.q.size = 1 ∧ p.q.rd = 2) = true := by decide +kernel
/-- V49: an empty queue is no failed pop. -/
theorem test_epRead_empty : ok (exec (.epRead 2) { por with argA := 0x3000, argB := 5 })
    (fun t => t.result = 0 ∧ t.hostMem = por.hostMem ∧ at? t 2 fun p => p.q.fail = false) = true := by
  decide +kernel
/-- V50. -/
theorem test_epFlush : ok (exec (.epFlush 2) por)
    (fun t => at? t 2 fun p => p.flush = true ∧ p.ien = 0x06 ∧ p.dir = .inn) = true := by decide +kernel
/-- V51 and V50. -/
theorem test_epFlushComplete : ok (exec (.epFlushComplete 1) por) (fun t => t.result = 1) = true ∧
    ok (exec (.epFlushComplete 2) (on por 2 fun p => { p with flush := true }))
      (fun t => t.result = 0) = true := by decide +kernel
/-- V52 and P4 step 10. -/
theorem test_epDataReady : ok (exec (.epDataReady 2) por) (fun t => t.result = 0) = true ∧
    ok (exec (.epDataReady 2) (on por 2 fun p => { p with dataReady := true }))
      (fun t => t.result = 1) = true := by decide +kernel
/-- V53. -/
theorem test_epSetCallback : ok (exec (.epSetCallback 1) { por with argA := 0x1000, argC := 7 })
    (fun t => t.result = 1 ∧ at? t 1 fun p => p.cb = 0x1000 ∧ p.cbctx = 7) = true := by decide +kernel
/-- V54. -/
theorem test_epSetCallback_zero : ok (exec (.epSetCallback 0) { por with argA := 0x1000, argC := 7 })
    (fun t => t.result = 0 ∧ t.status = 0 ∧ at? t 0 fun p => p.cb = 0) = true := by decide +kernel
/-- V55 and V56. -/
theorem test_epSetStall : ok (exec (.epSetStall 1) { por with argB := 1 })
      (fun t => at? t 1 fun p => p.stall) = true ∧
    ok (exec (.epSetStall 1) { on por 1 fun p => { p with stall := true } with argB := 0 })
      (fun t => at? t 1 fun p => !p.stall) = true := by decide +kernel
/-- V57: the interrupt request is true at once. -/
theorem test_epSetInterrupts : ok (exec (.epSetInterrupts 1) { por with argB := 0x02 })
    (fun t => t.irq 1 ∧ t.irqOutput ∧ t.regRead 0x024 = 0x2 ∧ at? t 1 fun p => p.ien = 0x02) = true := by decide +kernel
/-- V58. -/
theorem test_devSetAddress : ok (exec .devSetAddress { por with argB := 9 })
    (fun t => t.faddr = 9 ∧ t.status = 0) = true := by decide +kernel

/-! ### The service agent (42_engine_service.md) -/

/-- An OUT endpoint with bank 0 HELD, the bytes `d` in it and RXOUT pending. -/
def received (s : State) (d : List Byte) : State :=
  on s 2 fun p => { p with ipend := 0x04, busPtr := true, bank0 := p.bank0.receive d }

/-- V59: a zero-length packet. -/
theorem test_fill_empty_packet : ok (run (received por []) .svc) (fun t => at? t 2 fun p =>
    p.bank0.st = .freeRx ∧ p.dataReady ∧ p.cur ∧ p.ipend = 0 ∧ p.dir = .none ∧ p.q.size = 0) = true := by
  decide +kernel
/-- V60: a full-size packet is not the last. -/
theorem test_fill_full_packet :
    ok (run (received por [0xA0, 0xA1, 0xA2, 0xA3, 0xA4, 0xA5, 0xA6, 0xA7]) .svc) (fun t => at? t 2 fun p =>
      p.q.size = 8 ∧ Mem.read p.q.mem 7 = some 0xA7 ∧ !p.dataReady ∧ p.cur ∧ p.dir = .out ∧ p.ipend = 0)
      = true := by decide +kernel
/-- V61: both banks HELD, one step moves both packets and releases both banks. -/
theorem test_fill_two_packets :
    ok (run (on por 2 fun p => { p with
        ipend := 0x04, bank0 := p.bank0.receive [1, 2, 3], bank1 := p.bank1.receive [4, 5] }) .svc) (fun t =>
      at? t 2 fun p => p.q.size = 5 ∧ Mem.readAll p.q.mem 0 5 = some [1, 2, 3, 4, 5] ∧ !p.cur ∧ p.dataReady ∧
        p.bank0.st = .freeRx ∧ p.bank1.st = .freeRx ∧ p.ipend = 0) = true := by decide +kernel
/-- V62: the queue fills up, so OUT is disabled and the bank stays HELD. -/
theorem test_fill_backpressure :
    ok (run (received (queue por 2 8 0 0 false []) [1, 2, 3, 4, 5, 6, 7, 8]) .svc) (fun t => at? t 2 fun p =>
      p.q.size = 8 ∧ p.ien = 0x00 ∧ p.bank0.st = .held ∧ p.bank0.rdp = 8 ∧ p.ipend = 0x04) = true := by
  decide +kernel
/-- V63: a flush of an empty queue commits a zero-length packet. -/
theorem test_drain_empty_queue :
    ok (run (on por 1 fun p => { p with flush := true, ien := 0x02, dir := .inn }) .svc) (fun t =>
      t.history = [.svc 1 0x02] ∧ at? t 1 fun p => p.bank0.st = .committed ∧ p.bank0.cnt = 0 ∧ p.cur ∧
        p.ipend = 0x02 ∧ p.ien = 0x00 ∧ !p.flush ∧ p.dir = .none) = true := by decide +kernel
/-- P2 step 3: twelve bytes through two banks. -/
theorem test_drain_two_banks :
    ok (run (on (queue por 1 16 0 12 false [1, 2, 3, 4, 5, 6, 7, 8, 9, 10, 11, 12]) 1
      fun p => { p with flush := true, ien := 0x02, dir := .inn }) .svc) (fun t => at? t 1 fun p =>
        p.bank0.st = .committed ∧ p.bank0.cnt = 8 ∧ p.bank1.st = .committed ∧ p.bank1.cnt = 4 ∧
        Mem.read p.bank1.data 3 = some 12 ∧ !p.cur ∧ p.ipend = 0x00 ∧ p.ien = 0x00) = true := by
  decide +kernel

/-- Endpoint 0 with a SETUP packet HELD and RXSTP pending. -/
def setupHeld (s : State) (d : List Byte) : State :=
  on s 0 fun p => { p with ipend := 0x01, bank0 := p.bank0.receive d }

/-- V5: the request goes to the queue. -/
theorem test_setup_handling :
    ok (run (setupHeld por [0x80, 0x06, 0, 0x01, 0, 0, 0x40, 0]) .svc) (fun t =>
      t.tokenLatch = 0x01 ∧ t.tokenPending ∧ at? t 0 fun p => p.q.size = 8 ∧
        Mem.read p.q.mem 6 = some 0x40 ∧ p.ipend = 0x02 ∧ p.ien = 0x05 ∧ p.bank0.st = .fill) = true := by
  decide +kernel
/-- V67: a queue of 4 bytes cannot take it. -/
theorem test_setup_stall :
    ok (run (setupHeld (queue por 0 4 0 0 false []) [0x80, 0x06, 0, 0x01, 0, 0, 0x40, 0]) .svc) (fun t =>
      t.history = [.svc 0 0] ∧ !t.tokenPending ∧ at? t 0 fun p => p.stall ∧ p.q.size = 0 ∧
        p.ipend = 0x02) = true := by decide +kernel
/-- V9: IN and OUT together during an IN transfer. -/
theorem test_in_abort :
    ok (run (on (queue por 0 64 8 10 false []) 0 fun p => { p with
        ipend := 0x06, ien := 0x07, dir := .inn, flush := true
        bank0 := { p.bank0 with st := .held } }) .svc) (fun t =>
      t.tokenLatch = 0x06 ∧ at? t 0 fun p => p.ipend = 0x00 ∧ p.q.size = 0 ∧ p.q.rd = 0 ∧
        p.bank0.st = .fill ∧ !p.flush ∧ p.dir = .none ∧ p.ien = 0x07) = true := by decide +kernel
/-- V70: an auxiliary flag and a callback. -/
theorem test_callback :
    ok (run (on por 2 fun p => { p with cb := 0x2222, cbctx := 1, ien := 0x24, ipend := 0x20 }) .svc)
      (fun t => t.history = [.svc 2 0x20, .callback 2 0x20 0x2222 1] ∧ at? t 2 fun p => p.ipend = 0)
      = true := by decide +kernel
/-- V71: a flag that is not enabled stays. -/
theorem test_nak_serviced :
    ok (run (on por 1 fun p => { p with ien := 0x08, ipend := 0x0A }) .svc)
      (fun t => t.history = [.svc 1 0x10] ∧ at? t 1 fun p => p.ipend = 0x02) = true := by decide +kernel

/-! ### The bus side (43_bus_agent.md) -/

/-- The reply of a bus step. -/
def reply (o : Result) (t : BusTxn) (r : Reply) : Bool := ok o fun s => s.history = [.bus t r]

/-- V77 and V78: a SETUP is accepted by a stalled endpoint, an OUT after it is not. -/
theorem test_setup_reception :
    ok (run (on por 0 fun p => { p with stall := true, ipend := 0x06 })
      (.bus (.setup 0 0 [0x80, 0x06, 0, 0x01, 0, 0, 0x40, 0]))) (fun t => at? t 0 fun p =>
        !p.stall ∧ p.ipend = 0x01 ∧ p.bank0.st = .held ∧ p.bank0.cnt = 8 ∧
        Mem.read p.bank0.data 1 = some 0x06) = true ∧
    reply (run (setupHeld por [0, 0, 0, 0, 0, 0, 0, 0]) (.bus (.out 0 0 []))) (.out 0 0 []) .nak = true := by
  decide +kernel
/-- V73 to V75: nobody answers. -/
theorem test_no_answer : ∀ t ∈ [BusTxn.setup 0 1 [0, 0, 0, 0, 0, 0, 0, 0], .inn 0 2, .out 0 1 [1],
    .out 0 5 [1], .flowerr 5, .inn 9 1],
    ok (run por (.bus t)) (fun s => s.history = [.bus t .none] ∧ s.eps = por.eps) = true := by
  decide +kernel
/-- V76, V79, V80. -/
theorem test_out_refused :
    ok (run (on por 0 fun p => { p with ien := 0x01 }) (.bus (.out 0 0 [1])))
      (fun t => at? t 0 fun p => p.ipend = 0x10) = true ∧
    ok (run (on por 2 fun p => { p with stall := true }) (.bus (.out 0 2 [1])))
      (fun t => at? t 2 fun p => p.ipend = 0x40 ∧ p.bank0.st = .freeRx) = true ∧
    reply (run (on por 2 fun p => { p with ien := 0 }) (.bus (.out 0 2 [1]))) (.out 0 2 [1]) .nak = true := by
  decide +kernel
/-- V61, first BUS step. -/
theorem test_out_accepted : ok (run por (.bus (.out 0 2 [1, 2, 3])))
    (fun t => t.history = [.bus (.out 0 2 [1, 2, 3]) .ack] ∧ at? t 2 fun p =>
      p.bank0.st = .held ∧ p.bank0.cnt = 3 ∧ p.busPtr ∧ !p.cur ∧ p.ipend = 0x04) = true := by
  decide +kernel
/-- P2 step 5 and V81. -/
theorem test_in :
    ok (run (on por 1 fun p => { p with
        ipend := 0, bank0 := { st := .committed, cnt := 2, rdp := 0, data := [(0, 0x0B), (1, 0x0C)] } })
      (.bus (.inn 0 1))) (fun t => t.history = [.bus (.inn 0 1) (.data [0x0B, 0x0C])] ∧ at? t 1 fun p =>
        p.bank0.st = .fill ∧ p.bank0.cnt = 0 ∧ p.busPtr ∧ p.ipend = 0x02) = true ∧
    ok (run por (.bus (.inn 0 1))) (fun t => at? t 1 fun p => p.ipend = 0x0A) = true := by decide +kernel
/-- V9: an OUT displaces committed data. -/
theorem test_out_displaces :
    ok (run (on por 0 fun p => { p with bank0 := { p.bank0 with st := .committed } }) (.bus (.out 0 0 [])))
      (fun t => at? t 0 fun p => p.ipend = 0x06 ∧ p.bank0.st = .held ∧ p.bank0.cnt = 0) = true := by
  decide +kernel
/-- A SETUP of 7 bytes is no move (R212). -/
theorem test_short_setup :
    run por (.bus (.setup 0 0 [0, 0, 0, 0, 0, 0, 0])) = .refused .noSuchBusMove := rfl

/-! ### The dispatcher (44_control_fsm.md) -/

/-- Endpoint 0's queue holds the request and its token is latched. -/
def request (d : List Byte) : State :=
  { queue por 0 64 0 8 false d with tokenLatch := 0x01, tokenPending := true }

/-- V5. -/
theorem test_get_device_descriptor :
    ok (run (request [0x80, 0x06, 0, 0x01, 0, 0, 0x40, 0]) .disp) (fun t =>
      t.ctlState = .awaitFlush ∧ !t.tokenPending ∧ at? t 0 fun p => p.q.size = 18 ∧
        Mem.read p.q.mem 8 = some 0x34 ∧ p.flush ∧ p.ien = 0x07 ∧ p.dir = .inn) = true := by
  decide +kernel
/-- V8 and V86: the header alone exactly when wLength is its size. -/
theorem test_get_configuration :
    ok (run (request [0x80, 0x06, 0, 0x02, 0, 0, 0x09, 0]) .disp)
      (fun t => at? t 0 fun p => p.q.size = 9) = true ∧
    ok (run (request [0x80, 0x06, 0, 0x02, 0, 0, 0x04, 0]) .disp)
      (fun t => at? t 0 fun p => p.q.size = 32) = true := by decide +kernel
/-- V82 and V83. -/
theorem test_get_other_descriptor :
    ok (run (request [0x80, 0x06, 0, 0x06, 0, 0, 0x0A, 0]) .disp)
      (fun t => t.ctlState = .setup ∧ at? t 0 fun p => p.stall ∧ p.q.size = 0) = true ∧
    ok (run (request [0x80, 0x06, 0, 0x03, 0, 0, 0xFF, 0]) .disp)
      (fun t => t.ctlState = .setup ∧ at? t 0 fun p => !p.stall ∧ !p.flush ∧ p.ien = 0x05) = true := by
  decide +kernel
/-- V87, V84, V85, V88. -/
theorem test_other_requests :
    ok (run (request [0, 0x05, 0x85, 0, 0, 0, 0, 0]) .disp)
      (fun t => t.ctlAddr = 5 ∧ t.ctlState = .awaitInForAddress ∧ t.faddr = 0) = true ∧
    ok (run (request [0, 0x09, 1, 0, 0, 0, 0, 0]) .disp)
      (fun t => t.ctlState = .setup ∧ at? t 0 fun p => p.flush ∧ p.ien = 0x07) = true ∧
    ok (run (request [0x80, 0, 0, 0, 0, 0, 2, 0]) .disp)
      (fun t => t.ctlState = .awaitFlush ∧ at? t 0 fun p => p.flush ∧ p.q.size = 2) = true ∧
    ok (run (request [0x21, 0x20, 0, 0, 0, 0, 7, 0]) .disp)
      (fun t => t.ctlState = .setup ∧ at? t 0 fun p => p.stall) = true := by decide +kernel

/-- Endpoint 0 idle, the batch `tok` latched, the control state `c`. -/
def batch (tok : Token) (c : CtlState) : State :=
  { por with tokenLatch := tok, tokenPending := true, ctlState := c, ctlAddr := 5 }

/-- V6, V7, V91, V92, V93. -/
theorem test_transitions :
    ok (run (batch 0x02 .awaitInForAddress) .disp) (fun t => t.faddr = 5 ∧ t.ctlState = .setup ∧
      at? t 0 fun p => p.bank0.st = .committed ∧ p.bank0.cnt = 0) = true ∧
    ok (run (batch 0x01 .awaitInForAddress) .disp) (fun t => t.faddr = 0 ∧ t.ctlState = .setup) = true ∧
    ok (run (batch 0x10 .awaitInForAddress) .disp) (fun t => t.ctlState = .awaitInForAddress) = true ∧
    ok (run (batch 0x04 .setup) .disp) (fun t => t.ctlState = .setup ∧ t.tokenLatch = 0) = true ∧
    ok (run (on (batch 0x01 .awaitFlush) 0 fun p => { p with flush := true }) .disp)
      (fun t => t.ctlState = .awaitFlush ∧ t.tokenLatch = 0) = true ∧
    ok (run por .disp) (fun t => t.history = []) = true := by decide +kernel

/-! ### Registers and resets -/

/-- V33 to V35. -/
theorem test_register_accesses :
    ok (run por (.load 0x010 .half)) (fun t => t.faultMmio ∧ t.history = [.fault .mmioAccess]) = true ∧
    ok (run por (.load 0x02C .word)) (fun t => t.rdata = 0 ∧ !t.faultMmio) = true ∧
    ok (run { por with result := 7 } (.store 0x010 .word 0x1234)) (fun t => t.result = 7) = true := by
  decide +kernel
/-- V36. -/
theorem test_register_map : por.regRead 0x028 = 3 ∧ por.regRead 0x100 = 0x05 ∧ por.regRead 0x144 = 0x02 ∧
    por.regRead 0x188 = 0 ∧ por.regRead 0x1A0 = 0x00000002 ∧ por.regRead 0x1B4 = 0x00100807 := by
  decide +kernel
/-- V94: what a bus reset keeps. -/
theorem test_bus_reset :
    ok (run { on (queue por 1 16 3 1 true [1, 2, 3, 4]) 1 fun p => { p with cb := 0x1000, ien := 0x7F } with
        faddr := 5, argA := 0x1000 } (.bus .reset)) (fun t => t.faddr = 0 ∧ t.argA = 0x1000 ∧
      at? t 1 fun p => p.cb = 0x1000 ∧ p.ien = 0x00 ∧ p.ipend = 0x02 ∧ p.q.size = 0 ∧ !p.q.fail ∧
        Mem.read p.q.mem 3 = some 4) = true := by decide +kernel
/-- V95: what a power-on reset does not. -/
theorem test_power_on :
    ok (run { queue por 1 16 3 1 true [1, 2, 3, 4] with argA := 0x1000, faultHost := true } .powerOn)
      (fun t => t.argA = 0 ∧ !t.faultHost ∧ t.regRead 0x028 = 3 ∧
        at? t 1 fun p => Mem.read p.q.mem 3 = none ∧ p.q.rd = 0) = true := by decide +kernel
/-- The first command after reset (log entry 1): a Q_AVAILABLE of endpoint 2. -/
theorem test_first_command : ok (step (State.reset.withFetchWord 32 0x206))
    (fun t => t.cmd = 0x206 ∧ t.result = 16 ∧ t.status = 0) = true := by decide +kernel

/-! ### A state for the witnesses

Endpoint 0 has a SETUP packet waiting; endpoint 1 has sent one packet and holds two bytes, wrapped, to send;
endpoint 2 has received one packet. -/

def cCtl : EpCfg := ⟨.control, 1, 8, 64⟩
def cIn : EpCfg := ⟨.inn, 2, 8, 16⟩
def cOut : EpCfg := ⟨.out, 2, 8, 16⟩

/-- GET_DESCRIPTOR(DEVICE) as it lies in storage. -/
def getDescriptor : Mem :=
  [(0, 0x80), (1, 0x06), (2, 0), (3, 0x01), (4, 0), (5, 0), (6, 0x40), (7, 0)]

def pCtl : Ep :=
  { Ep.por cCtl with
    ipend := 0x01
    bank0 := { st := .held, cnt := 8, rdp := 0, data := getDescriptor }
    q := { cap := 64, rd := 0, size := 0, fail := false, mem := getDescriptor } }

def pIn : Ep :=
  { Ep.por cIn with
    flush := true, dir := .inn, ien := 0x02, cur := true
    bank0 := { st := .committed, cnt := 2, rdp := 0, data := [(0, 0x0E), (1, 0x0F)] }
    q := { cap := 16, rd := 15, size := 2, fail := false, mem := [(0, 0x0B), (15, 0x0A)] } }

def pOut : Ep :=
  { Ep.por cOut with
    ipend := 0x04, busPtr := true
    bank0 := { st := .held, cnt := 3, rdp := 0, data := [(0, 1), (1, 2), (2, 3)] } }

def sampleOf (a b d : Ep) : State :=
  { State.por Config.reference with
    eps := [a, b, d], argA := 0x2000, argB := 2, argC := 7, hostMem := [(0x2000, 0x01), (0x2001, 0x02)] }

def sample : State := sampleOf pCtl pIn pOut

/-- `sample` with ARG_B. -/
def args (b : Half) : State := { sample with argB := b }

theorem pCtl_inv : Ep.Inv cCtl pCtl where
  queue := ⟨by decide, by decide, by decide, by decide, by decide, by decide, by decide⟩
  bank0 := ⟨by decide, by decide, by decide, by decide, by decide, by decide, by decide, by decide⟩
  bank1 := ⟨by decide, by decide, by decide, by decide, by decide, by decide, by decide, by decide⟩
  pingPong := ⟨by decide, by decide, by decide, by decide⟩
  setupHeld := ⟨by decide, by decide, by decide⟩

theorem pIn_inv : Ep.Inv cIn pIn where
  queue := ⟨by decide, by decide, by decide, by decide, by decide, by decide, by decide⟩
  bank0 := ⟨by decide, by decide, by decide, by decide, by decide, by decide, by decide, by decide⟩
  bank1 := ⟨by decide, by decide, by decide, by decide, by decide, by decide, by decide, by decide⟩
  pingPong := ⟨by decide, by decide, by decide, by decide⟩
  setupHeld := ⟨by decide, by decide, by decide⟩

theorem pOut_inv : Ep.Inv cOut pOut where
  queue := ⟨by decide, by decide, by decide, by decide, by decide, by decide, by decide⟩
  bank0 := ⟨by decide, by decide, by decide, by decide, by decide, by decide, by decide, by decide⟩
  bank1 := ⟨by decide, by decide, by decide, by decide, by decide, by decide, by decide, by decide⟩
  pingPong := ⟨by decide, by decide, by decide, by decide⟩
  setupHeld := ⟨by decide, by decide, by decide⟩

theorem sampleOf_ep {a b d : Ep} : (sampleOf a b d).ep? 0 = some (cCtl, a) ∧
    (sampleOf a b d).ep? 1 = some (cIn, b) ∧ (sampleOf a b d).ep? 2 = some (cOut, d) :=
  ⟨rfl, rfl, rfl⟩

theorem sampleOf_inv {b d : Ep} (hb : Ep.Inv cIn b) (hd : Ep.Inv cOut d) :
    State.Inv (sampleOf pCtl b d) where
  config := (by decide : configOk Config.reference = true)
  slots := rfl
  endpoints := by
    intro e c p h
    match e, h with
    | 0, h => cases h; exact pCtl_inv
    | 1, h => cases h; exact hb
    | 2, h => cases h; exact hd
    | e + 3, h => cases h
  hostMem := (by decide : Mem.wf sample.hostMem = true)
  status := (by decide : sample.status ≤ 4)
  pending := rfl
  request := fun h => absurd h (by decide : ¬ tokHas 0 tokSetup = true)
  noCallback0 := by intro c p h; cases h; decide

theorem sample_inv : State.Inv sample := sampleOf_inv pIn_inv pOut_inv

/-! ### Witnesses: encoding and commands -/

theorem witness_DecodeOfEncode : WellFormed (.epRead 15) ∧ WellFormed (.qInit 0) := by decide
theorem witness_EncodeOfDecode : decode 0x00000F11 = .ok (.epRead 15) := by decide
theorem witness_IllegalOpcodes :
    [(0x00 : Word), 0x0B, 0x0F, 0x19, 0xFF].all
      (fun w => decide (decode w = .error .illegalOpcode)) = true ∧
    [(0x01 : Word), 0x0A, 0x10, 0x18].all
      (fun w => decide (decode w ≠ .error .illegalOpcode)) = true := by decide +kernel
theorem witness_StepRunsDecodedCommand : (sample.shapeOk = true ∧
      ∃ rest, ({ sample with inputs := [⟨true, .store sample.cfg.regBase .word 0x18⟩] } : State).inputs
        = ⟨true, .store sample.cfg.regBase .word 0x18⟩ :: rest) ∧
    ({ sample with inputs := [⟨true, .store sample.cfg.regBase .word 0x18⟩] } : State).shapeOk = true ∧
    decode 0x18 = .ok .devSetAddress ∧
    decodeTableWord 32 0x18 = some .devSetAddress ∧ decodeTableWord 5 0xFF8 = some .devSetAddress :=
  ⟨⟨by decide, [], rfl⟩, by decide, by decide, by decide, by decide⟩
theorem witness_CommandCheckOrder : sample.eps.length = sample.cfg.eps.length ∧
    sample.firstError 0x00000000 = some 1 ∧ sample.firstError 0x00001001 = some 2 ∧
    sample.firstError 0x00000118 = some 2 ∧ sample.firstError 0x00000301 = some 3 ∧
    (args 0).firstError 0x00000101 = some 4 ∧ (args 17).firstError 0x00000101 = some 4 ∧
    (args 16).firstError 0x00000101 = none ∧ ok (cmdWrite 0x101 (args 16)) (fun t => t.status = 0) = true ∧
    ok (cmdWrite 0x110 { sample with cfg := { Config.reference with host := [] } })
      (fun t => t.faultHost) = true := by decide +kernel
theorem witness_QInitResult : sample.ep? 1 = some (cIn, pIn) ∧ (args 0).argB.toNat = 0 ∧
    cIn.qmax < (args 17).argB.toNat ∧ 1 ≤ (args 1).argB.toNat ∧ (args 16).argB.toNat ≤ cIn.qmax ∧
    (args 0).ep? 1 = some (cIn, pIn) := by decide +kernel
theorem witness_QResetAndClrfailResult : sample.ep? 1 = some (cIn, pIn) := rfl
theorem witness_QPushResult : (args 0x100).ep? 1 = some (cIn, pIn) ∧
    (args 0x100).argB.extractLsb' 8 8 ≠ 0 ∧ (args 0xFF).argB.extractLsb' 8 8 = 0 ∧
    pIn.q.size ≠ pIn.q.cap ∧ ∃ c p, (queue (args 0xFF) 1 2 1 2 false [1, 2]).ep? 1 = some (c, p) ∧
      p.q.size = p.q.cap :=
  ⟨rfl, by decide, by decide, by decide, _, _, rfl, by decide⟩
theorem witness_QPopAndPeekResult : sample.ep? 2 = some (cOut, pOut) ∧ pOut.q.size = 0 ∧
    sample.ep? 1 = some (cIn, pIn) ∧ pIn.q.size ≠ 0 ∧ Mem.read pIn.q.mem pIn.q.rd = some 0x0A :=
  ⟨rfl, rfl, rfl, by decide, by decide⟩
theorem witness_QueueQueriesResult : sample.ep? 1 = some (cIn, pIn) := rfl
/-- A queue of one byte, full. -/
def full1 : Ep := { pIn with q := { cap := 1, rd := 0, size := 1, fail := false, mem := [(0, 9)] } }
theorem witness_QueueRefinesFifo :
    (sample.ep? 1 = some (cIn, pIn) ∧ Queue.Inv cIn pIn.q ∧
      pIn.q.contents = [(0x0A : Byte), 0x0B].map some ∧
      fifoRun pIn.q.cap [0x0A, 0x0B] [.pop, .push 3, .pop, .pop] = some ([0x0A, 0x0B, 3], [])) ∧
    ((sampleOf pCtl full1 pOut).ep? 1 = some (cIn, full1) ∧ Queue.Inv cIn full1.q ∧
      full1.q.contents = [(9 : Byte)].map some ∧ [(9 : Byte)].length = full1.q.cap) :=
  ⟨⟨rfl, pIn_inv.queue, by decide, by decide⟩, rfl,
    ⟨by decide, by decide, by decide, by decide, by decide, by decide, by decide⟩, by decide, by decide⟩
theorem witness_EpWriteResult : sample.ep? 1 = some (cIn, pIn) ∧ Queue.Inv cIn pIn.q ∧
    2 = min sample.argB.toNat (pIn.q.cap - pIn.q.size) ∧
    (∀ i, i < 2 → hostAdmits sample.cfg false (sample.argA + BitVec.ofNat 32 i)) ∧
    0 = min (args 0).argB.toNat (pIn.q.cap - pIn.q.size) :=
  ⟨rfl, pIn_inv.queue, by decide, by decide, by decide⟩
theorem witness_EpReadResult : sample.ep? 1 = some (cIn, pIn) ∧ Queue.Inv cIn pIn.q ∧
    Mem.wf sample.hostMem ∧ 2 = min sample.argB.toNat pIn.q.size ∧
    (∀ i, i < 2 → hostAdmits sample.cfg true (sample.argA + BitVec.ofNat 32 i)) ∧
    0 = min (args 0).argB.toNat pIn.q.size :=
  ⟨rfl, pIn_inv.queue, by decide, by decide, by decide, by decide⟩
/-- The platform admits the byte 0x2000 alone. -/
def oneByteHost : State := { sample with cfg := { Config.reference with host := [⟨0x2000, 1, true, true⟩] } }
theorem witness_HostAccessRefused : oneByteHost.ep? 1 = some (cIn, pIn) ∧ Queue.Inv cIn pIn.q ∧
    Mem.wf oneByteHost.hostMem ∧ 1 < min oneByteHost.argB.toNat (pIn.q.cap - pIn.q.size) ∧
    1 < min oneByteHost.argB.toNat pIn.q.size ∧
    (∀ w, ∀ i, i < 1 → hostAdmits oneByteHost.cfg w (oneByteHost.argA + BitVec.ofNat 32 i)) ∧
    (∀ w, hostAdmits oneByteHost.cfg w (oneByteHost.argA + BitVec.ofNat 32 1) = false) :=
  ⟨rfl, pIn_inv.queue, by decide, by decide, by decide, by decide, by decide⟩
theorem witness_EpFlushResult : sample.ep? 1 = some (cIn, pIn) := rfl
theorem witness_EpQueriesResult : sample.ep? 2 = some (cOut, pOut) := rfl
theorem witness_EpSetCallbackResult :
    sample.ep? 0 = some (cCtl, pCtl) ∧ sample.ep? 1 = some (cIn, pIn) ∧ (1 : Nat) ≠ 0 :=
  ⟨rfl, rfl, by decide⟩
theorem witness_EpSetStallResult : (args 1).ep? 1 = some (cIn, pIn) ∧
    (args 1).argB.extractLsb' 1 15 = 0 ∧ (args 2).argB.extractLsb' 1 15 ≠ 0 :=
  ⟨rfl, by decide, by decide⟩
theorem witness_EpSetInterruptsResult : (args 0x7F).ep? 1 = some (cIn, pIn) ∧
    (args 0x7F).argB.extractLsb' 7 9 = 0 ∧ (args 0x80).argB.extractLsb' 7 9 ≠ 0 :=
  ⟨rfl, by decide, by decide⟩
theorem witness_DevSetAddressResult : (fieldOp 0x118 = 0x18 ∧ (0x118 : Word) ≠ 0x18) ∧
    (args 0x7F).argB.extractLsb' 7 9 = 0 ∧ (args 0x80).argB.extractLsb' 7 9 ≠ 0 := by decide

/-! ### Witnesses: frames -/

/-- The commands all answer a next state from `sample`, on a configured endpoint and on another. -/
theorem witness_frames :
    ([Instr.qInit 1, .qReset 1, .qPush 1, .qPop 1, .qPeek 1, .qClrfail 1].all fun i =>
      ok (exec i sample) fun _ => true) = true ∧
    ([Instr.qAvailable 1, .qFull 1, .qEmpty 1, .qFailed 1, .epFlushComplete 1, .epDataReady 1].all fun i =>
      ok (exec i sample) fun _ => true) = true ∧
    ([Instr.epFlush 1, .epSetCallback 1, .epSetStall 1, .epSetInterrupts 1, .devSetAddress].all fun i =>
      ok (exec i (args 1)) fun t => t.status = 0) = true ∧
    ([Instr.epWrite 1, .epRead 1, .epWrite 3, .epRead 3].all fun i => ok (exec i sample) fun _ => true) = true ∧
    sample.eps[1]? = some pIn ∧ sample.ep? 3 = none := by decide +kernel
theorem witness_QueueCommandFrame : ∃ t, exec (.qPush 1) sample = .next t ∧ sample.eps[1]? = some pIn :=
  ⟨_, rfl, rfl⟩
theorem witness_QueryFrame : ∃ t, exec (.qAvailable 1) sample = .next t := ⟨_, rfl⟩
theorem witness_EndpointControlFrame :
    ∃ t, exec (.epSetStall 1) (args 1) = .next t ∧ (args 1).eps[1]? = some pIn := ⟨_, rfl, rfl⟩
theorem witness_TransferFrame : ∃ t, exec (.epWrite 1) sample = .next t ∧
    sample.ep? 1 = some (cIn, pIn) ∧ Queue.Inv cIn pIn.q := ⟨_, rfl, rfl, pIn_inv.queue⟩

/-! ### Witnesses: rules over every step -/

/-- Endpoint 0 waits for the IN of a SET_ADDRESS(5), and the batch has it. -/
def addressWait : State :=
  { sample with ctlState := .awaitInForAddress, ctlAddr := 5, tokenLatch := 0x02, tokenPending := true }

theorem witness_AddressWrittenOnlyBy :
    ok (run (args 9) (.store 0 .word 0x18)) (fun t => t.faddr ≠ (args 9).faddr) = true ∧
    ok (run addressWait .disp) (fun t => t.faddr ≠ addressWait.faddr) = true ∧
    ok (run { sample with faddr := 5 } (.bus .reset)) (fun t => t.faddr = 0) = true ∧
    ok (run { sample with faddr := 5 } .powerOn) (fun t => t.faddr = 0) = true := by decide +kernel
theorem witness_CallbackWrittenOnlyBy : sample.ep? 1 = some (cIn, pIn) ∧
    ok (run sample (.store 0 .word 0x115)) (fun t => at? t 1 fun r => r.cb ≠ pIn.cb) = true ∧
    ok (run sample (.store 0 .word 0x115)) (fun t => (t.ep? 1).isSome) = true ∧
    ok (run (on sample 1 fun p => { p with cb := 5 }) .powerOn) (fun t => at? t 1 fun r => r.cb = 0) = true := by
  decide +kernel
theorem witness_ControlStateWrittenOnlyBy :
    ok (run addressWait .disp) (fun t => t.ctlState ≠ addressWait.ctlState ∧ t.tokenLatch ≠ 0x02) = true ∧
    ok (run sample .svc) (fun t => t.tokenLatch ≠ sample.tokenLatch) = true := by decide +kernel
theorem witness_StorageNeverCleared : sample.ep? 1 = some (cIn, pIn) ∧
    (Mem.read pIn.q.mem 15).isSome = true ∧ ok (run sample .svc) (fun t => (t.ep? 1).isSome) = true := by
  decide +kernel
theorem witness_HistoryAndFaultBitsKept :
    ok (run sample (.load 2 .word)) (fun t => t.faultMmio) = true ∧ ok (run sample .svc) (fun _ => true) = true := by
  decide +kernel
/-- One byte is held in the queue, and in a committed bank, and none is written. -/
def pInUnwritten : Ep :=
  { pIn with
    q := { pIn.q with mem := [] }
    bank0 := { pIn.bank0 with data := [] } }
theorem witness_NamedStops :
    ((sampleOf pCtl pInUnwritten pOut).ep? 1 = some (cIn, pInUnwritten) ∧ pInUnwritten.q.size ≠ 0 ∧
      Mem.read pInUnwritten.q.mem pInUnwritten.q.rd = none ∧ (sampleOf pCtl pInUnwritten pOut).argB ≠ 0) ∧
    (pInUnwritten.ipend &&& pInUnwritten.ien ≠ 0 ∧ pInUnwritten.service cIn = none ∧
      ∀ j d r, j < 1 → (sampleOf { pCtl with ien := 0 } pInUnwritten pOut).ep? j = some (d, r) →
        r.ipend &&& r.ien = 0) ∧
    ((batch 0x01 .setup).tokenPending = true ∧ (batch 0x01 .setup).ctlState = .setup ∧
      (batch 0x01 .setup).tokenLatch.getLsbD 0 = true ∧
      ∃ c p, (batch 0x01 .setup).ep? 0 = some (c, p) ∧ Mem.read p.q.mem 7 = none) ∧
    (cIn.kind = .inn ∧ pInUnwritten.stall = false ∧
      (pInUnwritten.bank pInUnwritten.busPtr).st = .committed ∧
      1 < (pInUnwritten.bank pInUnwritten.busPtr).cnt ∧
      Mem.read (pInUnwritten.bank pInUnwritten.busPtr).data 1 = none) ∧
    (List.replicate 7 (0 : Byte)).length ≠ 8 ∧
    (sample.ep? 2 = some (cOut, pOut) ∧ cOut.bsize < (List.replicate 9 (0 : Byte)).length) ∧
    ({ sample with cfg := { Config.reference with cfgHdrLen := 0 } } : State).shapeOk = false := by
  refine ⟨⟨rfl, by decide, by decide, by decide⟩, ⟨by decide, by decide, fun j d r hj h => ?_⟩,
    ⟨by decide, by decide, by decide, _, _, rfl, by decide⟩,
    ⟨rfl, by decide, by decide, by decide, by decide⟩, by decide, ⟨rfl, by decide⟩, by decide⟩
  obtain rfl : j = 0 := by omega
  cases h; decide
theorem witness_StepKeepsInvariant :
    State.Inv { sample with inputs := [⟨false, .svc⟩] } ∧ ok (run sample .svc) (fun _ => true) = true :=
  ⟨sample_inv.congr rfl rfl sample_inv.hostMem sample_inv.status rfl rfl, by decide +kernel⟩
theorem witness_InvariantStepsComplete : State.Inv sample := sample_inv
/-- Both banks of the IN endpoint wait for the host; the OUT endpoint waits for a packet. -/
def pInFull : Ep :=
  { pIn with cur := false, bank1 := { st := .committed, cnt := 0, rdp := 0, data := [] } }
theorem pInFull_inv : Ep.Inv cIn pInFull :=
  { queue := pIn_inv.queue
    bank0 := pIn_inv.bank0
    bank1 := ⟨by decide, by decide, by decide, by decide, by decide, by decide, by decide, by decide⟩
    pingPong := ⟨by decide, by decide, by decide, by decide⟩
    setupHeld := ⟨by decide, by decide, by decide⟩ }
theorem witness_PingPongOrder : State.Inv (sampleOf pCtl pInFull (Ep.por cOut)) ∧
    (sampleOf pCtl pInFull (Ep.por cOut)).ep? 1 = some (cIn, pInFull) ∧
    (pInFull.bank pInFull.cur).st = .committed ∧
    (sampleOf pCtl pInFull (Ep.por cOut)).ep? 2 = some (cOut, Ep.por cOut) ∧
    ((Ep.por cOut).bank (Ep.por cOut).cur).st = .freeRx ∧
    State.Inv sample ∧ sample.ep? 0 = some (cCtl, pCtl) ∧ cCtl.nbanks = 1 :=
  ⟨sampleOf_inv pInFull_inv (Ep.Inv.por (SlotOk.of_slotOk (by decide) (by decide))),
    rfl, rfl, rfl, rfl, sample_inv, rfl, rfl⟩
theorem witness_PingPongOrder_step :
    State.Inv { sample with inputs := [⟨false, .svc⟩] } ∧
    ok (run sample .svc) (fun t => (t.ep? 1).isSome) = true :=
  ⟨sample_inv.congr rfl rfl sample_inv.hostMem sample_inv.status rfl rfl, by decide +kernel⟩

/-! ### Witnesses: the service agent -/

theorem witness_ServiceGuard :
    (∀ e c p, (sampleOf { pCtl with ien := 0 } { pIn with ien := 0 } { pOut with ien := 0 }).ep? e
      = some (c, p) → p.ipend &&& p.ien = 0) ∧
    (sample.ep? 0 = some (cCtl, pCtl) ∧ pCtl.ipend &&& pCtl.ien ≠ 0 ∧ (pCtl.service cCtl).isSome) ∧
    (∀ j d r, j < 1 → (sampleOf { pCtl with ien := 0 } pIn pOut).ep? j = some (d, r) →
      r.ipend &&& r.ien = 0) ∧ pIn.ipend &&& pIn.ien ≠ 0 ∧ (pIn.service cIn).isSome := by
  refine ⟨fun e c p h => ?_, ⟨rfl, by decide, by decide⟩, fun j d r hj h => ?_, by decide, by decide⟩
  · match e, h with
    | 0, h => cases h; decide
    | 1, h => cases h; decide
    | 2, h => cases h; decide
    | e + 3, h => cases h
  · obtain rfl : j = 0 := by omega
    cases h; decide
theorem witness_ServiceOrder :
    ((0x06 : Bits7).getLsbD 1 = true ∧ (0x06 : Bits7).getLsbD 2 = true ∧ pIn.dir = .inn) ∧
    (¬ ((0x01 : Bits7).getLsbD 1 = true ∧ (0x01 : Bits7).getLsbD 2 = true ∧ pIn.dir = .inn) ∧
      (0x01 : Bits7).getLsbD 0 = true) ∧
    (¬ ((0x06 : Bits7).getLsbD 1 = true ∧ (0x06 : Bits7).getLsbD 2 = true ∧ pOut.dir = .inn) ∧
      (0x06 : Bits7).getLsbD 0 = false) := by decide
theorem witness_FillDeliversPacket : Ep.Inv cOut pOut ∧ (pOut.bank pOut.cur).st = .held ∧
    (cOut.nbanks = 2 → (pOut.bank (!pOut.cur)).st ≠ .held) ∧
    (pOut.bank pOut.cur).rdp + [(1 : Byte), 2, 3].length = (pOut.bank pOut.cur).cnt ∧
    (∀ i, i < [(1 : Byte), 2, 3].length →
      Mem.read (pOut.bank pOut.cur).data ((pOut.bank pOut.cur).rdp + i) = [(1 : Byte), 2, 3][i]?) ∧
    pOut.q.size + [(1 : Byte), 2, 3].length < pOut.q.cap :=
  ⟨pOut_inv, by decide, by decide, by decide, by decide, by decide⟩
/-- Both banks are HELD, with three and two bytes. -/
def pOutBoth : Ep :=
  { pOut with busPtr := false, bank1 := { st := .held, cnt := 2, rdp := 0, data := [(0, 4), (1, 5)] } }
theorem pOutBoth_inv : Ep.Inv cOut pOutBoth :=
  { queue := pOut_inv.queue
    bank0 := pOut_inv.bank0
    bank1 := ⟨by decide, by decide, by decide, by decide, by decide, by decide, by decide, by decide⟩
    pingPong := ⟨by decide, by decide, by decide, by decide⟩
    setupHeld := ⟨by decide, by decide, by decide⟩ }
/-- The first packet, and the second one's bytes `e`, are unread in the banks of `p`. -/
abbrev TwoHeld (p : Ep) (e : List Byte) : Prop :=
  cOut.nbanks = 2 ∧ (p.bank p.cur).st = .held ∧ (p.bank (!p.cur)).st = .held ∧
    (p.bank p.cur).rdp + [(1 : Byte), 2, 3].length = (p.bank p.cur).cnt ∧
    (∀ i, i < [(1 : Byte), 2, 3].length →
      Mem.read (p.bank p.cur).data ((p.bank p.cur).rdp + i) = [(1 : Byte), 2, 3][i]?) ∧
    (p.bank (!p.cur)).rdp + e.length ≤ (p.bank (!p.cur)).cnt ∧
    (∀ i, i < e.length → Mem.read (p.bank (!p.cur)).data ((p.bank (!p.cur)).rdp + i) = e[i]?)
theorem witness_FillDeliversPacket_both : Ep.Inv cOut pOutBoth ∧ TwoHeld pOutBoth [4, 5] ∧
    (pOutBoth.bank (!pOutBoth.cur)).rdp + [(4 : Byte), 5].length = (pOutBoth.bank (!pOutBoth.cur)).cnt ∧
    pOutBoth.q.size + [(1 : Byte), 2, 3].length + [(4 : Byte), 5].length < pOutBoth.q.cap :=
  ⟨pOutBoth_inv, by decide, by decide, by decide⟩
/-- A queue of `n` bytes, empty. -/
def tight (n : Nat) (p : Ep) : Ep := { p with q := { p.q with cap := n } }
theorem witness_FillBackpressure : Ep.Inv cOut (tight 3 pOut) ∧ ((tight 3 pOut).bank false).st = .held ∧
    (tight 3 pOut).cur = false ∧ (tight 3 pOut).q.size + [(1 : Byte), 2, 3].length = (tight 3 pOut).q.cap ∧
    ((tight 3 pOut).bank false).rdp + [(1 : Byte), 2, 3].length ≤ ((tight 3 pOut).bank false).cnt ∧
    (∀ i, i < [(1 : Byte), 2, 3].length →
      Mem.read ((tight 3 pOut).bank false).data (((tight 3 pOut).bank false).rdp + i)
        = [(1 : Byte), 2, 3][i]?) :=
  ⟨pOut_inv.withQueue ⟨by decide, by decide, by decide, by decide, by decide, by decide, by decide⟩,
    by decide, by decide, by decide, by decide, by decide⟩
theorem witness_FillBackpressure_both : Ep.Inv cOut (tight 4 pOutBoth) ∧ TwoHeld (tight 4 pOutBoth) [4] ∧
    [(4 : Byte)] ≠ [] ∧ (tight 4 pOutBoth).q.size + [(1 : Byte), 2, 3].length + [(4 : Byte)].length
      = (tight 4 pOutBoth).q.cap :=
  ⟨pOutBoth_inv.withQueue ⟨by decide, by decide, by decide, by decide, by decide, by decide, by decide⟩,
    by decide, by decide, by decide⟩
theorem witness_DrainSendsPacket : Ep.Inv cIn pIn ∧ (pIn.bank pIn.cur).st = .fill ∧
    pIn.q.contents = [(0x0A : Byte), 0x0B].map some ∧
    (pIn.bank pIn.cur).cnt + [(0x0A : Byte), 0x0B].length ≤ cIn.bsize :=
  ⟨pIn_inv, by decide, by decide, by decide⟩
/-- The bank being filled has room for one byte of the two, and the other is COMMITTED. -/
def pInNearlyFull : Ep :=
  { pIn with bank1 := { st := .fill, cnt := 7, rdp := 0, data := Mem.writeAll [] 0 [1, 2, 3, 4, 5, 6, 7] } }
theorem witness_DrainSendsPacket_stops : Ep.Inv cIn pInNearlyFull ∧
    pInNearlyFull.q.contents = ([(0x0A : Byte)] ++ [(0x0B : Byte)]).map some ∧ [(0x0B : Byte)] ≠ [] ∧
    (pInNearlyFull.bank pInNearlyFull.cur).st = .fill ∧
    (pInNearlyFull.bank pInNearlyFull.cur).cnt + [(0x0A : Byte)].length = cIn.bsize ∧
    (cIn.nbanks = 2 → (pInNearlyFull.bank (!pInNearlyFull.cur)).st ≠ .fill) :=
  ⟨{ queue := pIn_inv.queue
     bank0 := pIn_inv.bank0
     bank1 := ⟨by decide, by decide, by decide, by decide, by decide, by decide, by decide, by decide⟩
     pingPong := ⟨by decide, by decide, by decide, by decide⟩
     setupHeld := ⟨by decide, by decide, by decide⟩ },
    by decide, by decide, by decide, by decide, by decide⟩
/-- The same, the other bank being FILL and empty. -/
def pInTwoFree : Ep :=
  { pInNearlyFull with busPtr := true, bank0 := { st := .fill, cnt := 0, rdp := 0, data := [] } }
theorem witness_DrainSendsPacket_toggles : Ep.Inv cIn pInTwoFree ∧
    pInTwoFree.q.contents = ([(0x0A : Byte)] ++ ([(0x0B : Byte)] ++ [])).map some ∧
    [(0x0B : Byte)] ++ [] ≠ [] ∧ cIn.nbanks = 2 ∧ (pInTwoFree.bank pInTwoFree.cur).st = .fill ∧
    (pInTwoFree.bank (!pInTwoFree.cur)).st = .fill ∧
    (pInTwoFree.bank pInTwoFree.cur).cnt + [(0x0A : Byte)].length = cIn.bsize ∧
    (pInTwoFree.bank (!pInTwoFree.cur)).cnt + [(0x0B : Byte)].length ≤ cIn.bsize :=
  ⟨{ queue := pIn_inv.queue
     bank0 := ⟨by decide, by decide, by decide, by decide, by decide, by decide, by decide, by decide⟩
     bank1 := ⟨by decide, by decide, by decide, by decide, by decide, by decide, by decide, by decide⟩
     pingPong := ⟨by decide, by decide, by decide, by decide⟩
     setupHeld := ⟨by decide, by decide, by decide⟩ },
    by decide, by decide, by decide, by decide, by decide, by decide, by decide⟩
/-- Two bytes queued are more than one free byte in one bank and none in the other, which is FILL and full. -/
def pInOverfull : Ep :=
  { pInTwoFree with
    bank0 := { st := .fill, cnt := 8, rdp := 0, data := Mem.writeAll [] 0 [1, 2, 3, 4, 5, 6, 7, 8] } }
theorem witness_DrainSendsPacket_overflows : Ep.Inv cIn pInOverfull ∧
    pInOverfull.q.contents = ([(0x0A : Byte)] ++ ([] ++ [(0x0B : Byte)])).map some ∧
    (pInOverfull.bank pInOverfull.cur).st = .fill ∧ (pInOverfull.bank (!pInOverfull.cur)).st = .fill ∧
    (pInOverfull.bank pInOverfull.cur).cnt + [(0x0A : Byte)].length = cIn.bsize ∧
    [(0x0B : Byte)] ≠ [] ∧ (pInOverfull.bank (!pInOverfull.cur)).cnt + ([] : List Byte).length = cIn.bsize :=
  ⟨{ queue := pIn_inv.queue
     bank0 := ⟨by decide, by decide, by decide, by decide, by decide, by decide, by decide, by decide⟩
     bank1 := ⟨by decide, by decide, by decide, by decide, by decide, by decide, by decide, by decide⟩
     pingPong := ⟨by decide, by decide, by decide, by decide⟩
     setupHeld := ⟨by decide, by decide, by decide⟩ },
    by decide, by decide, by decide, by decide, by decide, by decide⟩
theorem witness_DrainSendsPacket_waits : Ep.Inv cIn pInFull ∧
    pInFull.q.contents = [(0x0A : Byte), 0x0B].map some ∧ slotOk cIn = true ∧ cIn.kind ≠ .unconf ∧
    (pInFull.bank pInFull.cur).st ≠ .fill :=
  ⟨pInFull_inv, by decide, by decide, by decide, by decide⟩
theorem witness_DrainCompletion :
    (∃ r, pIn.drain cIn = some r ∧ r.q.size = 0) ∧ (∃ r, pInFull.drain cIn = some r ∧ r.q.size ≠ 0) :=
  ⟨⟨_, rfl, by decide⟩, _, rfl, by decide⟩
theorem witness_SetupHandlingResult : 8 = pCtl.bank0.cnt ∧ 8 ≤ pCtl.q.cap ∧
    (∀ i, i < 8 → (Mem.read pCtl.bank0.data i).isSome) ∧
    ({ pCtl with q := { pCtl.q with cap := 7 } } : Ep).q.cap < 8 := by decide
theorem witness_InAbortResult : cIn.nbanks = 2 ∧ cCtl.nbanks ≠ 2 := by decide
theorem witness_DeliveryResult : (0x02 : Token) ≠ 0 ∧ (1 : Nat) ≠ 0 ∧ pIn.cb = 0 ∧
    ({ pIn with cb := 1 } : Ep).cb ≠ 0 := by decide
theorem witness_ServiceMakesProgress :
    (slotOk cIn = true ∧ cIn.kind ≠ .unconf ∧ Ep.Inv cIn pIn ∧ (pIn.service cIn).isSome ∧
      (pIn.ipend &&& pIn.ien).getLsbD 1 = true) ∧
    (slotOk cOut = true ∧ cOut.kind ≠ .unconf ∧ Ep.Inv cOut pOut ∧ (pOut.service cOut).isSome ∧
      (pOut.ipend &&& pOut.ien).getLsbD 2 = true) :=
  ⟨⟨by decide, by decide, pIn_inv, by decide, by decide⟩, by decide, by decide, pOut_inv, by decide,
    by decide⟩

/-! ### Witnesses: the bus side -/

/-- A packet of `n` bytes. -/
def packet (n : Nat) : List Byte := List.replicate n 0xA5

theorem witness_BusAddressing : (packet 8).length = 8 ∧
    sample.ep? 2 = some (cOut, pOut) ∧ (packet 8).length ≤ cOut.bsize ∧
    (1 : Bits7) ≠ sample.faddr ∧ sample.ep? 3 = none ∧ (0 : Bits7) = sample.faddr ∧ cOut.kind = .out ∧
    sample.ep? 1 = some (cIn, pIn) ∧ cIn.kind = .inn ∧ cIn.kind ≠ .control ∧
    (packet 8).length ≤ cIn.bsize := by decide +kernel
theorem witness_SetupReception :
    sample.ep? 0 = some (cCtl, pCtl) ∧ cCtl.kind = .control ∧ (packet 8).length = 8 := by decide +kernel
theorem witness_OutOnControlEndpoint : sample.ep? 0 = some (cCtl, pCtl) ∧ cCtl.kind = .control ∧
    (packet 8).length ≤ cCtl.bsize ∧ pCtl.stall = false ∧ pCtl.ipend.getLsbD 0 = true ∧
    (sampleOf { pCtl with stall := true } pIn pOut).ep? 0 = some (cCtl, { pCtl with stall := true }) ∧
    (sampleOf (Ep.por cCtl) pIn pOut).ep? 0 = some (cCtl, Ep.por cCtl) ∧ (Ep.por cCtl).stall = false ∧
    (Ep.por cCtl).ien.getLsbD 2 = true ∧ (Ep.por cCtl).ipend.getLsbD 0 = false ∧
    (Ep.por cCtl).bank0.st ≠ .held := by decide +kernel
theorem witness_InReply : sample.ep? 1 = some (cIn, pIn) ∧ cIn.kind = .inn ∧ pIn.stall = false ∧
    (pIn.bank pIn.busPtr).st = .committed ∧ [(0x0E : Byte), 0x0F].length = (pIn.bank pIn.busPtr).cnt ∧
    (∀ i, i < [(0x0E : Byte), 0x0F].length →
      Mem.read (pIn.bank pIn.busPtr).data i = [(0x0E : Byte), 0x0F][i]?) ∧
    sample.ep? 0 = some (cCtl, pCtl) ∧ cCtl.kind = .control ∧ (pCtl.bank pCtl.busPtr).st ≠ .committed ∧
    (sampleOf pCtl { pIn with stall := true } pOut).ep? 1 = some (cIn, { pIn with stall := true }) := by
  decide +kernel
theorem witness_OutOnOutEndpoint : sample.ep? 2 = some (cOut, pOut) ∧ cOut.kind = .out ∧
    (packet 8).length ≤ cOut.bsize ∧ pOut.stall = false ∧ pOut.ien.getLsbD 2 = true ∧
    (pOut.bank pOut.busPtr).st = .freeRx ∧
    (sampleOf pCtl pIn { pOut with stall := true }).ep? 2 = some (cOut, { pOut with stall := true }) ∧
    (sampleOf pCtl pIn { pOut with busPtr := false }).ep? 2 = some (cOut, { pOut with busPtr := false }) ∧
    (pOut.bank false).st ≠ .freeRx := by decide +kernel
theorem witness_FlowErrorReport : sample.ep? 3 = none ∧ sample.ep? 1 = some (cIn, pIn) := by decide +kernel

/-! ### Witnesses: the dispatcher, registers and resets -/

theorem witness_DispatchWithoutRequest : sample.ep? 0 = some (cCtl, pCtl) ∧ sample.tokenPending = false ∧
    (batch 0x04 .setup).ep? 0 = some (cCtl, Ep.por cCtl) ∧ (batch 0x04 .setup).tokenPending = true ∧
    (batch 0x04 .setup).tokenLatch.getLsbD 0 = false ∧ (Ep.por cCtl).flush = false ∧
    (batch 0x01 .awaitInForAddress).tokenLatch.getLsbD 1 = false ∧
    (batch 0x01 .awaitInForAddress).tokenLatch.getLsbD 0 = true ∧
    (batch 0x10 .awaitInForAddress).tokenLatch.getLsbD 0 = false ∧
    (sampleOf { pCtl with flush := true } pIn pOut).ep? 0 = some (cCtl, { pCtl with flush := true }) := by
  decide +kernel
theorem witness_AddressApplication : addressWait.ep? 0 = some (cCtl, pCtl) ∧ cCtl.kind = .control ∧
    cCtl.nbanks = 1 ∧ pCtl.cur = false ∧ addressWait.tokenPending = true ∧
    addressWait.ctlState = .awaitInForAddress ∧ addressWait.tokenLatch.getLsbD 1 = true := by
  decide +kernel
/-- The bytes of the request in a queue. -/
def requestBytes (s : State) : Option (List Byte) :=
  match s.ep? 0 with
  | some (_, p) => Mem.readAll p.q.mem 0 8
  | none => none
theorem witness_DescriptorRequests :
    (request [0x80, 6, 0, 1, 0, 0, 0x40, 0]).tokenPending = true ∧
    (request [0x80, 6, 0, 1, 0, 0, 0x40, 0]).ctlState = .setup ∧
    (request [0x80, 6, 0, 1, 0, 0, 0x40, 0]).tokenLatch.getLsbD 0 = true ∧
    requestBytes (request [0x80, 6, 0, 1, 0, 0, 0x40, 0]) = some [0x80, 6, 0, 1, 0, 0, 0x40, 0] ∧
    requestBytes (request [0x80, 6, 0, 2, 0, 0, 9, 0]) = some [0x80, 6, 0, 2, 0, 0, 9, 0] ∧
    ((0 : Byte) ++ (9 : Byte) : Half).toNat = (request []).cfg.cfgHdrLen ∧
    ((0 : Byte) ++ (10 : Byte) : Half).toNat ≠ (request []).cfg.cfgHdrLen ∧
    requestBytes (request [0x80, 6, 0, 3, 0, 0, 9, 0]) = some [0x80, 6, 0, 3, 0, 0, 9, 0] ∧
    requestBytes (request [0x80, 6, 0, 4, 0, 0, 9, 0]) = some [0x80, 6, 0, 4, 0, 0, 9, 0] := by
  decide +kernel
theorem witness_OtherRequests :
    requestBytes (request [0, 5, 5, 0, 0, 0, 0, 0]) = some [0, 5, 5, 0, 0, 0, 0, 0] ∧
    requestBytes (request [0, 9, 1, 0, 0, 0, 0, 0]) = some [0, 9, 1, 0, 0, 0, 0, 0] ∧
    requestBytes (request [0x80, 0, 0, 0, 0, 0, 2, 0]) = some [0x80, 0, 0, 0, 0, 0, 2, 0] ∧
    (request []).cfg.statusBytes.length = 2 ∧
    requestBytes (request [0, 7, 0, 0, 0, 0, 0, 0]) = some [0, 7, 0, 0, 0, 0, 0, 0] := by decide +kernel
theorem witness_RegisterAccess :
    [(0x000 : Word), 0x004, 0x008, 0x00C, 0x010, 0x4FC].all (fun a =>
      decide ((a - sample.cfg.regBase).toNat < 0x500 ∧ (a - sample.cfg.regBase).toNat % 4 = 0)) = true ∧
    ((0x4FE : Word) - sample.cfg.regBase).toNat % 4 ≠ 0 ∧ Width.half ≠ .word ∧
    0x500 ≤ ((0x500 : Word) - sample.cfg.regBase).toNat := by decide +kernel
theorem witness_RegisterMap : sample.cfg.eps.length ≤ 16 ∧ sample.ep? 3 = none ∧
    sample.ep? 1 = some (cIn, pIn) ∧ slotOk cIn = true ∧ Ep.Inv cIn pIn :=
  ⟨by decide, rfl, rfl, by decide, pIn_inv⟩
theorem witness_PowerOnResetResult : sample.cfg.eps[1]? = some cIn ∧ cIn.kind ≠ .unconf := by decide +kernel
theorem witness_BusResetResult :
    sample.eps.length = sample.cfg.eps.length ∧ sample.ep? 1 = some (cIn, pIn) := ⟨rfl, rfl⟩
theorem witness_IdleAfterReset : sample.eps.length = sample.cfg.eps.length ∧
    (∃ t, busStep .reset sample = .next t) ∧ ∃ t, runInput ⟨true, .powerOn⟩ sample = .next t :=
  ⟨rfl, ⟨_, rfl⟩, _, rfl⟩

end Sys2Proof.Tests
end

section
/-!
PROOFS. The encoding statements (30_encoding.md).
-/

namespace Sys2Proof.Machine

/-- The decoder answers ILLEGAL_OPCODE exactly when OP is outside the opcode map; the reserved bits
play no part (30_encoding.md R96, 60_exceptions.md R282). -/
theorem decode_eq_illegalOpcode_iff (w : Word) :
    decode w = .error .illegalOpcode ↔ ¬ legalOpcode (fieldOp w).toNat := by
  rw [← opcodeRow_eq_none (e := (fieldEp w).toNat)]
  unfold decode
  cases opcodeRow (fieldOp w).toNat (fieldEp w).toNat with
  | none => simp
  | some i => cases hr : reservedOk w i <;> simp [hr]

/-- The opcodes outside the map, among the 8-bit values: 0x00, 0x0B to 0x0F and 0x19 to 0xFF
(30_encoding.md R96). -/
theorem not_legalOpcode_iff {op : Nat} (h : op < 0x100) :
    ¬ legalOpcode op ↔ op = 0x00 ∨ (0x0B ≤ op ∧ op ≤ 0x0F) ∨ (0x19 ≤ op ∧ op ≤ 0xFF) := by
  unfold legalOpcode
  omega

/-- A write to CMD of a word with an illegal opcode is the command error and nothing else
(60_exceptions.md R281). -/
theorem cmdWrite_of_illegalOpcode {w : Word} (h : decode w = .error .illegalOpcode) (s : State) :
    cmdWrite w s = .next ({ s with cmd := w }.finish errIllegalOpcode 0) := by
  unfold cmdWrite
  rw [h, State.cmdError_eq]

/-- Settles O3: the decoder's illegal words are those whose OP is outside the opcode map, and the write
of one is the command error of R281. -/
theorem illegalOpcodes : Obligations.IllegalOpcodes := by
  intro w
  constructor
  · exact (decode_eq_illegalOpcode_iff w).trans (not_legalOpcode_iff (fieldOp w).isLt)
  · exact cmdWrite_of_illegalOpcode

end Sys2Proof.Machine
end

section
/-!
PROOFS. The queue commands (40_queue_commands.md): one equation per command on a configured endpoint,
the exact results of R120 to R129, and the FIFO law of R117 as a simulation.
-/

namespace Sys2Proof.Machine

/-! ### Each queue command on a configured endpoint -/

/-- Writing an endpoint's own record back changes nothing. -/
theorem State.setEp_self {s : State} {e : Nat} {c : EpCfg} {p : Ep} (he : s.ep? e = some (c, p)) :
    s.setEp e p = s := by
  obtain ⟨-, hp, -⟩ := State.ep?_eq_some.1 he
  obtain ⟨hlt, rfl⟩ := List.getElem?_eq_some_iff.1 hp
  rw [State.setEp, List.set_getElem_self]

section
variable {e : Nat} {s : State} {c : EpCfg} {p : Ep}

theorem exec_qInit (he : s.ep? e = some (c, p)) :
    exec (.qInit e) s =
      if s.argLen = 0 ∨ c.qmax < s.argLen then .next (s.cmdError errBadArgument)
      else .next ((s.setEp e { p with q := p.q.init s.argLen }).complete 0) :=
  withEndpoint_ok _ he

theorem exec_qReset (he : s.ep? e = some (c, p)) :
    exec (.qReset e) s = .next ((s.setEp e { p with q := p.q.reset }).complete 0) :=
  withEndpoint_ok _ he

theorem exec_qClrfail (he : s.ep? e = some (c, p)) :
    exec (.qClrfail e) s =
      .next ((s.setEp e { p with q := { p.q with fail := false } }).complete 0) :=
  withEndpoint_ok _ he

theorem exec_qPush_of_reserved (e : Nat) (h : s.argB.extractLsb' 8 8 ≠ 0) :
    exec (.qPush e) s = .next (s.cmdError errReservedBits) := by
  have hres : s.argByteReserved = true := bne_iff_ne.2 h
  simp [exec, execQPush, withEndpoint, hres]

theorem exec_qPush (he : s.ep? e = some (c, p)) (h : s.argB.extractLsb' 8 8 = 0) :
    exec (.qPush e) s =
      .next ((s.setEp e { p with q := (p.q.push s.argByte).2 }).complete
        (half (p.q.push s.argByte).1)) := by
  have hres : s.argByteReserved = false := bne_eq_false_iff_eq.2 h
  simp only [exec, execQPush, hres, withEndpoint_ok _ he]

theorem exec_qPop (he : s.ep? e = some (c, p)) {v : Byte} {q : Queue} (hpop : p.q.pop = some (v, q)) :
    exec (.qPop e) s = .next ((s.setEp e { p with q := q }).complete (halfOfByte v)) := by
  simp only [exec, execQPop, withEndpoint_ok _ he, hpop]

theorem exec_qPeek (he : s.ep? e = some (c, p)) {v : Byte} {q : Queue}
    (hpeek : p.q.peek = some (v, q)) :
    exec (.qPeek e) s = .next ((s.setEp e { p with q := q }).complete (halfOfByte v)) := by
  simp only [exec, execQPeek, withEndpoint_ok _ he, hpeek]

theorem exec_qAvailable (he : s.ep? e = some (c, p)) :
    exec (.qAvailable e) s = .next (s.complete (halfOfNat p.q.available)) :=
  withEndpoint_ok _ he

theorem exec_qFull (he : s.ep? e = some (c, p)) :
    exec (.qFull e) s = .next (s.complete (half p.q.full)) :=
  withEndpoint_ok _ he

theorem exec_qEmpty (he : s.ep? e = some (c, p)) :
    exec (.qEmpty e) s = .next (s.complete (half p.q.empty)) :=
  withEndpoint_ok _ he

theorem exec_qFailed (he : s.ep? e = some (c, p)) :
    exec (.qFailed e) s = .next (s.complete (half p.q.fail)) :=
  withEndpoint_ok _ he

end

/-! ### Peeking, and boolean results -/

theorem Queue.peek_empty {q : Queue} (h : q.size = 0) :
    q.peek = some (0, { q with fail := true }) := by
  simp [Queue.peek, h]

theorem Queue.peek_some {q : Queue} (h : q.size ≠ 0) {v : Byte} (hv : Mem.read q.mem q.rd = some v) :
    q.peek = some (v, q) := by
  simp [Queue.peek, h, hv]

/-- A predicate's result is 1 or 0 (30_encoding.md R94). -/
theorem half_decide (P : Prop) [Decidable P] : half (decide P) = if P then 1 else 0 := by
  simp [half]

/-! ### The FIFO law (R117) -/

/-- The simulation relation of R117: the good queue `q` stands for a FIFO of `cap` bytes that holds `l`,
and its QFAIL is `fail`. -/
structure Queue.Holds (c : EpCfg) (cap : Nat) (fail : Bool) (q : Queue) (l : List Byte) : Prop where
  inv : Queue.Inv c q
  contents : q.contents = l.map some
  cap_eq : q.cap = cap
  fail_eq : q.fail = fail

/-- Endpoint `e` of `s` has such a queue. -/
def State.Holds (s : State) (e : Nat) (c : EpCfg) (cap : Nat) (fail : Bool) (l : List Byte) : Prop :=
  ∃ p, s.ep? e = some (c, p) ∧ Queue.Holds c cap fail p.q l

section
variable {c : EpCfg} {cap : Nat} {fail : Bool} {q : Queue} {l : List Byte}

theorem Queue.Holds.size_eq (h : Queue.Holds c cap fail q l) : q.size = l.length := by
  rw [← Queue.contents_length, h.contents, List.length_map]

/-- With room left, push answers success and appends the byte. -/
theorem Queue.Holds.push (h : Queue.Holds c cap fail q l) (hl : l.length < cap) (v : Byte) :
    (q.push v).1 = true ∧ Queue.Holds c cap fail (q.push v).2 (l ++ [v]) := by
  have hlt : q.size < q.cap := by rw [h.size_eq, h.cap_eq]; exact hl
  have hpush := Queue.push_room (Nat.ne_of_lt hlt) v
  refine ⟨by rw [hpush], h.inv.push v, ?_, by rw [Queue.push_cap, h.cap_eq], by rw [hpush, ← h.fail_eq]⟩
  rw [Queue.contents_push hlt, h.contents, List.map_append, List.map_singleton]

/-- Pop answers the oldest byte and leaves the others. -/
theorem Queue.Holds.pop {x : Byte} (h : Queue.Holds c cap fail q (x :: l)) :
    ∃ q', q.pop = some (x, q') ∧ Queue.Holds c cap fail q' l := by
  have h0 : q.size ≠ 0 := by simp [h.size_eq]
  obtain ⟨v, hv⟩ := h.inv.front h0
  have hpop := Queue.pop_some h0 hv
  have hcons := (Queue.contents_pop h.inv.rd_lt h0 hpop).symm.trans h.contents
  rw [List.map_cons, List.cons.injEq, Option.some.injEq] at hcons
  obtain ⟨rfl, hrest⟩ := hcons
  exact ⟨_, hpop, h.inv.pop hpop, hrest, h.cap_eq, h.fail_eq⟩

end

section
variable {s t : State} {e : Nat} {c : EpCfg} {cap : Nat} {fail : Bool} {l : List Byte}

/-- The endpoint a completed command changed reads as changed. -/
theorem State.ep?_setEp_complete {p : Ep} (he : s.ep? e = some (c, p)) (p' : Ep) (r : Half) :
    ((s.setEp e p').complete r).ep? e = some (c, p') :=
  (State.ep?_congr rfl rfl e).trans (State.ep?_setEp_same he p')

/-- Q_PUSH of the byte `v`, as `State.queueRun` issues it: RESULT and the endpoint are push's. -/
theorem exec_qPush_byte {p : Ep} (he : s.ep? e = some (c, p)) (v : Byte) :
    ∃ t, exec (.qPush e) { s with argB := v.setWidth 16 } = .next t ∧
      t.result = half (p.q.push v).1 ∧ t.ep? e = some (c, { p with q := (p.q.push v).2 }) := by
  have hlow : (v.setWidth 16).extractLsb' 0 8 = v := by
    ext i hi; simp [show i < 16 by omega, BitVec.getLsbD_eq_getElem hi]
  have hhigh : (v.setWidth 16).extractLsb' 8 8 = 0 := by
    ext i hi; simp
  have he' : State.ep? { s with argB := v.setWidth 16 } e = some (c, p) := he
  have hexec := exec_qPush he' hhigh
  rw [State.argByte, hlow] at hexec
  exact ⟨_, hexec, rfl, State.ep?_setEp_complete he' _ _⟩

/-- Q_PUSH on a full queue answers 0 and changes QFAIL alone of the endpoint (R112). -/
theorem exec_qPush_full {p : Ep} (he : s.ep? e = some (c, p)) (hfull : p.q.size = p.q.cap) (v : Byte) :
    ∃ t, exec (.qPush e) { s with argB := v.setWidth 16 } = .next t ∧ t.result = 0 ∧
      t.ep? e = some (c, { p with q := { p.q with fail := true } }) := by
  obtain ⟨t, hexec, hres, ht⟩ := exec_qPush_byte he v
  rw [Queue.push_full hfull] at hres ht
  exact ⟨t, hexec, hres, ht⟩

/-- Q_PUSH simulates the FIFO's push. -/
theorem exec_qPush_holds (h : s.Holds e c cap fail l) (hl : l.length < cap) (v : Byte) :
    ∃ t, exec (.qPush e) { s with argB := v.setWidth 16 } = .next t ∧ t.result = 1 ∧
      t.Holds e c cap fail (l ++ [v]) := by
  obtain ⟨p, he, hq⟩ := h
  obtain ⟨hok, hq'⟩ := hq.push hl v
  obtain ⟨t, hexec, hres, ht⟩ := exec_qPush_byte he v
  exact ⟨t, hexec, by rw [hres, hok]; rfl, _, ht, hq'⟩

/-- Q_POP simulates the FIFO's pop. -/
theorem exec_qPop_holds {x : Byte} (h : s.Holds e c cap fail (x :: l)) :
    ∃ t, exec (.qPop e) s = .next t ∧ t.result = halfOfByte x ∧ t.Holds e c cap fail l := by
  obtain ⟨p, he, hq⟩ := h
  obtain ⟨q', hpop, hq'⟩ := hq.pop
  exact ⟨_, exec_qPop he hpop, rfl, _, State.ep?_setEp_complete he _ _, hq'⟩

theorem State.queueRun_push {v : Byte}
    (h : exec (.qPush e) { s with argB := v.setWidth 16 } = .next t) (ops : List QueueOp) :
    s.queueRun e (.push v :: ops) = t.queueRun e ops := by
  simp only [State.queueRun, h]

theorem State.queueRun_pop (h : exec (.qPop e) s = .next t) (ops : List QueueOp) :
    s.queueRun e (.pop :: ops) = (t.queueRun e ops).map fun r => (t.result :: r.1, r.2) := by
  simp only [State.queueRun, h]

/-- Every sequence the FIFO admits, issued as commands, gives the FIFO's results and keeps the
simulation. -/
theorem State.queueRun_of_fifoRun {ops : List QueueOp} {out l' : List Byte}
    (h : s.Holds e c cap fail l) (hrun : fifoRun cap l ops = some (out, l')) :
    ∃ t, s.queueRun e ops = some (out.map halfOfByte, t) ∧ t.Holds e c cap fail l' := by
  induction ops generalizing s l out with
  | nil => cases hrun; exact ⟨s, rfl, h⟩
  | cons op ops ih =>
    cases op with
    | push v =>
      obtain ⟨hl, hrun⟩ := Option.ite_none_right_eq_some.1 hrun
      obtain ⟨t, hexec, -, ht⟩ := exec_qPush_holds h hl v
      rw [State.queueRun_push hexec]
      exact ih ht hrun
    | pop =>
      cases l with
      | nil => cases hrun
      | cons x l =>
        obtain ⟨r, hrest, hr⟩ := Option.map_eq_some_iff.1 hrun
        cases hr
        obtain ⟨t, hexec, hres, ht⟩ := exec_qPop_holds h
        obtain ⟨t', hrun', ht'⟩ := ih ht hrest
        exact ⟨t', by rw [State.queueRun_pop hexec, hrun', hres]; rfl, ht'⟩

/-- After the FIFO's oldest byte is popped there is room, so a push succeeds. -/
theorem State.queueRun_pop_push {x : Byte} (h : s.Holds e c cap fail (x :: l)) (hl : l.length < cap)
    (v : Byte) :
    ∃ t, s.queueRun e [.pop, .push v] = some ([halfOfByte x], t) ∧ t.result = 1 ∧
      t.Holds e c cap fail (l ++ [v]) := by
  obtain ⟨t₁, hpop, hres, h₁⟩ := exec_qPop_holds h
  obtain ⟨t₂, hpush, hres₂, h₂⟩ := exec_qPush_holds h₁ hl v
  exact ⟨t₂, by rw [State.queueRun_pop hpop, State.queueRun_push hpush, hres]; rfl, hres₂, h₂⟩

end

/-- Settles O12: the commands simulate the FIFO step by step (`State.queueRun_of_fifoRun`); a push on a
full queue changes QFAIL alone, so the queue still stands for the same FIFO, and a pop makes room. -/
theorem queueRefinesFifo : Obligations.QueueRefinesFifo := by
  intro e s c p l he hinv hcont
  have hq : Queue.Holds c p.q.cap p.q.fail p.q l := ⟨hinv, hcont, rfl, rfl⟩
  constructor
  · intro ops out l' hrun
    obtain ⟨t, ht, r, hr, hrq⟩ := State.queueRun_of_fifoRun ⟨p, he, hq⟩ hrun
    exact ⟨t, r, ht, hr, hrq.contents, hrq.cap_eq, hrq.fail_eq⟩
  · rintro v x l' rfl hfull
    obtain ⟨t, hexec, hres, ht⟩ := exec_qPush_full he (hq.size_eq.trans hfull) v
    have hstill : Queue.Holds c p.q.cap true { p.q with fail := true } (x :: l') :=
      ⟨{ hinv with }, hcont, rfl, rfl⟩
    have hroom : l'.length < p.q.cap := hfull ▸ Nat.lt_succ_self _
    obtain ⟨t', hrun, hres', r', hr', hq'⟩ := State.queueRun_pop_push ⟨_, ht, hstill⟩ hroom v
    exact ⟨t, _, State.queueRun_push hexec [], hres, ht, rfl, t', r', hrun, hres', hr', hq'.contents⟩

/-- Settles O7: Q_INIT is its operand check and then `Queue.init`. -/
theorem qInitResult : Obligations.QInitResult := by
  refine ⟨fun e => rfl, fun e s c p he => ⟨fun hbad => ?_, fun hpos hle => ?_⟩⟩
  · exact (exec_qInit he).trans (if_pos hbad)
  · have hok : ¬ (s.argLen = 0 ∨ c.qmax < s.argLen) := by unfold State.argLen; omega
    exact (exec_qInit he).trans (if_neg hok)

/-- Settles O8: both commands rewrite the queue's cursors or its flag, and nothing else of it. -/
theorem qResetAndClrfailResult : Obligations.QResetAndClrfailResult :=
  ⟨fun _ => ⟨rfl, rfl⟩, fun _ _ _ _ he => ⟨exec_qReset he, exec_qClrfail he⟩⟩

/-- Settles O9: the operand's reserved bits are checked first, then `Queue.push` has or has no room. -/
theorem qPushResult : Obligations.QPushResult := by
  refine ⟨fun e => rfl, fun e s c p he => ⟨fun hres => ?_, fun hbyte hfull => ?_, fun hbyte hroom => ?_⟩⟩
  · exact exec_qPush_of_reserved e hres
  · rw [exec_qPush he hbyte, Queue.push_full hfull]; rfl
  · rw [exec_qPush he hbyte, Queue.push_room hroom]; rfl

/-- Settles O10: on an empty queue pop and peek answer alike; on a written front byte peek leaves the
endpoint's record as it was. -/
theorem qPopAndPeekResult : Obligations.QPopAndPeekResult := by
  refine ⟨fun e => ⟨rfl, rfl⟩, fun e s c p he => ⟨fun hempty => ?_, fun v hsome hv => ?_⟩⟩
  · exact ⟨exec_qPop he (Queue.pop_empty hempty), exec_qPeek he (Queue.peek_empty hempty)⟩
  · refine ⟨exec_qPop he (Queue.pop_some hsome hv), ?_⟩
    rw [exec_qPeek he (Queue.peek_some hsome hv), State.setEp_self he]; rfl

/-- Settles O11: a query completes with the value of its predicate and writes no endpoint. -/
theorem queueQueriesResult : Obligations.QueueQueriesResult := by
  refine ⟨fun e => ⟨rfl, rfl, rfl, rfl⟩, fun e s c p he => ⟨exec_qAvailable he, ?_, ?_, exec_qFailed he⟩⟩
  · rw [exec_qFull he, Queue.full, half_decide]
  · rw [exec_qEmpty he, Queue.empty, half_decide]

end Sys2Proof.Machine
end

section
/-!
PROOFS. The endpoint commands (41_endpoint_commands.md): EP_FLUSH and EP_SET_CALLBACK on a configured
endpoint, and DEV_SET_ADDRESS, the command with one word.
-/

namespace Sys2Proof.Machine

/-! ### Commands that change an endpoint's record -/

section
variable {e : Nat} {s : State} {c : EpCfg} {p : Ep}

theorem exec_epFlush (he : s.ep? e = some (c, p)) :
    exec (.epFlush e) s = .next ((s.setEp e p.doFlush).complete 0) :=
  withEndpoint_ok _ he

theorem exec_epSetCallback (he : s.ep? e = some (c, p)) :
    exec (.epSetCallback e) s =
      if e = 0 then .next (s.complete 0)
      else .next ((s.setEp e { p with cb := s.argA, cbctx := s.argC }).complete 1) :=
  withEndpoint_ok _ he

end

/-- `do_flush`, with IEN.IN set by a mask (41_endpoint_commands.md R150). -/
theorem Ep.doFlush_eq (p : Ep) :
    p.doFlush = { p with flush := true, ien := p.ien ||| 0x02, dir := .inn } := by
  rw [Ep.doFlush, Ep.startIn, setBit_in_true]

/-- Settles O16: the command is `do_flush` of the endpoint's record. -/
theorem epFlushResult : Obligations.EpFlushResult := by
  refine ⟨fun e => rfl, fun e s c p he => ?_⟩
  rw [exec_epFlush he, Ep.doFlush_eq]

/-- Settles O18: EP_SET_CALLBACK answers by the endpoint number alone. -/
theorem epSetCallbackResult : Obligations.EpSetCallbackResult := by
  refine ⟨fun e => rfl, fun e s c p he => ⟨fun hzero => ?_, fun hne => ?_⟩⟩
  · exact (exec_epSetCallback he).trans (if_pos hzero)
  · exact (exec_epSetCallback he).trans (if_neg hne)

/-! ### The word of DEV_SET_ADDRESS -/

/-- A word that decodes has the opcode of its command in OP (30_encoding.md R92, R95). -/
theorem fieldOp_of_decode {w : Word} {i : Instr} (h : decode w = .ok i) : fieldOp w = opcodeOf i := by
  unfold decode at h
  cases hrow : opcodeRow (fieldOp w).toNat (fieldEp w).toNat with
  | none => simp [hrow] at h
  | some j =>
    obtain rfl : j = i := by
      cases hres : reservedOk w j with
      | false => simp [hrow, hres] at h
      | true => simpa [hrow, hres] using h
    exact (BitVec.eq_of_toNat_eq (opcodeRow_spec hrow).1).symm

/-- With OP 0x18, the reserved bits of DEV_SET_ADDRESS are 0 in one word only (30_encoding.md R97). -/
theorem reservedOk_devSetAddress_iff {w : Word} (hop : fieldOp w = 0x18) :
    reservedOk w .devSetAddress = true ↔ w = 0x00000018 := by
  constructor
  · intro h
    obtain ⟨hrsv, hep⟩ : fieldRsv w = 0 ∧ fieldEp w = 0 := by simpa [reservedOk] using h
    rw [word_eq_fields w, hrsv, hep, hop]
    decide
  · rintro rfl
    decide

/-- With OP 0x18 the decoder accepts the word 0x18 and answers RESERVED_BITS to the others. -/
theorem decode_of_fieldOp_devSetAddress {w : Word} (hop : fieldOp w = 0x18) :
    decode w = if w = 0x00000018 then .ok .devSetAddress else .error .reservedBits := by
  have hrow : opcodeRow (fieldOp w).toNat (fieldEp w).toNat = some .devSetAddress := by rw [hop]; rfl
  unfold decode
  simp only [hrow, reservedOk_devSetAddress_iff hop]

theorem decode_eq_devSetAddress_iff (w : Word) : decode w = .ok .devSetAddress ↔ w = 0x00000018 := by
  constructor
  · intro h
    by_contra hne
    rw [decode_of_fieldOp_devSetAddress (fieldOp_of_decode h), if_neg hne] at h
    cases h
  · rintro rfl
    decide

/-- A write to CMD of a word with reserved bits set is the command error and nothing else
(60_exceptions.md R281). -/
theorem cmdWrite_of_reservedBits {w : Word} (h : decode w = .error .reservedBits) (s : State) :
    cmdWrite w s = .next ({ s with cmd := w }.finish errReservedBits 0) := by
  simp only [cmdWrite, h, State.cmdError_eq]

/-! ### The operand of DEV_SET_ADDRESS -/

theorem exec_devSetAddress (s : State) :
    exec .devSetAddress s =
      if s.argB.extractLsb' 7 9 = 0 then .next ({ s with faddr := s.argB.extractLsb' 0 7 }.complete 0)
      else .next (s.cmdError errReservedBits) := by
  simp only [exec, execDevSetAddress, State.argSevenReserved, State.argSeven, bne_iff_ne, ite_not]

/-- Settles O21: the reserved bits of the word are the decoder's check, those of the operand the
command's. -/
theorem devSetAddressResult : Obligations.DevSetAddressResult := by
  refine ⟨decode_eq_devSetAddress_iff, fun w s hop hne => ?_, fun s => ⟨fun hzero => ?_, fun hres => ?_⟩⟩
  · exact cmdWrite_of_reservedBits ((decode_of_fieldOp_devSetAddress hop).trans (if_neg hne)) s
  · exact (exec_devSetAddress s).trans (if_pos hzero)
  · exact (exec_devSetAddress s).trans (if_neg hres)

end Sys2Proof.Machine
end

section
/-!
PROOFS. The service agent (42_engine_service.md): the token and the order of one service step, the end of
a drain, SETUP handling, and delivery.
-/

namespace Sys2Proof.Machine

/-! ### One service step (R171, R172, R196) -/

/-- Each bit of the token by the pending flags it stands for (R171). -/
theorem tokenOf_getLsbD (v : Bits7) :
    (tokenOf v).getLsbD 0 = v.getLsbD 0 ∧ (tokenOf v).getLsbD 1 = v.getLsbD 1 ∧
    (tokenOf v).getLsbD 2 = v.getLsbD 2 ∧ (tokenOf v).getLsbD 3 = v.getLsbD 6 ∧
    (tokenOf v).getLsbD 4 = (v.getLsbD 3 || v.getLsbD 4) ∧ (tokenOf v).getLsbD 5 = v.getLsbD 5 := by
  revert v; decide

section
variable {c : EpCfg} {p : Ep} {v : Bits7}

/-- The order of work, chosen by the pending flags themselves (R172). -/
theorem Ep.serviceWork_tokenOf :
    p.serviceWork c (tokenOf v) =
      if v.getLsbD bitIn ∧ v.getLsbD bitOut ∧ p.dir = .inn then some (p.inAbort c, tokenOf v)
      else if v.getLsbD bitSetup then p.setupHandling (tokenOf v)
      else ((if v.getLsbD bitOut then p.fill c else some p).bind fun p1 =>
        if v.getLsbD bitIn then p1.drain c else some p1).map fun r => (r, tokenOf v) := by
  obtain ⟨hsetup, hin, hout⟩ := tokHas_tokenOf v
  rw [Ep.serviceWork, hsetup, hin, hout]
  cases (if v.getLsbD bitOut then p.fill c else some p) with
  | none => rfl
  | some p1 =>
    simp only [Option.bind_some]
    cases (if v.getLsbD bitIn then p1.drain c else some p1) <;> rfl

/-- A service is its work, then the clearing of the auxiliary flags that were serviced (R196). -/
theorem Ep.service_eq (hv : v = p.pending) :
    p.service c = (p.serviceWork c (tokenOf v)).map fun r =>
      ({ r.1 with ipend := r.1.ipend &&& ~~~(v &&& 0x78) }, r.2) := by
  subst hv
  rw [Ep.service]
  cases p.serviceWork c (tokenOf p.pending) <;> rfl

end

/-- Settles O33: the three branches of `Ep.serviceWork_tokenOf`, with the auxiliary flags cleared after. -/
theorem serviceOrder : Obligations.ServiceOrder := by
  refine ⟨tokenOf_getLsbD, fun c p v hv => ?_⟩
  rw [Ep.service_eq (c := c) hv, Ep.serviceWork_tokenOf]
  refine ⟨fun hin hout hdir => ?_, fun habort hsetup => ?_, fun habort hsetup => ?_⟩
  · rw [if_pos ⟨hin, hout, hdir⟩, Option.map_some]
  · rw [if_neg habort, if_pos hsetup]
  · rw [if_neg habort, if_neg (Bool.eq_false_iff.1 hsetup), Option.map_map]
    rfl

/-! ### The end of a drain (R186) -/

/-- The transmit-ready acknowledgment leaves FLUSH, DIR and the enables alone (R176). -/
theorem Ep.clearTxAck_flags (c : EpCfg) (p : Ep) :
    (p.clearTxAck c).flush = p.flush ∧ (p.clearTxAck c).dir = p.dir ∧ (p.clearTxAck c).ien = p.ien := by
  obtain ⟨heq, -, -⟩ := Ep.clearTxAck_spec c p
  rw [heq]
  split
  · simp [Ep.commit]
  · exact ⟨rfl, rfl, rfl⟩

@[simp] theorem Ep.drainDone_q (p : Ep) : p.drainDone.q = p.q := by
  unfold Ep.drainDone
  split <;> rfl

theorem Ep.drainDone_of_empty {p : Ep} (h : p.q.size = 0) :
    p.drainDone = { p with ien := p.ien &&& 0x7D, flush := false, dir := .none } := by
  rw [Ep.drainDone, if_pos h, setBit_in_false]

theorem Ep.drainDone_of_ne {p : Ep} (h : p.q.size ≠ 0) : p.drainDone = p :=
  if_neg h

/-- Settles O37: neither the drain's loop nor the acknowledgment touches FLUSH, DIR or the enables, so
`drain_done` alone decides them. -/
theorem drainCompletion : Obligations.DrainCompletion := by
  intro c p r hr
  rw [Ep.drain_eq] at hr
  obtain ⟨t, hloop, rfl⟩ := Option.map_eq_some_iff.1 hr
  obtain ⟨hflush, hdir, hien⟩ := Ep.drainAll_flags p hloop
  obtain ⟨aflush, adir, aien⟩ := Ep.clearTxAck_flags c t
  rw [Ep.drainDone_q]
  refine ⟨fun hempty => ?_, fun hne => ?_⟩
  · rw [Ep.drainDone_of_empty hempty, aien, hien]
    exact ⟨rfl, rfl, rfl⟩
  · rw [Ep.drainDone_of_ne hne]
    exact ⟨aflush.trans hflush, adir.trans hdir, aien.trans hien⟩

/-! ### SETUP handling (R188 to R190) -/

/-- The end of SETUP handling on either path: the acknowledgment cleared and the transfer cancelled, with
the flags written by masks (R177, R190). -/
theorem Ep.clearSetupAck_cancelTransfer (p : Ep) :
    p.clearSetupAck.cancelTransfer = { p with
      flush := false
      dir := .none
      ien := p.ien &&& 0x7D
      ipend := (p.ipend &&& 0x7E) ||| 0x02
      bank0 := { p.bank0 with st := .fill, cnt := 0, rdp := 0 } } := by
  rw [Ep.cancelTransfer, Ep.clearSetupAck, setBit_setup_false, setBit_in_true, setBit_in_false]

theorem Ep.setupHandling_of_tooSmall {p : Ep} (h : p.q.cap < p.bank0.cnt) (tok : Token) :
    p.setupHandling tok =
      some ({ p with q := p.q.reset }.doStall.clearSetupAck.cancelTransfer, tok &&& 0x3E) :=
  if_pos h

theorem Ep.setupHandling_of_fits {p : Ep} (h : p.bank0.cnt ≤ p.q.cap) {d : List Byte}
    (hd : Mem.readAll p.bank0.data 0 p.bank0.cnt = some d) (tok : Token) :
    p.setupHandling tok =
      some ({ p with q := p.q.reset.pushAll d }.clearSetupAck.cancelTransfer, tok) := by
  rw [Ep.setupHandling, if_neg (Nat.not_lt.2 h)]
  simp only [hd]

/-- Settles O38: both paths end alike (`Ep.clearSetupAck_cancelTransfer`); the bytes pushed after the reset
land at 0 upward. -/
theorem setupHandlingResult : Obligations.SetupHandlingResult := by
  rintro p tok n rfl
  refine ⟨fun hsmall => ?_, fun hfits hwritten => ?_⟩
  · rw [Ep.setupHandling_of_tooSmall hsmall, Ep.clearSetupAck_cancelTransfer]
    rfl
  · obtain ⟨d, hd⟩ := Mem.readAll_isSome (m := p.bank0.data) (k := 0) (n := p.bank0.cnt)
      fun i hi => by rw [Nat.zero_add]; exact hwritten i hi
    obtain ⟨hlen, hbytes⟩ := Mem.readAll_eq_some hd
    have hroom : p.q.reset.size + d.length ≤ p.q.reset.cap := by
      rw [Queue.reset_size, Queue.reset_cap, hlen, Nat.zero_add]; exact hfits
    have hmem : (p.q.reset.pushAll d).mem = Mem.writeAll p.q.mem 0 d := Queue.pushAll_linear rfl hroom
    obtain ⟨hnew, hold⟩ := Mem.read_packet p.q.mem d
    refine ⟨p.q.reset.pushAll d, by simp, ?_, by simp, Queue.pushAll_fail hroom, fun i hi => ?_,
      fun i hi => ?_, ?_⟩
    · rw [Queue.pushAll_size hroom, hlen, Queue.reset_size, Nat.zero_add]
    · rw [hmem, hnew i (hlen ▸ hi), ← hbytes i hi, Nat.zero_add]
    · rw [hmem, hold i (hlen ▸ hi)]
    · rw [Ep.setupHandling_of_fits hfits hd, Ep.clearSetupAck_cancelTransfer]

/-! ### Delivery (R199, R200) -/

theorem State.deliver_zero (s : State) (tok : Token) (p : Ep) :
    s.deliver 0 tok p = { s with
      tokenLatch := s.tokenLatch ||| tok
      tokenPending := s.tokenPending || tok != 0
      history := s.history ++ [.svc 0 tok] } :=
  rfl

theorem State.deliver_of_ne_zero {e : Nat} (he : e ≠ 0) (s : State) (tok : Token) (p : Ep) :
    s.deliver e tok p = { s with
      history := s.history ++ .svc e tok ::
        if p.cb ≠ 0 ∧ tok ≠ 0 then [.callback e tok p.cb p.cbctx] else [] } := by
  rw [State.deliver, if_neg he]
  split <;> rfl

/-- Settles O40: an empty token leaves the latch and TOKEN_PENDING of endpoint 0 as they were; another
endpoint's token adds events alone. -/
theorem deliveryResult : Obligations.DeliveryResult := by
  refine fun s e tok p => ⟨fun htok => ?_, fun htok => ?_, fun he hcb htok => ?_, fun he hnone => ?_⟩
  · rw [State.deliver_zero, bne_iff_ne.2 htok, Bool.or_true]
  · rw [State.deliver_zero, htok, BitVec.ofNat_eq_ofNat, BitVec.or_zero, bne_self_eq_false, Bool.or_false]
  · rw [State.deliver_of_ne_zero he, if_pos ⟨hcb, htok⟩]
  · rw [State.deliver_of_ne_zero he, if_neg fun ⟨hcb, htok⟩ => hnone.elim hcb htok]

end Sys2Proof.Machine
end

section
/-!
PROOFS. The BUS agent (43_bus_agent.md): who answers a transaction, and what a SETUP, an OUT, an IN and a
flow error do to the endpoint they reach.
-/

namespace Sys2Proof.Machine

/-! ### Who answers (R211, R212) -/

section
variable {s : State} {a : Bits7} {e : Nat} {c : EpCfg} {p : Ep} {d : List Byte}

theorem State.busTarget_eq_some :
    s.busTarget a e = some (c, p) ↔ a = s.faddr ∧ s.ep? e = some (c, p) := by
  unfold State.busTarget
  split <;> simp [*]

theorem State.outTooLong_eq_false :
    s.outTooLong e d = false ↔ ∀ c p, s.ep? e = some (c, p) → d.length ≤ c.bsize := by
  unfold State.outTooLong
  split <;> simp_all

theorem State.outTooLong_of_le (he : s.ep? e = some (c, p)) (hd : d.length ≤ c.bsize) :
    s.outTooLong e d = false := by
  simp [State.outTooLong, he, hd]

/-- A SETUP that reaches no CONTROL endpoint is not answered. -/
theorem busStep_setup_unanswered (hd : d.length = 8)
    (h : ∀ c p, s.busTarget a e = some (c, p) → c.kind ≠ .control) :
    busStep (.setup a e d) s = s.busReply (.setup a e d) .none := by
  simp only [busStep, hd, ne_eq, not_true_eq_false, if_false]
  cases ht : s.busTarget a e with
  | none => rfl
  | some cp =>
    obtain ⟨c, p⟩ := cp
    cases hk : c.kind with
    | control => exact absurd hk (h c p ht)
    | inn | out | unconf => simp only [hk]

/-- An OUT that reaches nothing but an IN endpoint is not answered. -/
theorem busStep_out_unanswered (hd : s.outTooLong e d = false)
    (h : ∀ c p, s.busTarget a e = some (c, p) → c.kind = .inn) :
    busStep (.out a e d) s = s.busReply (.out a e d) .none := by
  simp only [busStep, hd, Bool.false_eq_true, if_false]
  cases ht : s.busTarget a e with
  | none => rfl
  | some cp => simp only [h cp.1 cp.2 ht]

/-- An IN that reaches nothing but an OUT endpoint is not answered. -/
theorem busStep_inn_unanswered (h : ∀ c p, s.busTarget a e = some (c, p) → c.kind = .out) :
    busStep (.inn a e) s = s.busReply (.inn a e) .none := by
  simp only [busStep]
  cases ht : s.busTarget a e with
  | none => rfl
  | some cp => simp only [h cp.1 cp.2 ht]

/-! ### The endpoint that answers -/

theorem busStep_setup_control (he : s.ep? e = some (c, p)) (hk : c.kind = .control)
    (hd : d.length = 8) :
    busStep (.setup s.faddr e d) s =
      (s.setEp e (p.receiveSetup d)).busReply (.setup s.faddr e d) .ack := by
  simp only [busStep, hd, State.busTarget_eq_some.2 ⟨rfl, he⟩, hk, ne_eq, not_true_eq_false, if_false]

theorem busStep_out_control (he : s.ep? e = some (c, p)) (hk : c.kind = .control)
    (hd : d.length ≤ c.bsize) :
    busStep (.out s.faddr e d) s =
      (s.setEp e (p.outControl d).1).busReply (.out s.faddr e d) (p.outControl d).2 := by
  simp only [busStep, State.outTooLong_of_le he hd, State.busTarget_eq_some.2 ⟨rfl, he⟩, hk,
    Bool.false_eq_true, if_false]

theorem busStep_out_out (he : s.ep? e = some (c, p)) (hk : c.kind = .out) (hd : d.length ≤ c.bsize) :
    busStep (.out s.faddr e d) s =
      (s.setEp e (p.outData c d).1).busReply (.out s.faddr e d) (p.outData c d).2 := by
  simp only [busStep, State.outTooLong_of_le he hd, State.busTarget_eq_some.2 ⟨rfl, he⟩, hk,
    Bool.false_eq_true, if_false]

theorem busStep_inn {r : Ep} {y : Reply} (he : s.ep? e = some (c, p))
    (hk : c.kind = .inn ∨ c.kind = .control) (hp : p.inPoll c = some (r, y)) :
    busStep (.inn s.faddr e) s = (s.setEp e r).busReply (.inn s.faddr e) y := by
  rcases hk with hk | hk <;> simp only [busStep, State.busTarget_eq_some.2 ⟨rfl, he⟩, hk, hp]

end

/-- Settles O42: a wrong address or an unconfigured endpoint is no target at all, and an endpoint of another
kind is a target that none of its transactions reach. -/
theorem busAddressing : Obligations.BusAddressing := by
  refine fun s a e d => ⟨fun hno => ?_, fun c p he _ => ?_⟩
  · have hnone (c p) : s.busTarget a e ≠ some (c, p) := fun ht => by
      obtain ⟨ha, he⟩ := State.busTarget_eq_some.1 ht
      exact hno.elim (· ha) fun hunconf => nomatch hunconf.symm.trans he
    exact ⟨fun hd => busStep_setup_unanswered hd fun c p ht => absurd ht (hnone c p),
      fun hd => busStep_out_unanswered (State.outTooLong_eq_false.2 hd) fun c p ht => absurd ht (hnone c p),
      busStep_inn_unanswered fun c p ht => absurd ht (hnone c p)⟩
  · have hsame {c' p'} (ht : s.busTarget a e = some (c', p')) : c' = c := by
      cases he.symm.trans (State.busTarget_eq_some.1 ht).2
      rfl
    refine ⟨fun hk hd => ?_, fun hk hd => ?_, fun hk => ?_⟩
    · exact busStep_setup_unanswered hd fun c' p' ht => hsame ht ▸ hk
    · exact busStep_out_unanswered (State.outTooLong_of_le he hd) fun c' p' ht => hsame ht ▸ hk
    · exact busStep_inn_unanswered fun c' p' ht => hsame ht ▸ hk

/-! ### Control endpoints (R213 to R215) -/

/-- The flags of SETUP reception as masks: RXSTP is set, TXIN and RXOUT are cleared (R213). -/
theorem setBit_setup_in_out : ∀ v : Bits7,
    setBit (setBit (setBit v bitSetup true) bitIn false) bitOut false = (v &&& 0x79) ||| 0x01 := by
  decide

/-- The flags of a received OUT that displaces a committed packet: TXIN and RXOUT (R215). -/
theorem setBit_in_out : ∀ v : Bits7, setBit (setBit v bitIn true) bitOut true = v ||| 0x06 := by
  decide

theorem Ep.receiveSetup_eq (p : Ep) (d : List Byte) : p.receiveSetup d = { p with
    bank0 := p.bank0.receive d
    ipend := (p.ipend &&& 0x79) ||| 0x01
    stall := false } := by
  rw [Ep.receiveSetup, setBit_setup_in_out]

section
variable {p : Ep}

theorem Ep.outControl_of_stall (hs : p.stall = true) (d : List Byte) :
    p.outControl d = ({ p with ipend := p.ipend ||| 0x40 }, .stall) := by
  rw [Ep.outControl, if_pos hs, setBit_stalled]

theorem Ep.outControl_of_refused (hs : p.stall = false)
    (h : p.ien.getLsbD 2 = false ∨ p.ipend.getLsbD 0 = true ∨ p.bank0.st = .held) (d : List Byte) :
    p.outControl d = ({ p with ipend := p.ipend ||| 0x10 }, .nak) := by
  rw [Ep.outControl, if_neg (Bool.eq_false_iff.1 hs), if_pos h, setBit_nakOut]

theorem Ep.outControl_of_accepted (hs : p.stall = false)
    (hien : p.ien.getLsbD 2 = true) (hsetup : p.ipend.getLsbD 0 = false) (hbank : p.bank0.st ≠ .held)
    (d : List Byte) :
    p.outControl d = ({ p with
      bank0 := p.bank0.receive d
      ipend := if p.bank0.st = .committed then p.ipend ||| 0x06 else p.ipend ||| 0x04 }, .ack) := by
  have hok : ¬ (p.ien.getLsbD 2 = false ∨ p.ipend.getLsbD 0 = true ∨ p.bank0.st = .held) := by
    simp only [hien, hsetup, hbank, reduceCtorEq, or_self, not_false_eq_true]
  rw [Ep.outControl, if_neg (Bool.eq_false_iff.1 hs), if_neg hok]
  by_cases hcom : p.bank0.st = .committed
  · simp only [if_pos hcom, setBit_in_out]
  · simp only [if_neg hcom, setBit_out_true]

end

/-- Settles O43: SETUP reception asks nothing of the endpoint but its kind. -/
theorem setupReception : Obligations.SetupReception := by
  intro s e c p d he hk hd
  obtain ⟨hnew, hold⟩ := Mem.read_packet p.bank0.data d
  refine ⟨Mem.writeAll p.bank0.data 0 d, hd ▸ hnew, hd ▸ hold, ?_⟩
  rw [busStep_setup_control he hk hd, Ep.receiveSetup_eq, Bank.receive, hd]
  rfl

/-- Settles O44: the three branches of `Ep.outControl`. -/
theorem outOnControlEndpoint : Obligations.OutOnControlEndpoint := by
  intro s e c p d he hk hd
  rw [busStep_out_control he hk hd]
  refine ⟨fun hs => ?_, fun hs href => ?_, fun hs hien hsetup hbank => ?_⟩
  · rw [Ep.outControl_of_stall hs]; rfl
  · rw [Ep.outControl_of_refused hs href]; rfl
  · obtain ⟨hnew, hold⟩ := Mem.read_packet p.bank0.data d
    refine ⟨Mem.writeAll p.bank0.data 0 d, hnew, hold, ?_⟩
    rw [Ep.outControl_of_accepted hs hien hsetup hbank]
    rfl

/-! ### IN and OUT endpoints (R216, R217) -/

/-- The bus side ends with its bank: the bank becomes `bk`, IPEND becomes `v`, and BUSPTR moves on
(R216, R217). -/
def Ep.busDone (c : EpCfg) (p : Ep) (bk : Bank) (v : Bits7) : Ep :=
  { p.setBank p.busPtr bk with ipend := v, busPtr := nextBank c p.busPtr }

theorem Ep.busDone_spec (c : EpCfg) (p : Ep) (bk : Bank) (v : Bits7) :
    (p.busDone c bk v).bank p.busPtr = bk ∧
    (p.busDone c bk v).bank (!p.busPtr) = p.bank (!p.busPtr) ∧
    p.busDone c bk v = { p with
      bank0 := (p.busDone c bk v).bank0
      bank1 := (p.busDone c bk v).bank1
      busPtr := if c.nbanks = 2 then !p.busPtr else p.busPtr
      ipend := v } :=
  ⟨Ep.bank_setBank_self _ _ _, Ep.bank_setBank_other _ _ _, by
    unfold Ep.busDone Ep.setBank; split <;> rfl⟩

section
variable {c : EpCfg} {p : Ep}

theorem Ep.inPoll_of_stall (hs : p.stall = true) :
    p.inPoll c = some ({ p with ipend := p.ipend ||| 0x40 }, .stall) := by
  rw [Ep.inPoll, if_pos hs, setBit_stalled]

theorem Ep.inPoll_of_not_committed (hs : p.stall = false) (h : (p.bank p.busPtr).st ≠ .committed) :
    p.inPoll c = some ({ p with ipend := p.ipend ||| 0x08 }, .nak) := by
  rw [Ep.inPoll, if_neg (Bool.eq_false_iff.1 hs), if_neg h, setBit_nakIn]

theorem Ep.inPoll_of_committed (hs : p.stall = false) (h : (p.bank p.busPtr).st = .committed)
    {d : List Byte} (hd : Mem.readAll (p.bank p.busPtr).data 0 (p.bank p.busPtr).cnt = some d) :
    p.inPoll c = some (p.busDone c { p.bank p.busPtr with st := .fill, cnt := 0 } (p.ipend ||| 0x02),
      .data d) := by
  rw [Ep.inPoll, if_neg (Bool.eq_false_iff.1 hs), if_pos h, ← setBit_in_true]
  simp only [hd, Ep.busDone]

theorem Ep.outData_of_stall (hs : p.stall = true) (d : List Byte) :
    p.outData c d = ({ p with ipend := p.ipend ||| 0x40 }, .stall) := by
  rw [Ep.outData, if_pos hs, setBit_stalled]

theorem Ep.outData_of_refused (hs : p.stall = false)
    (h : p.ien.getLsbD 2 = false ∨ (p.bank p.busPtr).st ≠ .freeRx) (d : List Byte) :
    p.outData c d = ({ p with ipend := p.ipend ||| 0x10 }, .nak) := by
  rw [Ep.outData, if_neg (Bool.eq_false_iff.1 hs), if_pos h, setBit_nakOut]

theorem Ep.outData_of_accepted (hs : p.stall = false) (hien : p.ien.getLsbD 2 = true)
    (hfree : (p.bank p.busPtr).st = .freeRx) (d : List Byte) :
    p.outData c d =
      (p.busDone c ((p.bank p.busPtr).receive d) (p.ipend ||| 0x04), .ack) := by
  have hok : ¬ (p.ien.getLsbD 2 = false ∨ (p.bank p.busPtr).st ≠ .freeRx) := by
    simp only [hien, hfree, reduceCtorEq, ne_eq, not_true_eq_false, or_self, not_false_eq_true]
  rw [Ep.outData, if_neg (Bool.eq_false_iff.1 hs), if_neg hok, setBit_out_true]
  rfl

end

/-- Settles O45: the three branches of `Ep.inPoll`; a committed bank's bytes read back as the packet. -/
theorem inReply : Obligations.InReply := by
  refine fun s e c p he hk => ⟨fun hs => ?_, fun hs hnone => ?_, fun d hs hcom hlen hbytes => ?_⟩
  · exact busStep_inn he hk (Ep.inPoll_of_stall hs)
  · exact busStep_inn he hk (Ep.inPoll_of_not_committed hs hnone)
  · have hread := Mem.readAll_of_forall hbytes
    rw [hlen] at hread
    obtain ⟨hbank, hother, hrest⟩ :=
      Ep.busDone_spec c p { p.bank p.busPtr with st := .fill, cnt := 0 } (p.ipend ||| 0x02)
    exact ⟨_, hbank, hother, hrest, busStep_inn he hk (Ep.inPoll_of_committed hs hcom hread)⟩

/-- Settles O46: the three branches of `Ep.outData`. -/
theorem outOnOutEndpoint : Obligations.OutOnOutEndpoint := by
  intro s e c p d he hk hd
  rw [busStep_out_out he hk hd]
  refine ⟨fun hs => ?_, fun hs href => ?_, fun hs hien hfree => ?_⟩
  · rw [Ep.outData_of_stall hs]; rfl
  · rw [Ep.outData_of_refused hs href]; rfl
  · obtain ⟨hnew, hold⟩ := Mem.read_packet (p.bank p.busPtr).data d
    obtain ⟨hbank, hother, hrest⟩ :=
      Ep.busDone_spec c p ((p.bank p.busPtr).receive d) (p.ipend ||| 0x04)
    refine ⟨_, _, hnew, hold, hbank, hother, hrest, ?_⟩
    rw [Ep.outData_of_accepted hs hien hfree]
    rfl

/-! ### Flow errors (R219) -/

/-- Settles O47: the report reaches an endpoint by its number alone. -/
theorem flowErrorReport : Obligations.FlowErrorReport := by
  refine fun s e => ⟨fun hnone => ?_, fun c p he => ?_⟩
  · simp only [busStep, hnone]
    rfl
  · simp only [busStep, he, setBit_flowErr]
    rfl

end Sys2Proof.Machine
end

section
/-!
PROOFS. The dispatcher and the control state machine (44_control_fsm.md): a batch that dispatches a request
or applies the latched address, each request rule with the endpoint it leaves.
-/

namespace Sys2Proof.Machine

/-! ### Taking a batch (R240, R241) -/

theorem tokHas_setup : ∀ t : Token, tokHas t tokSetup = t.getLsbD 0 := by decide

theorem tokHas_in : ∀ t : Token, tokHas t tokIn = t.getLsbD 1 := by decide

/-- The state a DISP step hands to the control state machine: the latch cleared (R240). -/
def State.takeBatch (s : State) : State := { s with tokenLatch := 0, tokenPending := false }

/-- A DISP step is the transition on the latched batch, recorded as an event. -/
theorem dispStep_of_transition {s t : State} {c : EpCfg} {p : Ep} (he : s.ep? 0 = some (c, p))
    (hpend : s.tokenPending = true) (ht : s.takeBatch.transition s.tokenLatch c p = some t) :
    dispStep s = .next (t.emit (.disp s.tokenLatch s.ctlState t.ctlState)) := by
  rw [State.takeBatch] at ht
  simp only [dispStep, hpend, if_true, he, ht]

theorem State.control_of_ctlState {s : State} {n : CtlState} (h : s.ctlState = n) (p : Ep) :
    s.control p n = s.setEp 0 p := by
  subst h
  rfl

/-! ### A batch with a request (R250, R251) -/

/-- Endpoint 0 is `p`, and the batch latched in SETUP brings the request `r`, held in its queue's storage. -/
structure State.Requested (s : State) (c : EpCfg) (p : Ep) (r : Request) : Prop where
  endpoint : s.ep? 0 = some (c, p)
  pending : s.tokenPending = true
  inSetup : s.ctlState = .setup
  token : s.tokenLatch.getLsbD 0 = true
  view : requestView p.q.mem = some r

theorem requestView_of_readAll {m : Mem} {b0 b1 b2 b3 b4 b5 b6 b7 : Byte}
    (h : Mem.readAll m 0 8 = some [b0, b1, b2, b3, b4, b5, b6, b7]) :
    requestView m = some ⟨b0, b1, halfLE b2 b3, halfLE b4 b5, halfLE b6 b7⟩ := by
  rw [requestView, h]

/-- The high byte of a little-endian field. -/
theorem halfLE_high (lo hi : Byte) : (halfLE lo hi).extractLsb' 8 8 = hi :=
  BitVec.extractLsb'_append_eq_left

/-- The low seven bits of a little-endian field. -/
theorem halfLE_low (lo hi : Byte) : (halfLE lo hi).extractLsb' 0 7 = lo.extractLsb' 0 7 :=
  BitVec.extractLsb'_append_eq_of_add_le (by decide)

/-- Endpoint 0 as a request rule finds it: the queue reset, its storage kept (R250). -/
def Ep.resetQueue (p : Ep) : Ep := { p with q := p.q.reset }

/-- A batch with a request runs the request's rule (R250, R252). -/
theorem State.Requested.dispStep_eq {s t : State} {c : EpCfg} {p : Ep} {r : Request}
    (h : s.Requested c p r) (ht : s.takeBatch.handleRequest p.resetQueue r = t) :
    dispStep s = .next (t.emit (.disp s.tokenLatch .setup t.ctlState)) := by
  have htrans : s.takeBatch.transition s.tokenLatch c p = some t := by
    have hsetup : s.takeBatch.ctlState = .setup := h.inSetup
    simp only [State.transition, hsetup, tokHas_setup, h.token, if_true, h.view, ← ht]
    rfl
  rw [dispStep_of_transition h.endpoint h.pending htrans, h.inSetup]

/-! ### The rule a request selects (R252, R253) -/

section
variable (s : State) (p : Ep) {r : Request}

theorem State.handleRequest_getDescriptor (h : r.bRequest = 0x06) :
    s.handleRequest p r = s.getDescriptor p r := by
  rw [State.handleRequest, h]; rfl

theorem State.handleRequest_setAddress (h : r.bRequest = 0x05) :
    s.handleRequest p r = s.setAddress p r := by
  rw [State.handleRequest, h]; rfl

theorem State.handleRequest_setConfiguration (h : r.bRequest = 0x09) :
    s.handleRequest p r = s.control p.doFlush .setup := by
  rw [State.handleRequest, h]; rfl

theorem State.handleRequest_getStatus (h : r.bRequest = 0x00) :
    s.handleRequest p r = s.respond p (s.cfg.statusBytes.take 2) := by
  rw [State.handleRequest, h]; rfl

theorem State.handleRequest_unsupported (h6 : r.bRequest ≠ 0x06) (h5 : r.bRequest ≠ 0x05)
    (h9 : r.bRequest ≠ 0x09) (h0 : r.bRequest ≠ 0x00) :
    s.handleRequest p r = s.control p.doStall .setup := by
  unfold State.handleRequest
  split
  case h_1 h => exact absurd (BitVec.eq_of_toNat_eq h) h6
  case h_2 h => exact absurd (BitVec.eq_of_toNat_eq h) h5
  case h_3 h => exact absurd (BitVec.eq_of_toNat_eq h) h9
  case h_4 h => exact absurd (BitVec.eq_of_toNat_eq h) h0
  case h_5 => rfl

theorem State.getDescriptor_device (h : r.wValue.extractLsb' 8 8 = 0x01) :
    s.getDescriptor p r = s.respond p s.cfg.devDesc := by
  rw [State.getDescriptor, h]; rfl

/-- CONFIGURATION answers the header alone when wLength is its size (R255). -/
theorem State.getDescriptor_header (h : r.wValue.extractLsb' 8 8 = 0x02)
    (hlen : r.wLength.toNat = s.cfg.cfgHdrLen) :
    s.getDescriptor p r = s.respond p (s.cfg.cfgDesc.take s.cfg.cfgHdrLen) := by
  rw [State.getDescriptor, h]; exact if_pos hlen

theorem State.getDescriptor_configuration (h : r.wValue.extractLsb' 8 8 = 0x02)
    (hlen : r.wLength.toNat ≠ s.cfg.cfgHdrLen) :
    s.getDescriptor p r = s.respond p s.cfg.cfgDesc := by
  rw [State.getDescriptor, h]; exact if_neg hlen

theorem State.getDescriptor_string (h : r.wValue.extractLsb' 8 8 = 0x03) :
    s.getDescriptor p r = s.control p .setup := by
  rw [State.getDescriptor, h]; rfl

theorem State.getDescriptor_unsupported (h1 : r.wValue.extractLsb' 8 8 ≠ 0x01)
    (h2 : r.wValue.extractLsb' 8 8 ≠ 0x02) (h3 : r.wValue.extractLsb' 8 8 ≠ 0x03) :
    s.getDescriptor p r = s.control p.doStall .setup := by
  unfold State.getDescriptor
  split
  case h_1 h => exact absurd (BitVec.eq_of_toNat_eq h) h1
  case h_2 h => exact absurd (BitVec.eq_of_toNat_eq h) h2
  case h_3 h => exact absurd (BitVec.eq_of_toNat_eq h) h3
  case h_4 => rfl

end

/-! ### A queued response (R254, R255, R258) -/

/-- Queueing and flushing: the flush starts IN whether or not a byte was queued (R149, R150). -/
theorem Ep.enqueueTx_doFlush (p : Ep) (src : List Byte) :
    (p.enqueueTx src).doFlush =
      { p with
        q := p.q.pushAll (src.take p.q.available)
        flush := true
        dir := .inn
        ien := p.ien ||| 0x02 } := by
  have htake : src.take (min src.length p.q.available) = src.take p.q.available := by
    rw [Nat.min_comm, ← List.take_take, List.take_length]
  rw [Ep.doFlush_eq, Ep.enqueueTx, htake]
  by_cases hsome : (src.take p.q.available).length > 0
  · simp only [if_pos hsome, Ep.startIn, setBit_in_true, BitVec.or_assoc, BitVec.or_self]
  · simp only [if_neg hsome]

/-- A reset queue takes as much of a response as it can hold. -/
theorem Queue.response_spec (q : Queue) (src : List Byte) :
    (q.reset.pushAll (src.take q.cap)).contents = (src.take q.cap).map some ∧
    (q.reset.pushAll (src.take q.cap)).rd = 0 ∧
    (q.reset.pushAll (src.take q.cap)).cap = q.cap ∧
    (q.reset.pushAll (src.take q.cap)).fail = q.fail := by
  have hroom : q.reset.size + (src.take q.cap).length ≤ q.reset.cap := by
    rw [Queue.reset_size, Queue.reset_cap, Nat.zero_add]
    exact List.length_take_le _ _
  exact ⟨Queue.contents_pushAll hroom, by simp, by simp, Queue.pushAll_fail hroom⟩

/-! ### How a batch with a request ends -/

section
variable {s : State} {c : EpCfg} {p : Ep} {r : Request}

/-- A request whose rule queues the response `src`. -/
theorem State.Requested.dispStep_respond (h : s.Requested c p r) {src : List Byte}
    (hrule : s.takeBatch.handleRequest p.resetQueue r = s.takeBatch.respond p.resetQueue src) :
    ∃ q' : Queue, q'.contents = (src.take p.q.cap).map some ∧
      q'.rd = 0 ∧ q'.cap = p.q.cap ∧ q'.fail = p.q.fail ∧
      dispStep s = .next { s.setEp 0 { p with
          q := q', flush := true, dir := .inn, ien := p.ien ||| 0x02 } with
        ctlState := .awaitFlush, tokenLatch := 0, tokenPending := false,
        history := s.history ++ [.disp s.tokenLatch .setup .awaitFlush] } := by
  obtain ⟨hcontents, hrd, hcap, hfail⟩ := Queue.response_spec p.q src
  refine ⟨_, hcontents, hrd, hcap, hfail, ?_⟩
  rw [h.dispStep_eq hrule, State.respond, Ep.enqueueTx_doFlush]
  rfl

/-- A request whose rule stays in SETUP and leaves endpoint 0 as `w`. -/
theorem State.Requested.dispStep_stay (h : s.Requested c p r) {w : Ep}
    (hrule : s.takeBatch.handleRequest p.resetQueue r = s.takeBatch.control w .setup) :
    dispStep s = .next { s.setEp 0 w with
      tokenLatch := 0, tokenPending := false,
      history := s.history ++ [.disp s.tokenLatch .setup .setup] } := by
  rw [h.dispStep_eq hrule, State.control_of_ctlState (s := s.takeBatch) h.inSetup]
  simp only [State.setEp_ctlState, State.takeBatch, h.inSetup]
  rfl

/-- SET_ADDRESS latches the address and leaves FADDR alone (R256). -/
theorem State.Requested.dispStep_setAddress (h : s.Requested c p r) (hreq : r.bRequest = 0x05) :
    dispStep s = .next { s.setEp 0 { p.resetQueue with ien := p.ien ||| 0x02 } with
      ctlAddr := r.wValue.extractLsb' 0 7, ctlState := .awaitInForAddress,
      tokenLatch := 0, tokenPending := false,
      history := s.history ++ [.disp s.tokenLatch .setup .awaitInForAddress] } := by
  rw [h.dispStep_eq (State.handleRequest_setAddress _ _ hreq), State.setAddress, setBit_in_true]
  rfl

end

/-- Settles O50: the high byte of wValue selects the response, nothing, or the stall. -/
theorem descriptorRequests : Obligations.DescriptorRequests := by
  intro s c p b0 b2 ty b4 b5 b6 b7 he hpend hst htok hread
  have h : s.Requested c p _ := ⟨he, hpend, hst, htok, requestView_of_readAll hread⟩
  have hrule := State.handleRequest_getDescriptor s.takeBatch p.resetQueue
    (r := ⟨b0, 0x06, halfLE b2 ty, halfLE b4 b5, halfLE b6 b7⟩) rfl
  have hty : (halfLE b2 ty).extractLsb' 8 8 = ty := halfLE_high b2 ty
  refine ⟨fun src hsrc => h.dispStep_respond (hrule.trans ?_), fun hstring => ?_, fun h1 h2 h3 => ?_⟩
  · obtain ⟨hdev, rfl⟩ | ⟨hcfg, hlen, rfl⟩ | ⟨hcfg, hlen, rfl⟩ := hsrc
    · exact State.getDescriptor_device _ _ (hty.trans hdev)
    · exact State.getDescriptor_header _ _ (hty.trans hcfg) hlen
    · exact State.getDescriptor_configuration _ _ (hty.trans hcfg) hlen
  · exact h.dispStep_stay (hrule.trans (State.getDescriptor_string _ _ (hty.trans hstring)))
  · rw [← hty] at h1 h2 h3
    exact h.dispStep_stay (hrule.trans (State.getDescriptor_unsupported _ _ h1 h2 h3))

/-- Settles O51: one request rule per value of bRequest. -/
theorem otherRequests : Obligations.OtherRequests := by
  intro s c p b0 req b2 b3 b4 b5 b6 b7 he hpend hst htok hread
  have h : s.Requested c p _ := ⟨he, hpend, hst, htok, requestView_of_readAll hread⟩
  refine ⟨fun hreq => ?_, fun hreq => ?_, fun hreq hlen => h.dispStep_respond ?_, fun h6 h5 h9 h0 => ?_⟩
  · rw [h.dispStep_setAddress hreq, halfLE_low]
    rfl
  · rw [h.dispStep_stay (State.handleRequest_setConfiguration _ _ hreq), Ep.doFlush_eq]
    rfl
  · have htake : s.cfg.statusBytes.take 2 = s.cfg.statusBytes := List.take_of_length_le hlen.le
    exact (State.handleRequest_getStatus _ _ hreq).trans (congrArg _ htake)
  · exact h.dispStep_stay (State.handleRequest_unsupported _ _ h6 h5 h9 h0)

/-! ### The latched address (R246, R265) -/

/-- The transmit acknowledgment of a one-bank endpoint that is no IN endpoint: a FILL bank is committed and
TXIN is cleared (42_engine_service.md R175, R176). -/
theorem Ep.clearTxAck_single {c : EpCfg} {p : Ep} (hk : c.kind ≠ .inn) (hn : c.nbanks = 1)
    (hcur : p.cur = false) :
    p.clearTxAck c = { p with
      ipend := p.ipend &&& 0x7D
      bank0 := if p.bank0.st = .fill then { p.bank0 with st := .committed } else p.bank0 } := by
  have hbank : p.bank p.cur = p.bank0 := by rw [hcur]; rfl
  have hcommit : p.commit c = { p with bank0 := { p.bank0 with st := .committed } } := by
    have hnext : nextBank c p.cur = p.cur := if_neg (by rw [hn]; decide)
    rw [Ep.commit, hnext, hbank, hcur]
    rfl
  simp only [Ep.clearTxAck, hk, false_and, decide_false, setBit_in_false, hbank]
  by_cases hfill : p.bank0.st = .fill
  · simp only [if_pos hfill, hcommit]
  · simp only [if_neg hfill]

theorem State.transition_applyAddress {s : State} (hst : s.ctlState = .awaitInForAddress) {t : Token}
    (hin : t.getLsbD 1 = true) (c : EpCfg) (p : Ep) :
    s.transition t c p = some (s.applyAddress c p) := by
  rw [← tokHas_in] at hin
  simp only [State.transition, hst, if_pos hin]

/-- Settles O49: the transition of R246; endpoint 0, a CONTROL endpoint, has one bank. -/
theorem addressApplication : Obligations.AddressApplication := by
  intro s c p he hk hn hcur hpend hst hin
  have hk' : c.kind ≠ .inn := by rw [hk]; decide
  rw [dispStep_of_transition he hpend (State.transition_applyAddress (s := s.takeBatch) hst hin c p),
    State.applyAddress, Ep.clearTxAck_single hk' hn hcur, hst]
  rfl

end Sys2Proof.Machine
end

section
/-!
PROOFS. The command word (30_encoding.md) and the checks of a command (60_exceptions.md R282): decoding inverts
encoding, the step that runs a command, and the error a command word reports.
-/

namespace Sys2Proof.Machine

/-! ### Decoding and encoding (R92, R95) -/

/-- A word decodes when its opcode selects the command and the command's reserved bits are 0. -/
theorem decode_eq_ok_iff {w : Word} {i : Instr} :
    decode w = .ok i ↔
      opcodeRow (fieldOp w).toNat (fieldEp w).toNat = some i ∧ reservedOk w i = true := by
  unfold decode
  cases opcodeRow (fieldOp w).toNat (fieldEp w).toNat with
  | none => simp
  | some j =>
    simp only [Option.some.injEq]
    cases hres : reservedOk w j with
    | true => simp only [if_true, Except.ok.injEq]; exact ⟨fun h => ⟨h, h ▸ hres⟩, And.left⟩
    | false => simp only [Bool.false_eq_true, if_false]; grind

/-- A word of a legal opcode that does not decode has reserved bits set (R97). -/
theorem decode_eq_reservedBits_iff {w : Word} :
    decode w = .error .reservedBits ↔
      ∃ i, opcodeRow (fieldOp w).toNat (fieldEp w).toNat = some i ∧ reservedOk w i = false := by
  unfold decode
  cases opcodeRow (fieldOp w).toNat (fieldEp w).toNat with
  | none => simp
  | some j => cases hres : reservedOk w j <;> simp [hres]

/-- A command is the row of its own opcode (R95). -/
theorem opcodeRow_opcodeOf (i : Instr) : opcodeRow (opcodeOf i).toNat i.endpoint = some i := by
  cases i <;> rfl

/-- What must be 0 besides RSV: EP, for DEV_SET_ADDRESS (R97). -/
theorem reservedOk_iff {w : Word} {i : Instr} :
    reservedOk w i = true ↔ fieldRsv w = 0 ∧ (i = .devSetAddress → fieldEp w = 0) := by
  cases i <;> simp [reservedOk]

/-- Settles O1: the fields of the encoded word are the command's own, so its opcode selects it and no
reserved bit is set. -/
theorem decodeOfEncode : Obligations.DecodeOfEncode := by
  intro i hwf
  obtain ⟨hop, hep, hrsv⟩ := Sys2Proof.Laws.WordFields.of_fields i hwf
  refine decode_eq_ok_iff.2 ⟨?_, reservedOk_iff.2 ⟨hrsv, ?_⟩⟩
  · rw [hop, hep, opcodeRow_opcodeOf]
  · rintro rfl
    exact BitVec.eq_of_toNat_eq hep

/-- Settles O2: the word is its three fields, and each of them is the command's. -/
theorem encodeOfDecode : Obligations.EncodeOfDecode := by
  intro w i h
  obtain ⟨hrow, hres⟩ := decode_eq_ok_iff.1 h
  obtain ⟨hrsv, hdev⟩ := reservedOk_iff.1 hres
  obtain ⟨hop, hend⟩ := opcodeRow_spec hrow
  have hep : i.endpoint = (fieldEp w).toNat := by
    rcases hend with rfl | hend
    · rw [hdev rfl]; rfl
    · exact hend
  refine ⟨by rw [WellFormed, hep]; exact (fieldEp w).isLt, ?_⟩
  rw [encode, hep, BitVec.ofNat_toNat, BitVec.setWidth_eq, BitVec.eq_of_toNat_eq hop]
  exact (hrsv ▸ word_eq_fields w).symm

/-- Settles O4: the words are encoded by evaluation; that they decode is O1. -/
theorem sampleCommandWords : Obligations.SampleCommandWords := by
  have both {i : Instr} {w : Word} (hwf : WellFormed i) (h : encode i = w) :
      decode w = .ok i ∧ encode i = w := ⟨h ▸ decodeOfEncode i hwf, h⟩
  exact ⟨both (by decide) rfl, both (by decide) rfl, both (by decide) rfl, both (by decide) rfl,
    both (by decide) rfl⟩

/-! ### The step that runs a command (R91) -/

/-- A 32-bit store at REG_BASE is a write of CMD (20_memory.md R72). -/
theorem regStore_regBase (w : Word) (s : State) : regStore s.cfg.regBase .word w s = cmdWrite w s := by
  have hoff : s.regOffset s.cfg.regBase = 0 := by simp [State.regOffset]
  simp [regStore, hoff, accessOk, regWrite]

/-- The step whose input is the store of a command word runs the command. -/
theorem step_of_command {s : State} (hs : s.shapeOk = true) {m : Bool} {w : Word} {rest : List Input}
    {i : Instr} (hin : s.inputs = ⟨m, .store s.cfg.regBase .word w⟩ :: rest) (hdec : decode w = .ok i) :
    step s = exec i { s with inputs := rest, cmd := w } := by
  have hnext : s.nextInput = ⟨m, .store s.cfg.regBase .word w⟩ := by rw [State.nextInput, hin]
  have hadv : s.advance = { s with inputs := rest } := by rw [State.advance, hin]
  rw [step_eq hs, hnext, hadv]
  refine (regStore_regBase w { s with inputs := rest }).trans ?_
  rw [cmdWrite, hdec]

theorem decodeTableWord_eq_some {nbits w : Nat} {i : Instr} :
    decodeTableWord nbits w = some i ↔ decode (BitVec.ofNat 32 (w % 2 ^ nbits)) = .ok i := by
  unfold decodeTableWord
  cases decode (BitVec.ofNat 32 (w % 2 ^ nbits)) <;> simp

/-- Settles O5: `State.withFetchWord` is the case of the store put at the head of the inputs. -/
theorem stepRunsDecodedCommand : Obligations.StepRunsDecodedCommand :=
  fun s _ hs => ⟨fun _ _ _ hin hdec => step_of_command hs hin hdec, fun nbits w hdec =>
    step_of_command (s := s.withFetchWord nbits w) hs rfl (decodeTableWord_eq_some.1 hdec)⟩

/-! ### The checks of a command (60_exceptions.md R280, R282) -/

/-- The operand bits that the command of `i` takes as must-be-0 are not all 0 (30_encoding.md R93). -/
def State.operandReserved (s : State) : Instr → Bool
  | .qPush _ => s.argByteReserved
  | .epSetStall _ => s.argBoolReserved
  | .epSetInterrupts _ | .devSetAddress => s.argSevenReserved
  | _ => false

/-- The error a decoded command reports: its operand's reserved bits, its endpoint, its capacity. -/
def State.commandError (s : State) (i : Instr) : Option (BitVec 4) :=
  if s.operandReserved i then some errReservedBits
  else if i ≠ .devSetAddress ∧ s.ep? i.endpoint = none then some errBadEndpoint
  else if i = .qInit i.endpoint ∧ s.badCapacity i.endpoint then some errBadArgument
  else none

/-- Q_INIT's capacity check asks about the parameters of the slot alone. -/
theorem State.badCapacity_eq {s : State} {e : Nat} {c : EpCfg} {p : Ep} (he : s.ep? e = some (c, p)) :
    s.badCapacity e = decide (s.argLen = 0 ∨ c.qmax < s.argLen) := by
  obtain ⟨hc, -, -⟩ := State.ep?_eq_some.1 he
  rw [State.badCapacity, hc]
  rfl

theorem exec_of_badCapacity {s : State} {e : Nat} (he : s.ep? e ≠ none) (h : s.badCapacity e = true) :
    exec (.qInit e) s = .next (s.finish errBadArgument 0) := by
  obtain ⟨⟨c, p⟩, he⟩ := Option.ne_none_iff_exists'.1 he
  rw [State.badCapacity_eq he, decide_eq_true_eq] at h
  exact (exec_qInit he).trans (if_pos h)

/-- Every command but DEV_SET_ADDRESS is a body run behind the checks of its operand and its endpoint. -/
theorem exec_eq_withEndpoint {i : Instr} (hi : i ≠ .devSetAddress) (s : State) :
    ∃ body, exec i s = withEndpoint i.endpoint (s.operandReserved i) s body := by
  cases i
  case devSetAddress => exact absurd rfl hi
  all_goals exact ⟨_, rfl⟩

theorem exec_of_operandReserved {s : State} {i : Instr} (h : s.operandReserved i = true) :
    exec i s = .next (s.finish errReservedBits 0) := by
  by_cases hi : i = .devSetAddress
  · subst hi
    exact if_pos h
  · obtain ⟨body, hbody⟩ := exec_eq_withEndpoint hi s
    rw [hbody, h]
    rfl

theorem exec_of_unconfigured {s : State} {i : Instr} (hres : s.operandReserved i = false)
    (hi : i ≠ .devSetAddress) (he : s.ep? i.endpoint = none) :
    exec i s = .next (s.finish errBadEndpoint 0) := by
  obtain ⟨body, hbody⟩ := exec_eq_withEndpoint hi s
  rw [hbody, hres]
  simp [withEndpoint, he]

/-- An error ends the command with its code and changes nothing else (R281). -/
theorem exec_of_commandError {s : State} {i : Instr} {k : BitVec 4} (h : s.commandError i = some k) :
    exec i s = .next (s.finish k 0) := by
  unfold State.commandError at h
  split at h
  case isTrue hres => cases h; exact exec_of_operandReserved hres
  case isFalse hres =>
    split at h
    case isTrue hnone => cases h; exact exec_of_unconfigured (by simpa using hres) hnone.1 hnone.2
    case isFalse hconf =>
      obtain ⟨⟨hq, hcap⟩, hk⟩ := Option.ite_none_right_eq_some.1 h
      cases hk
      rw [hq] at hconf ⊢
      exact exec_of_badCapacity (fun hnone => hconf ⟨by simp, hnone⟩) hcap

/-- A command without an error has an operand and, unless it names none, a configured endpoint. -/
theorem State.commandError_eq_none {s : State} {i : Instr} (h : s.commandError i = none) :
    s.operandReserved i = false ∧ (i ≠ .devSetAddress → ∃ c p, s.ep? i.endpoint = some (c, p)) ∧
      ∀ e, i = .qInit e → s.badCapacity e = false := by
  unfold State.commandError at h
  split at h
  case isTrue => cases h
  case isFalse hres =>
    split at h
    case isTrue => cases h
    case isFalse hnone =>
      refine ⟨by simpa using hres, fun hi => ?_, ?_⟩
      · obtain ⟨⟨c, p⟩, he⟩ := Option.ne_none_iff_exists'.1 fun he => hnone ⟨hi, he⟩
        exact ⟨c, p, he⟩
      · rintro e rfl
        simpa [Instr.endpoint] using h

/-! ### The first failing check, read from the word (R282) -/

/-- The reserved operand bits are those of the opcode's mask (30_encoding.md R93). -/
theorem State.operandReserved_iff (s : State) (i : Instr) :
    s.operandReserved i = true ↔ s.argB &&& mustBeZero (opcodeOf i).toNat ≠ 0 := by
  have h8 := extract_eq_zero_iff s.argB (k := 8) (by decide)
  have h1 := extract_eq_zero_iff s.argB (k := 1) (by decide)
  have h7 := extract_eq_zero_iff s.argB (k := 7) (by decide)
  cases i
  case qPush e => exact bne_iff_ne.trans (not_congr h8)
  case epSetStall e => exact bne_iff_ne.trans (not_congr h1)
  case epSetInterrupts e => exact bne_iff_ne.trans (not_congr h7)
  case devSetAddress => exact bne_iff_ne.trans (not_congr h7)
  all_goals simp [State.operandReserved, opcodeOf, mustBeZero]

theorem opcodeOf_eq_devSetAddress_iff (i : Instr) : opcodeOf i = 0x18 ↔ i = .devSetAddress := by
  cases i <;> simp [opcodeOf]

theorem opcodeOf_eq_qInit_iff (i : Instr) : opcodeOf i = 0x01 ↔ i = .qInit i.endpoint := by
  cases i <;> simp [opcodeOf, Instr.endpoint]

/-- The checks of a command, in the words of `State.firstError`. -/
theorem State.commandError_eq {s : State} (hl : s.eps.length = s.cfg.eps.length) (i : Instr) :
    s.commandError i =
      if s.argB &&& mustBeZero (opcodeOf i).toNat ≠ 0 then some 2
      else if opcodeOf i ≠ 0x18 ∧ s.badEndpoint i.endpoint then some 3
      else if opcodeOf i = 0x01 ∧ s.badCapacity i.endpoint then some 4 else none := by
  simp only [State.commandError, State.operandReserved_iff, ne_eq, opcodeOf_eq_devSetAddress_iff,
    State.badEndpoint_iff hl, opcodeOf_eq_qInit_iff]

/-- A word of an opcode of the map: its reserved bits come before the command's own checks. -/
theorem State.firstError_of_row {s : State} (hl : s.eps.length = s.cfg.eps.length) {w : Word} {i : Instr}
    (hrow : opcodeRow (fieldOp w).toNat (fieldEp w).toNat = some i) :
    s.firstError w = if reservedOk w i then s.commandError i else some 2 := by
  have hlegal : legalOpcode (fieldOp w).toNat := by
    by_contra hno
    rw [opcodeRow_eq_none.2 hno] at hrow
    cases hrow
  obtain ⟨hop, hend⟩ := opcodeRow_spec hrow
  have hop : opcodeOf i = fieldOp w := BitVec.eq_of_toNat_eq hop
  have hdev : fieldOp w = 0x18 ↔ i = .devSetAddress := hop ▸ opcodeOf_eq_devSetAddress_iff i
  rw [State.firstError, if_neg (not_not.2 hlegal), State.commandError_eq hl, hop]
  by_cases hres : reservedOk w i = true
  · obtain ⟨hrsv, hep⟩ := reservedOk_iff.1 hres
    have hend : (fieldEp w).toNat = i.endpoint := by
      rcases hend with rfl | hend
      · rw [hep rfl]; rfl
      · exact hend.symm
    have hep : ¬ (fieldOp w = 0x18 ∧ fieldEp w ≠ 0) := fun h => h.2 (hep (hdev.1 h.1))
    simp only [if_pos hres, hend, hrsv, hep, ne_eq, not_true_eq_false, false_or]
  · have hbits : fieldRsv w ≠ 0 ∨ (fieldOp w = 0x18 ∧ fieldEp w ≠ 0) := by
      rw [reservedOk_iff, ← hdev] at hres
      by_contra hno
      push Not at hno
      exact hres hno
    rw [if_neg hres, if_pos (hbits.elim .inl fun h => .inr (.inl h))]

/-! ### What the remaining endpoint commands do (41_endpoint_commands.md) -/

section
variable {e : Nat} {s : State} {c : EpCfg} {p : Ep}

theorem exec_epFlushComplete (he : s.ep? e = some (c, p)) :
    exec (.epFlushComplete e) s = .next (s.complete (half (!p.flush))) :=
  withEndpoint_ok _ he

theorem exec_epDataReady (he : s.ep? e = some (c, p)) :
    exec (.epDataReady e) s = .next (s.complete (half p.dataReady)) :=
  withEndpoint_ok _ he

theorem exec_epSetStall (he : s.ep? e = some (c, p)) (h : s.operandReserved (.epSetStall e) = false) :
    exec (.epSetStall e) s = .next ((s.setEp e { p with stall := s.argBool }).complete 0) := by
  have hres : s.argBoolReserved = false := h
  simp only [exec, execEpSetStall, hres, withEndpoint_ok _ he]

theorem exec_epSetInterrupts (he : s.ep? e = some (c, p))
    (h : s.operandReserved (.epSetInterrupts e) = false) :
    exec (.epSetInterrupts e) s = .next ((s.setEp e { p with ien := s.argSeven }).complete 0) := by
  have hres : s.argSevenReserved = false := h
  simp only [exec, execEpSetInterrupts, hres, withEndpoint_ok _ he]

/-- EP_WRITE's last step: IN starts when a byte was moved (R140). -/
def Ep.written (p : Ep) (n : Nat) (q : Queue) : Ep :=
  if n = 0 then { p with q := q } else Ep.startIn { p with q := q }

theorem exec_epWrite (he : s.ep? e = some (c, p)) {n : Nat} (hn : n = min s.argLen p.q.available)
    {q : Queue} (h : hostToQueue s.cfg s.hostMem n s.argA p.q = (true, q)) :
    exec (.epWrite e) s = .next ((s.setEp e (p.written n q)).complete (halfOfNat n)) := by
  subst hn
  simp only [exec, execEpWrite, withEndpoint_ok _ he, h, Ep.written, gt_iff_lt, Nat.pos_iff_ne_zero, ite_not]

theorem exec_epWrite_refused (he : s.ep? e = some (c, p)) {q : Queue}
    (h : hostToQueue s.cfg s.hostMem (min s.argLen p.q.available) s.argA p.q = (false, q)) :
    exec (.epWrite e) s = .next ((s.setEp e { p with q := q }).recordFault .hostAccess) := by
  simp only [exec, execEpWrite, withEndpoint_ok _ he, h]

theorem exec_epRead (he : s.ep? e = some (c, p)) {n : Nat} (hn : n = min s.argLen p.q.size)
    {q : Queue} {m : Mem} (h : queueToHost s.cfg n s.argA p.q s.hostMem = some (true, q, m)) :
    exec (.epRead e) s =
      .next ({ s.setEp e { p with q := q } with hostMem := m }.complete (halfOfNat n)) := by
  subst hn
  simp only [exec, execEpRead, withEndpoint_ok _ he, h]

theorem exec_epRead_refused (he : s.ep? e = some (c, p)) {q : Queue} {m : Mem}
    (h : queueToHost s.cfg (min s.argLen p.q.size) s.argA p.q s.hostMem = some (false, q, m)) :
    exec (.epRead e) s =
      .next ({ s.setEp e { p with q := q } with hostMem := m }.recordFault .hostAccess) := by
  simp only [exec, execEpRead, withEndpoint_ok _ he, h]

theorem exec_epRead_unwritten (he : s.ep? e = some (c, p))
    (h : queueToHost s.cfg (min s.argLen p.q.size) s.argA p.q s.hostMem = none) :
    exec (.epRead e) s = unwrittenFault s := by
  simp only [exec, execEpRead, withEndpoint_ok _ he, h]

theorem exec_qPop_unwritten (he : s.ep? e = some (c, p)) (h : p.q.pop = none) :
    exec (.qPop e) s = unwrittenFault s := by
  simp only [exec, execQPop, withEndpoint_ok _ he, h]

theorem exec_qPeek_unwritten (he : s.ep? e = some (c, p)) (h : p.q.peek = none) :
    exec (.qPeek e) s = unwrittenFault s := by
  simp only [exec, execQPeek, withEndpoint_ok _ he, h]

end

/-! ### What a command can end in -/

/-- Every next state of a command: an error; a result alone; its endpoint changed but for the callback and the
written bytes of storage, with HOST memory as it may be; a callback bound; the address written; or a refused
host access with the bytes before it moved. -/
inductive CommandEnd (s : State) : Instr → State → Prop
  | error {i : Instr} {k : BitVec 4} (hk : s.commandError i = some k) : CommandEnd s i (s.finish k 0)
  | query {i : Instr} (r : Half) : CommandEnd s i (s.finish 0 r)
  | endpoint {i : Instr} {c : EpCfg} {p p' : Ep} (he : s.ep? i.endpoint = some (c, p)) (hk : Ep.Kept p p')
      (m : Mem) (r : Half) : CommandEnd s i ({ s.setEp i.endpoint p' with hostMem := m }.finish 0 r)
  | callback {e : Nat} {c : EpCfg} {p : Ep} (he : s.ep? e = some (c, p)) (h0 : e ≠ 0) :
      CommandEnd s (.epSetCallback e) ((s.setEp e { p with cb := s.argA, cbctx := s.argC }).finish 0 1)
  | address : CommandEnd s .devSetAddress ({ s with faddr := s.argB.extractLsb' 0 7 }.finish 0 0)
  | refused {i : Instr} {c : EpCfg} {p p' : Ep} (he : s.ep? i.endpoint = some (c, p)) (hk : Ep.Kept p p')
      (m : Mem) : CommandEnd s i ({ s.setEp i.endpoint p' with hostMem := m }.recordFault .hostAccess)

/-- A change of the queue that leaves every written byte of its storage written. -/
theorem Ep.Kept.withQueue {p : Ep} {q : Queue}
    (h : ∀ j, (Mem.read p.q.mem j).isSome → (Mem.read q.mem j).isSome) : Ep.Kept p { p with q := q } :=
  ⟨rfl, rfl, h⟩

theorem Ep.Kept.of_queue_mem {p : Ep} {q : Queue} (h : q.mem = p.q.mem) : Ep.Kept p { p with q := q } :=
  .of_eq rfl rfl h

/-- Bytes of HOST memory leave the queue's storage written, whatever the queue is. -/
theorem hostToQueue_written (c : Config) (m : Mem) (n : Nat) (a : Word) (q : Queue) {j : Nat}
    (hj : (Mem.read q.mem j).isSome) : (Mem.read (hostToQueue c m n a q).2.mem j).isSome := by
  induction n generalizing a q with
  | zero => exact hj
  | succ n ih =>
    unfold hostToQueue
    split
    · exact ih _ _ (Queue.isSome_push hj _)
    · exact hj

theorem Ep.Kept.of_written {p : Ep} {q : Queue}
    (h : ∀ j, (Mem.read p.q.mem j).isSome → (Mem.read q.mem j).isSome) (n : Nat) :
    Ep.Kept p (p.written n q) := by
  unfold Ep.written
  split
  · exact .withQueue h
  · exact (Ep.Kept.withQueue h).trans (.startIn _)

theorem execEpWrite_cases {s t : State} {e : Nat} {c : EpCfg} {p : Ep} (he : s.ep? e = some (c, p))
    (h : exec (.epWrite e) s = .next t) : CommandEnd s (.epWrite e) t := by
  have hkept (j) := hostToQueue_written s.cfg s.hostMem (min s.argLen p.q.available) s.argA p.q (j := j)
  rcases hq : hostToQueue s.cfg s.hostMem (min s.argLen p.q.available) s.argA p.q with ⟨_ | _, q⟩
  · rw [exec_epWrite_refused he hq] at h
    rw [hq] at hkept
    cases h
    exact .refused he (.withQueue hkept) s.hostMem
  · rw [exec_epWrite he rfl hq] at h
    rw [hq] at hkept
    cases h
    exact .endpoint he (.of_written hkept _) s.hostMem _

theorem execEpRead_cases {s t : State} {e : Nat} {c : EpCfg} {p : Ep} (he : s.ep? e = some (c, p))
    (h : exec (.epRead e) s = .next t) : CommandEnd s (.epRead e) t := by
  rcases hq : queueToHost s.cfg (min s.argLen p.q.size) s.argA p.q s.hostMem with _ | ⟨_ | _, q, m⟩
  · rw [exec_epRead_unwritten he hq] at h
    cases h
  · obtain ⟨-, hmem, -, -⟩ := queueToHost_frame hq
    rw [exec_epRead_refused he hq] at h
    cases h
    exact .refused he (.of_queue_mem hmem) m
  · obtain ⟨-, hmem, -, -⟩ := queueToHost_frame hq
    rw [exec_epRead he rfl hq] at h
    cases h
    exact .endpoint he (.of_queue_mem hmem) m _

/-- A command that changes its endpoint and then completes. -/
theorem CommandEnd.of_complete {s t : State} {i : Instr} {c : EpCfg} {p p' : Ep} {r : Half}
    (h : exec i s = .next t) (he : s.ep? i.endpoint = some (c, p))
    (hexec : exec i s = .next ((s.setEp i.endpoint p').complete r)) (hk : Ep.Kept p p') :
    CommandEnd s i t := by
  rw [hexec] at h
  cases h
  exact .endpoint he hk s.hostMem r

/-- A command that completes with a result alone. -/
theorem CommandEnd.of_query {s t : State} {i : Instr} {r : Half} (h : exec i s = .next t)
    (hexec : exec i s = .next (s.complete r)) : CommandEnd s i t := by
  rw [hexec] at h
  cases h
  exact .query r

/-- Every next state of a command is one of `CommandEnd`. -/
theorem exec_cases {s t : State} {i : Instr} (h : exec i s = .next t) : CommandEnd s i t := by
  cases herr : s.commandError i with
  | some k =>
    rw [exec_of_commandError herr] at h
    cases h
    exact .error herr
  | none =>
    obtain ⟨hres, hep, hcap⟩ := State.commandError_eq_none herr
    by_cases hdev : i = .devSetAddress
    · subst hdev
      have hzero : s.argB.extractLsb' 7 9 = 0 := bne_eq_false_iff_eq.1 hres
      rw [exec_devSetAddress, if_pos hzero] at h
      cases h
      exact .address
    · obtain ⟨c, p, he⟩ := hep hdev
      cases i with
      | qInit e =>
        have hok := (State.badCapacity_eq he).symm.trans (hcap e rfl)
        rw [decide_eq_false_iff_not] at hok
        exact .of_complete h he ((exec_qInit he).trans (if_neg hok)) (.of_queue_mem rfl)
      | qReset e => exact .of_complete h he (exec_qReset he) (.of_queue_mem rfl)
      | qPush e =>
        exact .of_complete h he (exec_qPush he (bne_eq_false_iff_eq.1 hres))
          (.withQueue fun j hj => Queue.isSome_push hj _)
      | qPop e =>
        cases hpop : p.q.pop with
        | none => cases (exec_qPop_unwritten he hpop).symm.trans h
        | some r => exact .of_complete h he (exec_qPop he hpop) (.of_queue_mem (Queue.pop_mem hpop))
      | qPeek e =>
        cases hpeek : p.q.peek with
        | none => cases (exec_qPeek_unwritten he hpeek).symm.trans h
        | some r => exact .of_complete h he (exec_qPeek he hpeek) (.of_queue_mem (Queue.peek_mem hpeek))
      | qAvailable e => exact .of_query h (exec_qAvailable he)
      | qFull e => exact .of_query h (exec_qFull he)
      | qEmpty e => exact .of_query h (exec_qEmpty he)
      | qFailed e => exact .of_query h (exec_qFailed he)
      | qClrfail e => exact .of_complete h he (exec_qClrfail he) (.of_queue_mem rfl)
      | epWrite e => exact execEpWrite_cases he h
      | epRead e => exact execEpRead_cases he h
      | epFlush e => exact .of_complete h he (exec_epFlush he) (.doFlush p)
      | epFlushComplete e => exact .of_query h (exec_epFlushComplete he)
      | epDataReady e => exact .of_query h (exec_epDataReady he)
      | epSetCallback e =>
        by_cases h0 : e = 0
        · exact .of_query h ((exec_epSetCallback he).trans (if_pos h0))
        · cases h.symm.trans ((exec_epSetCallback he).trans (if_neg h0))
          exact .callback he h0
      | epSetStall e => exact .of_complete h he (exec_epSetStall he hres) (.of_eq rfl rfl rfl)
      | epSetInterrupts e => exact .of_complete h he (exec_epSetInterrupts he hres) (.of_eq rfl rfl rfl)
      | devSetAddress => exact absurd rfl hdev

/-! ### How a command ends (R281, R91) -/

/-- A command that passes its checks completes, or a refused host access stops it. -/
theorem CommandEnd.status_history {s t : State} {i : Instr} (hend : CommandEnd s i t)
    (hok : s.commandError i = none) :
    (t.status = 0 ∧ t.history = s.history ++ [.cmd s.cmd 0 t.result]) ∨
      (t.faultHost = true ∧ t.status = s.status ∧ t.result = s.result ∧
        t.history = s.history ++ [.fault .hostAccess]) := by
  cases hend with
  | error hk => rw [hok] at hk; cases hk
  | query => exact .inl ⟨rfl, rfl⟩
  | endpoint => exact .inl ⟨rfl, rfl⟩
  | callback => exact .inl ⟨rfl, rfl⟩
  | address => exact .inl ⟨rfl, rfl⟩
  | refused => exact .inr ⟨rfl, rfl, rfl, rfl⟩

/-- Settles O6: a word without a command reports what the decoder finds; a command reports the first of its own
checks, and `CommandEnd` says how it ends when all pass. -/
theorem commandCheckOrder : Obligations.CommandCheckOrder := by
  intro s w hl
  cases hdec : decode w with
  | error err =>
    obtain ⟨k, hfirst, hwrite⟩ : ∃ k, s.firstError w = some k ∧
        cmdWrite w s = .next ({ s with cmd := w }.finish k 0) := by
      cases err with
      | illegalOpcode =>
        exact ⟨1, if_pos ((decode_eq_illegalOpcode_iff w).1 hdec), cmdWrite_of_illegalOpcode hdec s⟩
      | reservedBits =>
        refine ⟨2, ?_, cmdWrite_of_reservedBits hdec s⟩
        obtain ⟨i, hrow, hres⟩ := decode_eq_reservedBits_iff.1 hdec
        rw [State.firstError_of_row hl hrow, hres]
        rfl
    refine ⟨fun k' hk' => ?_, fun hnone => ?_⟩
    · cases hfirst.symm.trans hk'
      exact hwrite
    · rw [hfirst] at hnone
      cases hnone
  | ok i =>
    obtain ⟨hrow, hres⟩ := decode_eq_ok_iff.1 hdec
    have hfirst : s.firstError w = State.commandError { s with cmd := w } i := by
      rw [State.firstError_of_row hl hrow, hres]
      rfl
    have hwrite : cmdWrite w s = exec i { s with cmd := w } := by rw [cmdWrite, hdec]
    rw [hfirst, hwrite]
    exact ⟨fun k hk => exec_of_commandError hk, fun hok => ⟨⟨i, rfl⟩, fun t ht =>
      (exec_cases ht).status_history hok⟩⟩

end Sys2Proof.Machine
end

section
/-!
PROOFS. The commands of the endpoint contract (41_endpoint_commands.md): the transfers between a queue and HOST
memory, the queries, and the two commands that write STALL and IEN.
-/

namespace Sys2Proof.Machine

/-! ### Queries and flags -/

/-- Settles O17: each query completes with its flag of the endpoint. -/
theorem epQueriesResult : Obligations.EpQueriesResult := by
  refine ⟨fun e => ⟨rfl, rfl⟩, fun e s c p he => ⟨?_, exec_epDataReady he⟩⟩
  rw [exec_epFlushComplete he]
  cases p.flush <;> rfl

/-- Settles O19: the operand's reserved bits are checked first, and its low bit is the flag. -/
theorem epSetStallResult : Obligations.EpSetStallResult := by
  refine ⟨fun e => rfl, fun e s c p he => ⟨fun hzero => ?_, fun hres => ?_⟩⟩
  · exact exec_epSetStall he (bne_eq_false_iff_eq.2 hzero)
  · exact exec_of_operandReserved (i := .epSetStall e) (bne_iff_ne.2 hres)

/-- Settles O20: as for EP_SET_STALL, with the mask in the low seven bits. -/
theorem epSetInterruptsResult : Obligations.EpSetInterruptsResult := by
  refine ⟨fun e => rfl, fun e s c p he => ⟨fun hzero => ?_, fun hres => ?_⟩⟩
  · exact exec_epSetInterrupts he (bne_eq_false_iff_eq.2 hzero)
  · exact exec_of_operandReserved (i := .epSetInterrupts e) (bne_iff_ne.2 hres)

/-! ### HOST memory to a queue (R140) -/

/-- A queue after the bytes `vs`, which fit, are pushed: what EP_WRITE says of it. -/
theorem Queue.pushAll_spec {q : Queue} {vs : List Byte} (h : q.size + vs.length ≤ q.cap) :
    (q.pushAll vs).contents = q.contents ++ vs.map some ∧ (q.pushAll vs).cap = q.cap ∧
    (q.pushAll vs).rd = q.rd ∧ (q.pushAll vs).size = q.size + vs.length ∧
    (q.pushAll vs).fail = q.fail :=
  ⟨Queue.contents_pushAll h, Queue.pushAll_cap q vs, Queue.pushAll_rd q vs, Queue.pushAll_size h,
    Queue.pushAll_fail h⟩

theorem Ep.written_eq (p : Ep) (n : Nat) (q : Queue) :
    p.written n q =
      if n = 0 then { p with q := q } else { p with q := q, ien := p.ien ||| 0x02, dir := .inn } := by
  rw [Ep.written, Ep.startIn, setBit_in_true]

/-- Settles O13: the admitted reads push the host bytes in order (`hostToQueue_admitted`). -/
theorem epWriteResult : Obligations.EpWriteResult := by
  refine ⟨fun e => rfl, fun e s c p n he hq hn hadm => ?_⟩
  have hroom : p.q.size + (hostBytes s.hostMem s.argA n).length ≤ p.q.cap := by
    have := hq.size_le
    rw [hostBytes_length]; omega
  obtain ⟨hcont, hcap, hrd, hsize, hfail⟩ := Queue.pushAll_spec hroom
  refine ⟨_, hcont, hcap, hrd, by rw [hsize, hostBytes_length], hfail, fun k hk => ?_, ?_⟩
  · exact Queue.pushAll_mem hroom k (by rwa [hostBytes_length])
  · rw [exec_epWrite he hn (hostToQueue_admitted s.cfg s.hostMem p.q hadm), Ep.written_eq]
    rfl

/-! ### A queue to HOST memory (R141) -/

/-- Settles O14: the admitted writes move the front bytes in order (`queueToHost_admitted`). -/
theorem epReadResult : Obligations.EpReadResult := by
  refine ⟨fun e => rfl, fun e s c p n he hq hm hn hadm => ?_⟩
  have hlt : n < 2 ^ 32 := by have := s.argB.isLt; omega
  obtain ⟨vs, q', m', hrun, hlen, hcont, hcap, hrd, hsize, hfail, hmem, hnew, hold⟩ :=
    queueToHost_admitted hq hm (by omega) hlt hadm
  exact ⟨vs, q', m', hlen, hcont, hcap, hrd, hsize, hfail, hmem, hnew, hold, exec_epRead he hn hrun⟩

/-- After `n` bytes moved, the transfer goes on with the rest. -/
theorem queueToHost_add {c : Config} {n : Nat} {a : Word} {q q' : Queue} {m m' : Mem}
    (h : queueToHost c n a q m = some (true, q', m')) (j : Nat) :
    queueToHost c (n + j) a q m = queueToHost c j (a + BitVec.ofNat 32 n) q' m' := by
  induction n generalizing a q m with
  | zero => cases h; simp
  | succ n ih =>
    rw [show n + 1 + j = (n + j) + 1 by omega]
    rw [queueToHost] at h ⊢
    split at h
    · cases h
    · split at h
      · rename_i hadm
        simp only [if_pos hadm]
        rw [ih h, show n + 1 = 1 + n by omega, BitVec.ofNat_add, ← BitVec.add_assoc]
        rfl
      · cases h

/-- A refused first write leaves HOST memory alone; the byte may or may not have left the queue (R73). -/
theorem queueToHost_refused {c : Config} {n : Nat} {a : Word} {q q' : Queue} {m : Mem} {v : Byte}
    (hn : n ≠ 0) (hpop : q.pop = some (v, q')) (ha : hostAdmits c true a = false) :
    queueToHost c n a q m = some (false, if Config.refusedByteHasLeft then q' else q, m) := by
  obtain ⟨n, rfl⟩ := Nat.exists_eq_succ_of_ne_zero hn
  simp only [queueToHost, hpop, ha, Bool.false_eq_true, if_false]

/-- Settles O15: up to the refused byte the transfer is the admitted one; the refusal ends it. -/
theorem hostAccessRefused : Obligations.HostAccessRefused := by
  intro e s c p k he hq hm
  have hsize := hq.size_le
  refine ⟨fun hk hadm href => ?_, fun hk hadm href => ?_⟩
  · have hroom : p.q.size + (hostBytes s.hostMem s.argA k).length ≤ p.q.cap := by
      rw [hostBytes_length]; omega
    obtain ⟨hcont, hcap, -, -, hfail⟩ := Queue.pushAll_spec hroom
    exact ⟨_, hcont, hcap, hfail, exec_epWrite_refused he (hostToQueue_refused _ _ _ hk hadm href)⟩
  · have hlt : k < 2 ^ 32 := by have := s.argB.isLt; omega
    obtain ⟨vs, q₁, m', hrun, hlen, hcont, hcap, hrd, hleft, hfail, hmem, hnew, hold⟩ :=
      queueToHost_admitted hq hm (by omega) hlt hadm
    obtain ⟨_, _, _, hrun', hq₁, -, -⟩ := hq.queueToHost s.cfg hm k s.argA
    cases hrun.symm.trans hrun'
    have hne : q₁.size ≠ 0 := by omega
    obtain ⟨x, hx⟩ := hq₁.front hne
    have hpop := Queue.pop_some hne hx
    have hfront := Queue.contents_pop hq₁.rd_lt hne hpop
    obtain ⟨j, hj⟩ := Nat.exists_eq_add_of_lt hk
    have hstop := (queueToHost_add hrun (j + 1)).trans (queueToHost_refused (Nat.succ_ne_zero j) hpop href)
    rw [← Nat.add_assoc, ← hj] at hstop
    refine ⟨vs, x, _, _, m', hlen, hfront ▸ hcont, ?_, ?_, ?_, ?_, hnew, hold, exec_epRead_refused he hstop⟩
    · cases Config.refusedByteHasLeft
      · exact .inl hfront
      · exact .inr rfl
    all_goals split <;> assumption

end Sys2Proof.Machine
end

section
/-!
PROOFS. What each command leaves unchanged (40_queue_commands.md, 41_endpoint_commands.md): the frames of the
queue commands, the queries, the endpoint's control commands and the two transfers.
-/

namespace Sys2Proof.Machine

/-! ### The frame of a command on one endpoint -/

/-- From `s` to `t` a command wrote RESULT, STATUS, the history and the record of endpoint `e`, and that record
as `P` allows. -/
structure CommandFrame (e : Nat) (P : Ep → Ep → Prop) (s t : State) : Prop where
  rest : t = { s with eps := t.eps, result := t.result, status := t.status, history := t.history }
  length : t.eps.length = s.eps.length
  others : ∀ j, j ≠ e → t.eps[j]? = s.eps[j]?
  endpoint : ∀ p, s.eps[e]? = some p → ∃ r, t.eps[e]? = some r ∧ P p r

theorem CommandFrame.finish {P : Ep → Ep → Prop} (hrefl : ∀ p, P p p) (e : Nat) (s : State) (k : BitVec 4)
    (r : Half) : CommandFrame e P s (s.finish k r) :=
  ⟨rfl, rfl, fun _ _ => rfl, fun p hp => ⟨p, hp, hrefl p⟩⟩

theorem CommandFrame.setEp {P : Ep → Ep → Prop} {s : State} {e : Nat} {c : EpCfg} {p p' : Ep}
    (he : s.ep? e = some (c, p)) (hP : P p p') (r : Half) :
    CommandFrame e P s ((s.setEp e p').complete r) where
  rest := rfl
  length := by simp
  others j hj := State.setEp_eps_ne hj
  endpoint q hq := by
    obtain ⟨-, hp, -⟩ := State.ep?_eq_some.1 he
    cases hp.symm.trans hq
    exact ⟨p', (State.ep?_eq_some.1 (State.ep?_setEp_same he p')).2.1, hP⟩

/-- The frame of a command follows from what it does when its checks pass: an error changes no endpoint. -/
theorem CommandFrame.of_exec {P : Ep → Ep → Prop} (hrefl : ∀ p, P p p) {s t : State} {i : Instr}
    (hi : i ≠ .devSetAddress) (h : exec i s = .next t)
    (hbody : ∀ c p, s.commandError i = none → s.ep? i.endpoint = some (c, p) →
      ∃ p' r, exec i s = .next ((s.setEp i.endpoint p').complete r) ∧ P p p') :
    CommandFrame i.endpoint P s t := by
  cases herr : s.commandError i with
  | some k =>
    cases h.symm.trans (exec_of_commandError herr)
    exact .finish hrefl _ s k 0
  | none =>
    obtain ⟨-, hep, -⟩ := State.commandError_eq_none herr
    obtain ⟨c, p, he⟩ := hep hi
    obtain ⟨p', r, hexec, hP⟩ := hbody c p herr he
    cases h.symm.trans hexec
    exact .setEp he hP r

/-! ### The queue commands (R110 to R114, R120 to R124, R129) -/

/-- What the queue command `i` of endpoint `e` leaves of the queue `q` in `q'`. -/
structure QueueFrame (e : Nat) (i : Instr) (q q' : Queue) : Prop where
  cap : i ≠ .qInit e → q'.cap = q.cap
  rd : i ≠ .qInit e → i ≠ .qReset e → i ≠ .qPop e → q'.rd = q.rd
  size : i = .qPeek e ∨ i = .qClrfail e → q'.size = q.size
  fail : i = .qReset e → q'.fail = q.fail
  mem : ∀ k, ¬ (i = .qPush e ∧ q.size ≠ q.cap ∧ k = (q.rd + q.size) % q.cap) →
    Mem.read q'.mem k = Mem.read q.mem k

/-- Only the queue of the record changes, within its frame. -/
def QueueOnly (e : Nat) (i : Instr) (p r : Ep) : Prop := ∃ q, r = { p with q := q } ∧ QueueFrame e i p.q q

theorem QueueOnly.refl (e : Nat) (i : Instr) (p : Ep) : QueueOnly e i p p :=
  ⟨p.q, rfl, fun _ => rfl, fun _ _ _ => rfl, fun _ => rfl, fun _ => rfl, fun _ _ => rfl⟩

/-- A push writes the slot after the bytes held, and only when there is room. -/
theorem QueueFrame.push (e : Nat) (q : Queue) (v : Byte) : QueueFrame e (.qPush e) q (q.push v).2 where
  cap _ := Queue.push_cap q v
  rd _ _ _ := Queue.push_rd q v
  size h := by simp at h
  fail h := by simp at h
  mem k hk := by
    by_cases hfull : q.size = q.cap
    · rw [Queue.push_full hfull]
    · rw [Queue.push_room hfull]
      exact Mem.read_write_ne _ _ fun hslot => hk ⟨rfl, hfull, hslot⟩

theorem QueueFrame.pop {q q' : Queue} {v : Byte} (e : Nat) (h : q.pop = some (v, q')) :
    QueueFrame e (.qPop e) q q' where
  cap _ := by rcases Queue.pop_cases h with ⟨_, _, rfl⟩ | ⟨_, _, rfl⟩ <;> rfl
  rd _ _ hne := absurd rfl hne
  size hi := by simp at hi
  fail hi := by simp at hi
  mem k _ := by rw [Queue.pop_mem h]

theorem QueueFrame.peek {q q' : Queue} {v : Byte} (e : Nat) (h : q.peek = some (v, q')) :
    QueueFrame e (.qPeek e) q q' := by
  rcases Queue.peek_cases h with ⟨_, _, rfl⟩ | ⟨_, _, rfl⟩ <;>
    exact ⟨fun _ => rfl, fun _ _ _ => rfl, fun _ => rfl, by simp, fun _ _ => rfl⟩

theorem exec_queueFrame {e : Nat} {i : Instr} {s t : State}
    (hi : i ∈ [Instr.qInit e, .qReset e, .qPush e, .qPop e, .qPeek e, .qClrfail e])
    (h : exec i s = .next t) : CommandFrame e (QueueOnly e i) s t := by
  have hbase {i} := @CommandFrame.of_exec (QueueOnly e i) (.refl e i) s t i
  simp only [List.mem_cons, List.not_mem_nil, or_false] at hi
  rcases hi with rfl | rfl | rfl | rfl | rfl | rfl
  · refine hbase (by simp) h fun c p hok he => ?_
    have hcap := (State.badCapacity_eq he).symm.trans ((State.commandError_eq_none hok).2.2 e rfl)
    rw [decide_eq_false_iff_not] at hcap
    exact ⟨_, _, (exec_qInit he).trans (if_neg hcap), _, rfl, by simp, by simp, by simp, by simp,
      fun _ _ => rfl⟩
  · exact hbase (by simp) h fun c p _ he => ⟨_, _, exec_qReset he, _, rfl, by simp, by simp, by simp,
      by simp, fun _ _ => rfl⟩
  · exact hbase (by simp) h fun c p hok he => ⟨_, _, exec_qPush he
      (bne_eq_false_iff_eq.1 (State.commandError_eq_none hok).1), _, rfl, .push e p.q _⟩
  · refine hbase (by simp) h fun c p _ he => ?_
    cases hpop : p.q.pop with
    | none => cases (exec_qPop_unwritten he hpop).symm.trans h
    | some r => exact ⟨_, _, exec_qPop he hpop, _, rfl, .pop e hpop⟩
  · refine hbase (by simp) h fun c p _ he => ?_
    cases hpeek : p.q.peek with
    | none => cases (exec_qPeek_unwritten he hpeek).symm.trans h
    | some r => exact ⟨_, _, exec_qPeek he hpeek, _, rfl, .peek e hpeek⟩
  · exact hbase (by simp) h fun c p _ he => ⟨_, _, exec_qClrfail he, _, rfl, fun _ => rfl,
      fun _ _ _ => rfl, fun _ => rfl, by simp, fun _ _ => rfl⟩

/-- Settles O22: the six commands write one queue (`exec_queueFrame`). -/
theorem queueCommandFrame : Obligations.QueueCommandFrame := by
  intro e i s t hi h
  have hframe := exec_queueFrame hi h
  have hhost : t.hostMem = s.hostMem := by rw [hframe.rest]
  refine ⟨hframe.rest, hframe.length, hframe.others, fun a => by rw [hhost], fun p hp => ?_⟩
  obtain ⟨r, hr, q, rfl, hq⟩ := hframe.endpoint p hp
  exact ⟨q, hr, hq.cap, hq.rd, hq.size, hq.fail, hq.mem⟩

/-! ### The queries (R125 to R128, R143, R144) -/

/-- A query writes no endpoint, whether it completes or reports an error. -/
theorem exec_query {e : Nat} {i : Instr} {s t : State}
    (hi : i ∈ [Instr.qAvailable e, .qFull e, .qEmpty e, .qFailed e, .epFlushComplete e, .epDataReady e])
    (h : exec i s = .next t) : ∃ k r, t = s.finish k r := by
  cases herr : s.commandError i with
  | some k =>
    cases h.symm.trans (exec_of_commandError herr)
    exact ⟨k, 0, rfl⟩
  | none =>
    have hdone {r : Half} (hexec : exec i s = .next (s.complete r)) : ∃ k r, t = s.finish k r := by
      cases h.symm.trans hexec
      exact ⟨0, r, rfl⟩
    have hep := (State.commandError_eq_none herr).2.1
    simp only [List.mem_cons, List.not_mem_nil, or_false] at hi
    rcases hi with rfl | rfl | rfl | rfl | rfl | rfl <;> obtain ⟨c, p, he⟩ := hep (by simp)
    · exact hdone (exec_qAvailable he)
    · exact hdone (exec_qFull he)
    · exact hdone (exec_qEmpty he)
    · exact hdone (exec_qFailed he)
    · exact hdone (exec_epFlushComplete he)
    · exact hdone (exec_epDataReady he)

/-- Settles O23: a query only ends its command. -/
theorem queryFrame : Obligations.QueryFrame := by
  intro e i s t hi h
  obtain ⟨k, r, rfl⟩ := exec_query hi h
  exact ⟨rfl, fun _ => rfl⟩

/-! ### The endpoint's control commands (R142, R145 to R148) -/

/-- What the control command `i` of endpoint `e` leaves of the record `p` in `r`. -/
structure ControlFrame (e : Nat) (i : Instr) (p r : Ep) : Prop where
  rest : r = { p with
    flush := r.flush, dir := r.dir, stall := r.stall, ien := r.ien, cb := r.cb, cbctx := r.cbctx }
  flush : i ≠ .epFlush e → r.flush = p.flush ∧ r.dir = p.dir
  ien : i ≠ .epFlush e → i ≠ .epSetInterrupts e → r.ien = p.ien
  ienBits : ∀ k, i = .epFlush e → k ≠ 1 → r.ien.getLsbD k = p.ien.getLsbD k
  stall : i ≠ .epSetStall e → r.stall = p.stall
  callback : i ≠ .epSetCallback e → r.cb = p.cb ∧ r.cbctx = p.cbctx

theorem ControlFrame.refl (e : Nat) (i : Instr) (p : Ep) : ControlFrame e i p p :=
  ⟨rfl, fun _ => ⟨rfl, rfl⟩, fun _ _ => rfl, fun _ _ _ => rfl, fun _ => rfl, fun _ => ⟨rfl, rfl⟩⟩

/-- EP_FLUSH sets IEN bit 1 alone (R150). -/
theorem ControlFrame.doFlush (e : Nat) (p : Ep) : ControlFrame e (.epFlush e) p p.doFlush :=
  ⟨rfl, by simp, by simp, fun k _ hk => (getLsbD_setBit p.ien bitIn k true).trans (if_neg hk),
    fun _ => rfl, fun _ => ⟨rfl, rfl⟩⟩

theorem exec_controlFrame {e : Nat} {i : Instr} {s t : State}
    (hi : i ∈ [Instr.epFlush e, .epSetCallback e, .epSetStall e, .epSetInterrupts e])
    (h : exec i s = .next t) : CommandFrame e (ControlFrame e i) s t := by
  have hbase {i} := @CommandFrame.of_exec (ControlFrame e i) (.refl e i) s t i
  simp only [List.mem_cons, List.not_mem_nil, or_false] at hi
  rcases hi with rfl | rfl | rfl | rfl
  · exact hbase (by simp) h fun c p _ he => ⟨_, _, exec_epFlush he, .doFlush e p⟩
  · refine hbase (by simp) h fun c p _ he => ?_
    by_cases h0 : e = 0
    · exact ⟨p, 0, by rw [State.setEp_self he]; exact (exec_epSetCallback he).trans (if_pos h0), .refl _ _ p⟩
    · exact ⟨_, _, (exec_epSetCallback he).trans (if_neg h0), rfl, fun _ => ⟨rfl, rfl⟩, fun _ _ => rfl,
        fun _ _ _ => rfl, fun _ => rfl, by simp⟩
  · exact hbase (by simp) h fun c p hok he => ⟨_, _, exec_epSetStall he (State.commandError_eq_none hok).1,
      rfl, fun _ => ⟨rfl, rfl⟩, fun _ _ => rfl, fun _ _ _ => rfl, by simp, fun _ => ⟨rfl, rfl⟩⟩
  · exact hbase (by simp) h fun c p hok he => ⟨_, _,
      exec_epSetInterrupts he (State.commandError_eq_none hok).1,
      rfl, fun _ => ⟨rfl, rfl⟩, by simp, by simp, fun _ => rfl, fun _ => ⟨rfl, rfl⟩⟩

theorem exec_devSetAddress_frame {s t : State} (h : exec .devSetAddress s = .next t) :
    ∃ a k r, t = { s with faddr := a }.finish k r := by
  rw [exec_devSetAddress] at h
  split at h
  · cases h; exact ⟨_, _, _, rfl⟩
  · cases h; exact ⟨s.faddr, _, _, rfl⟩

/-- Settles O24: four commands write flags of one endpoint (`exec_controlFrame`), the fifth writes FADDR. -/
theorem endpointControlFrame : Obligations.EndpointControlFrame := by
  intro e i s t hi h
  by_cases hdev : i = .devSetAddress
  · subst hdev
    obtain ⟨a, k, r, rfl⟩ := exec_devSetAddress_frame h
    refine ⟨rfl, fun hne => absurd rfl hne, rfl, fun _ _ => rfl, fun _ => rfl, fun p hp => ?_⟩
    obtain ⟨h1, h2, h3, h4, h5, h6⟩ := ControlFrame.refl e .devSetAddress p
    exact ⟨p, hp, h1, h2, h3, h4, h5, h6⟩
  · have hframe := exec_controlFrame (e := e) (by simpa [hdev] using hi) h
    have haddr : t.faddr = s.faddr := by rw [hframe.rest]
    have hhost : t.hostMem = s.hostMem := by rw [hframe.rest]
    refine ⟨by rw [haddr]; exact hframe.rest, fun _ => haddr, hframe.length, hframe.others,
      fun a => by rw [hhost], fun p hp => ?_⟩
    obtain ⟨r, hr, h1, h2, h3, h4, h5, h6⟩ := hframe.endpoint p hp
    exact ⟨r, hr, h1, h2, h3, h4, h5, h6⟩

/-! ### The transfers (R140, R141) -/

section
variable {e : Nat} {s t : State} {c : EpCfg} {p : Ep}

/-- The record EP_WRITE leaves: a queue with bytes joined, and IN started or not. -/
theorem Ep.written_frame (p : Ep) (n : Nat) (q : Queue) :
    (p.written n q).q = q ∧
    p.written n q = { p with q := q, dir := (p.written n q).dir, ien := (p.written n q).ien } ∧
    ∀ k, k ≠ 1 → (p.written n q).ien.getLsbD k = p.ien.getLsbD k := by
  unfold Ep.written
  split
  · exact ⟨rfl, rfl, fun _ _ => rfl⟩
  · exact ⟨rfl, rfl, fun k hk => (getLsbD_setBit p.ien bitIn k true).trans (if_neg hk)⟩

/-- From `s` to `t` a transfer ended, or was stopped by a refused access, with endpoint `e` left as `r`. -/
def TransferEnd (e : Nat) (r : Ep) (s t : State) : Prop :=
  t = { s with
    eps := s.eps.set e r, result := t.result, status := t.status, history := t.history
    hostMem := t.hostMem, faultHost := t.faultHost }

theorem TransferEnd.frame {r : Ep} (h : TransferEnd e r s t) (he : s.ep? e = some (c, p)) :
    t = { s with
      eps := t.eps, result := t.result, status := t.status, history := t.history,
      hostMem := t.hostMem, faultHost := t.faultHost } ∧
    t.eps.length = s.eps.length ∧ (∀ j, j ≠ e → t.eps[j]? = s.eps[j]?) ∧ t.eps[e]? = some r := by
  have heps : t.eps = s.eps.set e r := by rw [h]
  refine ⟨by rw [heps]; exact h, by rw [heps, List.length_set], fun j hj => ?_, ?_⟩
  · rw [heps, List.getElem?_set_ne hj.symm]
  · rw [heps]
    exact (State.ep?_eq_some.1 (State.ep?_setEp_same he r)).2.1

/-- EP_WRITE changes its endpoint as `Ep.written` says, and HOST memory not at all. -/
theorem execEpWrite_frame (he : s.ep? e = some (c, p)) (h : exec (.epWrite e) s = .next t) :
    t.hostMem = s.hostMem ∧ ∃ n, TransferEnd e (p.written n
      (hostToQueue s.cfg s.hostMem (min s.argLen p.q.available) s.argA p.q).2) s t := by
  rcases hq : hostToQueue s.cfg s.hostMem (min s.argLen p.q.available) s.argA p.q with ⟨_ | _, q⟩
  · cases h.symm.trans (exec_epWrite_refused he hq)
    exact ⟨rfl, 0, rfl⟩
  · cases h.symm.trans (exec_epWrite he rfl hq)
    exact ⟨rfl, _, rfl⟩

/-- EP_READ changes its queue and HOST memory as `queueToHost` says. -/
theorem execEpRead_frame (he : s.ep? e = some (c, p)) (h : exec (.epRead e) s = .next t) :
    ∃ b q, queueToHost s.cfg (min s.argLen p.q.size) s.argA p.q s.hostMem = some (b, q, t.hostMem) ∧
      TransferEnd e { p with q := q } s t := by
  rcases hq : queueToHost s.cfg (min s.argLen p.q.size) s.argA p.q s.hostMem with _ | ⟨_ | _, q, m⟩
  · cases h.symm.trans (exec_epRead_unwritten he hq)
  · cases h.symm.trans (exec_epRead_refused he hq)
    exact ⟨_, q, rfl, rfl⟩
  · cases h.symm.trans (exec_epRead he rfl hq)
    exact ⟨_, q, rfl, rfl⟩

end

/-- Settles O25: both transfers rewrite one record (`execEpWrite_frame`, `execEpRead_frame`); which storage
slots and host bytes change is `hostToQueue_frame` and `queueToHost_frame`. -/
theorem transferFrame : Obligations.TransferFrame := by
  intro e i s t hi h
  simp only [List.mem_cons, List.not_mem_nil, or_false] at hi
  cases he : s.ep? e with
  | none =>
    have ht : t = s.finish errBadEndpoint 0 := by
      rcases hi with rfl | rfl <;> cases h.symm.trans (exec_of_unconfigured rfl (by simp) he) <;> rfl
    subst ht
    exact ⟨rfl, rfl, fun _ _ => rfl, fun _ => rfl, fun _ => ⟨rfl, rfl⟩, by simp⟩
  | some cp =>
    obtain ⟨c, p⟩ := cp
    rcases hi with rfl | rfl
    · obtain ⟨hhost, n, hend⟩ := execEpWrite_frame he h
      obtain ⟨hrest, hlen, hothers, hrec⟩ := hend.frame he
      refine ⟨hrest, hlen, hothers, fun _ => hhost, by simp, fun c' p' he' hq => ⟨by simp, ?_⟩⟩
      cases he'
      have hroom : p.q.size + min s.argLen p.q.available ≤ p.q.cap := by
        have := hq.size_le
        unfold Queue.available; omega
      obtain ⟨hcap, hrd, hfail, hmem⟩ := hostToQueue_frame s.cfg s.hostMem hroom s.argA
      obtain ⟨hwq, hw, hien⟩ := Ep.written_frame p n
        (hostToQueue s.cfg s.hostMem (min s.argLen p.q.available) s.argA p.q).2
      refine ⟨_, hrec, ?_, by simp, hien, ?_, ?_, fun _ => ?_, ?_⟩ <;> rw [hwq]
      exacts [hw, hcap, hfail, hrd, hmem]
    · obtain ⟨b, q, hrun, hend⟩ := execEpRead_frame he h
      obtain ⟨hrest, hlen, hothers, hrec⟩ := hend.frame he
      obtain ⟨hcap, hmem, hfail, hhost⟩ := queueToHost_frame hrun
      refine ⟨hrest, hlen, hothers, by simp, by simp, fun c' p' he' hq => ⟨fun _ => ?_, ?_⟩⟩ <;> cases he'
      · exact hhost
      · exact ⟨_, hrec, rfl, fun _ => ⟨rfl, rfl, hmem⟩, fun _ _ => rfl, hcap, hfail (Nat.min_le_right _ _),
          by simp, fun k _ => by rw [hmem]⟩

end Sys2Proof.Machine
end

section
/-!
PROOFS. The invariant of the machine (10_state.md): every agent's step from a state that has it ends in a state
that has it, but for the bus moves that do not exist.
-/

namespace Sys2Proof.Machine

/-- The answer is a next state with the invariant. -/
def AnswersGood (o : Result) : Prop := ∃ t, o = .next t ∧ State.Inv t

theorem AnswersGood.next {t : State} (h : State.Inv t) : AnswersGood (.next t) := ⟨t, rfl, h⟩

/-! ### Commands (30_encoding.md R91) -/

theorem State.commandError_le {s : State} {i : Instr} {k : BitVec 4} (h : s.commandError i = some k) :
    k ≤ 4 := by
  unfold State.commandError at h
  split at h
  · cases h; decide
  · split at h
    · cases h; decide
    · obtain ⟨-, hk⟩ := Option.ite_none_right_eq_some.1 h
      cases hk; decide

section
variable {s : State} {e : Nat} {c : EpCfg} {p r : Ep}

/-- A command that changes its endpoint to a good one and completes. -/
theorem State.Inv.endCommand (h : State.Inv s) (he : s.ep? e = some (c, p)) (hr : Ep.Inv c r)
    (hk : Ep.Kept p r) (v : Half) : State.Inv ((s.setEp e r).complete v) :=
  (h.setEp_kept he hr hk).finish (by decide) v

/-- A command that binds a callback, never on endpoint 0 (R38). -/
theorem State.Inv.setCallback (h : State.Inv s) (he : s.ep? e = some (c, p)) (h0 : e ≠ 0) (a b : Word) :
    State.Inv (s.setEp e { p with cb := a, cbctx := b }) :=
  have hp := h.endpoints e c p he
  h.setEp he (hp.of_flags hp.queue rfl rfl rfl rfl (hp.setupHeld.of_same rfl rfl)) (fun _ hj => hj)
    fun hz => absurd hz h0

theorem Ep.Inv.written (h : Ep.Inv c p) {q : Queue} (hq : Queue.Inv c q) (n : Nat) :
    Ep.Inv c (p.written n q) := by
  unfold Ep.written
  split
  · exact h.withQueue hq
  · exact (h.withQueue hq).startIn

theorem State.Inv.execEpWrite (h : State.Inv s) (he : s.ep? e = some (c, p)) :
    AnswersGood (exec (.epWrite e) s) := by
  have hp := h.endpoints e c p he
  have hq := hp.queue.hostToQueue s.cfg s.hostMem (min s.argLen p.q.available) s.argA
  rcases hrun : hostToQueue s.cfg s.hostMem (min s.argLen p.q.available) s.argA p.q with ⟨_ | _, q⟩ <;>
    rw [hrun] at hq <;> obtain ⟨hq, hw⟩ := hq
  · rw [exec_epWrite_refused he hrun]
    exact .next ((h.setEp_kept he (hp.withQueue hq) (.withQueue hw)).recordFault _)
  · rw [exec_epWrite he rfl hrun]
    exact .next (h.endCommand he (hp.written hq _) (.of_written hw _) _)

theorem State.Inv.execEpRead (h : State.Inv s) (he : s.ep? e = some (c, p)) :
    AnswersGood (exec (.epRead e) s) := by
  have hp := h.endpoints e c p he
  obtain ⟨b, q, m, hrun, hq, hmem, hm⟩ :=
    hp.queue.queueToHost s.cfg h.hostMem (min s.argLen p.q.size) s.argA
  have hmoved : State.Inv { s.setEp e { p with q := q } with hostMem := m } :=
    (h.setEp_kept he (hp.withQueue hq) (.of_queue_mem hmem)).congr rfl rfl hm h.status rfl rfl
  cases b
  · rw [exec_epRead_refused he hrun]
    exact .next (hmoved.recordFault _)
  · rw [exec_epRead he rfl hrun]
    exact .next (hmoved.finish (by decide) _)

end

/-- A command that changes the endpoint it names to a good one. -/
theorem AnswersGood.of_complete {s : State} {i : Instr} {c : EpCfg} {p r : Ep} {v : Half}
    (h : State.Inv s) (he : s.ep? i.endpoint = some (c, p))
    (hexec : exec i s = .next ((s.setEp i.endpoint r).complete v)) (hr : Ep.Inv c r) (hk : Ep.Kept p r) :
    AnswersGood (exec i s) :=
  hexec ▸ .next (h.endCommand he hr hk v)

theorem AnswersGood.of_query {s : State} {i : Instr} {v : Half} (h : State.Inv s)
    (hexec : exec i s = .next (s.complete v)) : AnswersGood (exec i s) :=
  hexec ▸ .next (h.finish (by decide) v)

/-- Every command of a good state ends in a good state. -/
theorem State.Inv.exec {s : State} (h : State.Inv s) (i : Instr) : AnswersGood (exec i s) := by
  cases herr : s.commandError i with
  | some k =>
    rw [exec_of_commandError herr]
    exact .next (h.finish (State.commandError_le herr) 0)
  | none =>
    obtain ⟨hres, hep, hcap⟩ := State.commandError_eq_none herr
    by_cases hdev : i = .devSetAddress
    · subst hdev
      rw [exec_devSetAddress, if_pos (bne_eq_false_iff_eq.1 hres)]
      exact .next (h.congr rfl rfl h.hostMem (show (0 : BitVec 4) ≤ 4 by decide) rfl rfl)
    · obtain ⟨c, p, he⟩ := hep hdev
      have hp := h.endpoints _ c p he
      have hflags {r : Ep} (hq : r.q = p.q) (h0 : r.bank0 = p.bank0) (h1 : r.bank1 = p.bank1)
          (hc : r.cur = p.cur) (hb : r.busPtr = p.busPtr) (hi : r.ipend = p.ipend) : Ep.Inv c r :=
        hp.of_flags (hq ▸ hp.queue) h0 h1 hc hb (hp.setupHeld.of_same hi h0)
      cases i with
      | qInit e =>
        have hok := (State.badCapacity_eq he).symm.trans (hcap e rfl)
        rw [decide_eq_false_iff_not, not_or, not_lt] at hok
        refine .of_complete h he ((exec_qInit he).trans (if_neg (by omega)))
          (hp.withQueue (hp.queue.init (by omega) hok.2)) (.of_queue_mem rfl)
      | qReset e => exact .of_complete h he (exec_qReset he) (hp.withQueue hp.queue.reset) (.of_queue_mem rfl)
      | qPush e =>
        exact .of_complete h he (exec_qPush he (bne_eq_false_iff_eq.1 hres))
          (hp.withQueue (hp.queue.push _)) (.withQueue fun j hj => Queue.isSome_push hj _)
      | qPop e =>
        obtain ⟨v, q, hpop⟩ := hp.queue.pop_isSome
        exact .of_complete h he (exec_qPop he hpop) (hp.withQueue (hp.queue.pop hpop))
          (.of_queue_mem (Queue.pop_mem hpop))
      | qPeek e =>
        obtain ⟨v, q, hpeek⟩ := hp.queue.peek_isSome
        exact .of_complete h he (exec_qPeek he hpeek) (hp.withQueue (hp.queue.peek hpeek))
          (.of_queue_mem (Queue.peek_mem hpeek))
      | qAvailable e => exact .of_query h (exec_qAvailable he)
      | qFull e => exact .of_query h (exec_qFull he)
      | qEmpty e => exact .of_query h (exec_qEmpty he)
      | qFailed e => exact .of_query h (exec_qFailed he)
      | qClrfail e =>
        exact .of_complete h he (exec_qClrfail he) (hp.withQueue { hp.queue with }) (.of_queue_mem rfl)
      | epWrite e => exact h.execEpWrite he
      | epRead e => exact h.execEpRead he
      | epFlush e => exact .of_complete h he (exec_epFlush he) hp.doFlush (.doFlush p)
      | epFlushComplete e => exact .of_query h (exec_epFlushComplete he)
      | epDataReady e => exact .of_query h (exec_epDataReady he)
      | epSetCallback e =>
        by_cases h0 : e = 0
        · exact .of_query h ((exec_epSetCallback he).trans (if_pos h0))
        · refine ((exec_epSetCallback he).trans (if_neg h0)) ▸ ?_
          exact .next ((h.setCallback he h0 _ _).finish (by decide) 1)
      | epSetStall e =>
        exact .of_complete h he (exec_epSetStall he hres) (hflags rfl rfl rfl rfl rfl rfl) (.of_eq rfl rfl rfl)
      | epSetInterrupts e =>
        exact .of_complete h he (exec_epSetInterrupts he hres) (hflags rfl rfl rfl rfl rfl rfl)
          (.of_eq rfl rfl rfl)
      | devSetAddress => exact absurd rfl hdev

/-- A write of CMD from a good state, whether or not the word is a command. -/
theorem State.Inv.cmdWrite {s : State} (h : State.Inv s) (w : Word) : AnswersGood (cmdWrite w s) := by
  have hcmd : State.Inv { s with cmd := w } := h.congr rfl rfl h.hostMem h.status rfl rfl
  cases hdec : decode w with
  | error err =>
    cases err with
    | illegalOpcode =>
      rw [cmdWrite_of_illegalOpcode hdec]
      exact .next (hcmd.finish (by decide) 0)
    | reservedBits =>
      rw [cmdWrite_of_reservedBits hdec]
      exact .next (hcmd.finish (by decide) 0)
  | ok i =>
    have hwrite : Machine.cmdWrite w s = Machine.exec i { s with cmd := w } := by rw [Machine.cmdWrite, hdec]
    rw [hwrite]
    exact hcmd.exec i

/-! ### Register accesses (20_memory.md R71, R72) -/

theorem State.Inv.regLoad {s : State} (h : State.Inv s) (addr : Word) (width : Width) :
    AnswersGood (regLoad addr width s) := by
  unfold Machine.regLoad
  split
  · split
    · exact .next (h.congr rfl rfl h.hostMem h.status rfl rfl)
    · exact .next (h.recordFault _)
  · exact .next h

theorem State.Inv.regStore {s : State} (h : State.Inv s) (addr : Word) (width : Width) (v : Word) :
    AnswersGood (regStore addr width v s) := by
  unfold Machine.regStore
  split
  · split
    · unfold regWrite
      split
      · exact h.cmdWrite v
      all_goals exact .next (h.congr rfl rfl h.hostMem h.status rfl rfl)
    · exact .next (h.recordFault _)
  · exact .next h

/-! ### The service agent (42_engine_service.md) -/

theorem tokHas_setup_or : ∀ a b : Token,
    tokHas (a ||| b) tokSetup = (tokHas a tokSetup || tokHas b tokSetup) := by decide

theorem token_or_ne_zero : ∀ a b : Token, ((a != 0) || (b != 0)) = ((a ||| b) != 0) := by decide

/-- Delivery keeps a good state good when a SETUP delivered for endpoint 0 comes with its request written
(R189, R199). -/
theorem State.Inv.deliver {s : State} (h : State.Inv s) {e : Nat} {c : EpCfg} {p : Ep} {tok : Token}
    (he : s.ep? e = some (c, p)) (htok : tokHas tok tokSetup → requestWritten p.q.mem) :
    State.Inv (s.deliver e tok p) := by
  by_cases h0 : e = 0
  · subst h0
    exact
      { h with
        pending := by
          rw [State.deliver_zero]
          simp only [h.pending, token_or_ne_zero]
        request := by
          intro ht d r hr
          obtain ⟨rfl, rfl⟩ : c = d ∧ p = r := by simpa using he.symm.trans hr
          rw [State.deliver_zero, tokHas_setup_or, Bool.or_eq_true] at ht
          exact ht.elim (fun hlatch => h.request hlatch _ _ he) htok }
  · rw [State.deliver_of_ne_zero h0]
    exact h.congr rfl rfl h.hostMem h.status rfl rfl

theorem State.Inv.svcStep {s : State} (h : State.Inv s) (imask : Bool) : AnswersGood (svcStep imask s) := by
  unfold Machine.svcStep
  split
  · exact .next h
  · split
    · exact .next h
    · split
      · exact .next h
      · rename_i e _ _ c p he
        have hp := h.endpoints e c p he
        obtain ⟨r, tok, hrun, hr, hk, hreq⟩ := hp.service (h.slot he)
        rw [hrun]
        exact .next ((h.setEp_kept he hr hk).deliver (State.ep?_setEp_same he r) hreq)

/-! ### The dispatcher (44_control_fsm.md) -/

theorem State.Inv.takeBatch {s : State} (h : State.Inv s) : State.Inv s.takeBatch :=
  { h with
    pending := rfl
    request := fun ht => absurd ht (by decide : ¬ tokHas 0 tokSetup = true) }

theorem State.Inv.dispStep {s : State} (h : State.Inv s) : AnswersGood (dispStep s) := by
  obtain ⟨c, p, he, -⟩ := h.ep0
  cases hpend : s.tokenPending with
  | false =>
    refine ⟨s, ?_, h⟩
    simp only [Machine.dispStep, hpend, Bool.false_eq_true, if_false]
  | true =>
    obtain ⟨t, ht, hgood⟩ := h.takeBatch.transition (t := s.tokenLatch) he fun hs => h.request hs c p he
    rw [dispStep_of_transition he hpend ht]
    exact .next (hgood.emit _)

/-! ### The bus side (43_bus_agent.md) and the resets (70_reset_and_hazards.md) -/

/-- An IN reaches an IN or CONTROL endpoint at the device's address, or is not answered (R211, R212). -/
theorem busStep_inn_reaches (s : State) (a : Bits7) (e : Nat) :
    (∃ c p, a = s.faddr ∧ s.ep? e = some (c, p) ∧ (c.kind = .inn ∨ c.kind = .control)) ∨
      busStep (.inn a e) s = s.busReply (.inn a e) .none := by
  refine or_iff_not_imp_left.2 fun hno => busStep_inn_unanswered fun c p ht => ?_
  obtain ⟨ha, he⟩ := State.busTarget_eq_some.1 ht
  obtain ⟨-, -, hconf⟩ := State.ep?_eq_some.1 he
  cases hk : c.kind with
  | out => rfl
  | unconf => exact absurd hk hconf
  | inn => exact absurd ⟨c, p, ha, he, .inl hk⟩ hno
  | control => exact absurd ⟨c, p, ha, he, .inr hk⟩ hno

theorem busStep_inn_unwritten {s : State} {e : Nat} {c : EpCfg} {p : Ep} (he : s.ep? e = some (c, p))
    (hk : c.kind = .inn ∨ c.kind = .control) (hp : p.inPoll c = none) :
    busStep (.inn s.faddr e) s = unwrittenFault s := by
  rcases hk with hk | hk <;> simp only [busStep, State.busTarget_eq_some.2 ⟨rfl, he⟩, hk, hp]

/-- The moves of the host that do not exist (43_bus_agent.md R212). -/
def NoSuchMove (s : State) (t : BusTxn) : Prop :=
  (∃ a e d, t = .setup a e d ∧ d.length ≠ 8) ∨
  (∃ a e d c p, t = .out a e d ∧ s.ep? e = some (c, p) ∧ c.bsize < d.length)

/-- The answer is a good state, or the move does not exist and is refused. -/
def AnswersMove (s : State) (t : BusTxn) (o : Result) : Prop :=
  AnswersGood o ∨ (o = .refused .noSuchBusMove ∧ NoSuchMove s t)

section
variable {s : State} (h : State.Inv s)
include h

theorem State.Inv.busReply (t : BusTxn) (r : Reply) : AnswersGood (s.busReply t r) := .next (h.emit _)

theorem State.Inv.busReply_setEp {e : Nat} {c : EpCfg} {p r : Ep} (he : s.ep? e = some (c, p))
    (hr : Ep.Inv c r) (hk : Ep.Kept p r) (t : BusTxn) (y : Reply) :
    AnswersGood ((s.setEp e r).busReply t y) :=
  (h.setEp_kept he hr hk).busReply t y

theorem State.Inv.busReset : State.Inv s.busReset where
  config := h.config
  slots := by simp [State.busReset, h.slots]
  endpoints e c r hr := by
    obtain ⟨p, he, rfl⟩ := State.ep?_busReset hr
    exact (h.endpoints e c p he).busReset (h.slot he)
  hostMem := h.hostMem
  status := h.status
  pending := rfl
  request ht := absurd ht (by decide : ¬ tokHas 0 tokSetup = true)
  noCallback0 c r hr := by
    obtain ⟨p, he, rfl⟩ := State.ep?_busReset hr
    have hk := Ep.Kept.busReset c p
    obtain ⟨hcb, hctx⟩ := h.noCallback0 c p he
    exact ⟨hk.cb.trans hcb, hk.cbctx.trans hctx⟩

theorem State.Inv.busSetup (a : Bits7) (e : Nat) (d : List Byte) :
    AnswersMove s (.setup a e d) (busStep (.setup a e d) s) := by
  by_cases hd : d.length = 8
  · left
    simp only [busStep, hd, ne_eq, not_true_eq_false, if_false]
    split
    · exact h.busReply _ _
    · rename_i c p ht
      obtain ⟨-, he⟩ := State.busTarget_eq_some.1 ht
      split
      · rename_i hk
        exact h.busReply_setEp he ((h.endpoints e c p he).receiveSetup (h.slot he) hk hd)
          (.receiveSetup p d) _ _
      all_goals exact h.busReply _ _
  · exact .inr ⟨if_pos hd, .inl ⟨a, e, d, rfl, hd⟩⟩

theorem State.Inv.busOut (a : Bits7) (e : Nat) (d : List Byte) :
    AnswersMove s (.out a e d) (busStep (.out a e d) s) := by
  cases hlong : s.outTooLong e d with
  | false =>
    left
    simp only [busStep, hlong, Bool.false_eq_true, if_false]
    split
    · exact h.busReply _ _
    · rename_i c p ht
      obtain ⟨-, he⟩ := State.busTarget_eq_some.1 ht
      have hp := h.endpoints e c p he
      have hd := State.outTooLong_eq_false.1 hlong c p he
      split
      · rename_i hk
        exact h.busReply_setEp he (hp.outControl (h.slot he) hk hd) (.outControl p d) _ _
      · rename_i hk
        exact h.busReply_setEp he (hp.outData (h.slot he) hk hd) (.outData c p d) _ _
      all_goals exact h.busReply _ _
  | true =>
    refine .inr ⟨if_pos hlong, .inr ?_⟩
    by_contra hno
    rw [State.outTooLong_eq_false.2 fun c p he => not_lt.1 fun hlt =>
      hno ⟨a, e, d, c, p, rfl, he, hlt⟩] at hlong
    cases hlong

theorem State.Inv.busIn (a : Bits7) (e : Nat) : AnswersGood (busStep (.inn a e) s) := by
  rcases busStep_inn_reaches s a e with ⟨c, p, rfl, he, hk⟩ | hnone
  · obtain ⟨r, y, hrun, hr, hkept⟩ := (h.endpoints e c p he).inPoll (h.slot he)
    rw [busStep_inn he hk hrun]
    exact h.busReply_setEp he hr hkept _ _
  · rw [hnone]
    exact h.busReply _ _

theorem State.Inv.busFlowErr (e : Nat) : AnswersGood (busStep (.flowerr e) s) := by
  simp only [busStep]
  split
  · exact h.busReply _ _
  · rename_i c p he
    exact h.busReply_setEp he ((h.endpoints e c p he).raise (by decide) true) (.of_eq rfl rfl rfl) _ _

theorem State.Inv.busStep (t : BusTxn) : AnswersMove s t (busStep t s) := by
  cases t with
  | setup a e d => exact h.busSetup a e d
  | out a e d => exact h.busOut a e d
  | inn a e => exact .inl (h.busIn a e)
  | flowerr e => exact .inl (h.busFlowErr e)
  | reset => exact .inl (h.busReset.busReply _ _)

end

/-! ### Power-on reset -/

/-- The slots of a well-formed configuration are well formed. -/
theorem configOk_slot {c : Config} (h : configOk c) {e : Nat} {d : EpCfg} (hd : c.eps[e]? = some d)
    (hk : d.kind ≠ .unconf) : SlotOk d := by
  simp only [configOk, Bool.and_eq_true, List.all_eq_true] at h
  obtain ⟨⟨⟨⟨⟨⟨⟨⟨-, hall⟩, -⟩, -⟩, -⟩, -⟩, -⟩, -⟩, -⟩ := h
  exact .of_slotOk (hall d (List.mem_of_getElem? hd)) hk

theorem State.ep?_por {c : Config} {e : Nat} {d : EpCfg} {p : Ep}
    (h : (State.por c).ep? e = some (d, p)) : c.eps[e]? = some d ∧ p = Ep.por d ∧ d.kind ≠ .unconf := by
  obtain ⟨hd, hp, hk⟩ := State.ep?_eq_some.1 h
  have hd : c.eps[e]? = some d := hd
  have hp : (c.eps.map Ep.por)[e]? = some p := hp
  rw [List.getElem?_map, hd, Option.map_some, Option.some.injEq] at hp
  exact ⟨hd, hp.symm, hk⟩

/-- The machine of a well-formed configuration is good after power-on reset (R310). -/
theorem State.Inv.por {c : Config} (h : configOk c) : State.Inv (State.por c) where
  config := h
  slots := List.length_map _
  endpoints e d p hp := by
    obtain ⟨hd, rfl, hk⟩ := State.ep?_por hp
    exact .por (configOk_slot h hd hk)
  hostMem := rfl
  status := show (0 : BitVec 4) ≤ 4 by decide
  pending := rfl
  request ht := absurd ht (by decide : ¬ tokHas 0 tokSetup = true)
  noCallback0 d p hp := by
    obtain ⟨-, rfl, -⟩ := State.ep?_por hp
    exact ⟨rfl, rfl⟩

theorem State.Inv.powerOn {s : State} (h : State.Inv s) : State.Inv s.powerOn :=
  (State.Inv.por h.config).congr rfl rfl h.hostMem (State.Inv.por h.config).status rfl rfl

/-- Settles O58: the reference configuration is well formed. -/
theorem resetHasInvariant : Obligations.ResetHasInvariant :=
  State.Inv.por (by decide)

/-! ### The step -/

theorem State.Inv.advance {s : State} (h : State.Inv s) : State.Inv s.advance := by
  rw [State.advance_eq]
  exact h.congr rfl rfl h.hostMem h.status rfl rfl

theorem State.Inv.shapeOk {s : State} (h : State.Inv s) : s.shapeOk = true := by
  simp [State.shapeOk, h.config, h.slots]

/-- One input from a good state ends in a good state, but for the bus moves that do not exist. -/
theorem State.Inv.runInput {s : State} (h : State.Inv s) (i : Input) :
    AnswersGood (runInput i s) ∨
      ∃ t, i.action = .bus t ∧ runInput i s = .refused .noSuchBusMove ∧ NoSuchMove s t := by
  obtain ⟨imask, action⟩ := i
  cases action with
  | load addr width => exact .inl (h.regLoad addr width)
  | store addr width v => exact .inl (h.regStore addr width v)
  | svc => exact .inl (h.svcStep imask)
  | disp => exact .inl h.dispStep
  | bus t => exact (h.busStep t).imp_right fun ⟨href, hmove⟩ => ⟨t, rfl, href, hmove⟩
  | powerOn => exact .inl (.next h.powerOn)
  | hostStore a v =>
    exact .inl (.next (h.congr rfl rfl (Mem.wf_hostWrite h.hostMem a v) h.status rfl rfl))

/-- Settles O57: the next input acts from a good state, and each agent's step keeps it good. -/
theorem stepKeepsInvariant : Obligations.StepKeepsInvariant := by
  intro s t h hstep
  obtain ⟨-, hrun⟩ := step_next hstep
  rcases h.advance.runInput s.nextInput with ⟨t', ht', hgood⟩ | ⟨_, -, href, -⟩
  · cases hrun.symm.trans ht'
    exact hgood
  · cases hrun.symm.trans href

/-- Settles O59: `State.Inv.runInput` for the next input. -/
theorem invariantStepsComplete : Obligations.InvariantStepsComplete := by
  intro s h
  rw [step_eq h.shapeOk]
  rcases h.advance.runInput s.nextInput with ⟨t, ht, -⟩ | ⟨b, hb, href, hmove⟩
  · exact .inl ⟨t, ht⟩
  · refine .inr ⟨href, hmove.imp ?_ ?_⟩
    · rintro ⟨a, e, d, rfl, hd⟩
      exact ⟨a, e, d, hb, hd⟩
    · rintro ⟨a, e, d, c, p, rfl, he, hd⟩
      exact ⟨a, e, d, c, p, hb, by simpa using he, hd⟩

/-! ### The bank states and the ping-pong order (R46, R47) -/

section
variable {c : EpCfg} {p : Ep}

theorem Bank.Inv.states {b : Bank} (h : Bank.Inv c b) :
    (c.kind = .out → b.st = .freeRx ∨ b.st = .held) ∧ (c.kind = .inn → b.st = .fill ∨ b.st = .committed) ∧
    (c.kind = .control → b.st ≠ .freeRx) := by
  have hallowed := h.allowed
  refine ⟨fun hk => ?_, fun hk => ?_, fun hk => ?_⟩ <;> rw [hk] at hallowed <;>
    cases hst : b.st <;> simp_all [stateAllowed]

/-- With equal pointers both banks of a two-bank endpoint are in one state; so they are in the current bank's
state when different pointers exclude it. -/
theorem Ep.PingPong.state_eq (h : Ep.PingPong c p) (hn : c.nbanks = 2) {st : BankState}
    (hcur : (p.bank p.cur).st = st) (hne : p.busPtr ≠ p.cur → (p.bank p.cur).st ≠ st) (b : Bool) :
    (p.bank b).st = st := by
  have hsame := h.same hn (by_contra fun hd => hne hd hcur)
  rw [← hcur]
  cases b <;> cases p.cur <;> simp [Ep.bank, hsame]

end

/-- Settles O60: a step keeps the invariant (O57), which has the bank states and the order of the pointers. -/
theorem pingPongOrder : Obligations.PingPongOrder := by
  intro s t h hst e c p he
  have ht : State.Inv t := hst.elim (fun heq => heq ▸ h) (stepKeepsInvariant s t h)
  have hp := ht.endpoints e c p he
  refine ⟨fun b => (hp.bank b).states, hp.pingPong.single, fun hn => ⟨fun hk hcur b => ?_, fun hk hcur b => ?_⟩⟩
  · rw [hp.pingPong.state_eq hn hcur (fun hne => by rw [(hp.pingPong.outOrder hn hk hne).1]; decide) b]
    decide
  · exact hp.pingPong.state_eq hn hcur (fun hne => by rw [(hp.pingPong.inOrder hn hk hne).2]; decide) b

end Sys2Proof.Machine
end

section
/-!
PROOFS. What one step can do, in every state, said once (`StepEnd`); and the rules over every step that follow: who
writes FADDR, the callback and the control state, that storage and history are kept, and when a fault bit is set.
-/

namespace Sys2Proof.Machine

/-! ### What a step can do -/

/-- Every next state of the action `act`, taken while IMASK is `imask`, from `s`. -/
inductive StepEnd (s : State) (imask : Bool) : Action → State → Prop
  /-- Nothing but operands, the value read and HOST memory: an access without a command, or no step at all. -/
  | quiet {act : Action} {a : Word} {b : Half} {c r : Word} {m : Mem} :
      StepEnd s imask act { s with argA := a, argB := b, argC := c, rdata := r, hostMem := m }
  | mmioFault {act : Action} : StepEnd s imask act (s.recordFault .mmioAccess)
  /-- A word that is no command. -/
  | noCommand {act : Action} {w : Word} {k : BitVec 4} :
      StepEnd s imask act ({ s with cmd := w }.finish k 0)
  | command {w : Word} {i : Instr} {t : State} (hdec : decode w = .ok i)
      (hend : CommandEnd { s with cmd := w } i t) : StepEnd s imask (.store s.cfg.regBase .word w) t
  /-- A service: `tok` is the part of the token that is captured, none of it for another endpoint than 0. -/
  | service {e : Nat} {c : EpCfg} {p r : Ep} {tok : Token} {evs : List Event} (hmask : imask = false)
      (he : s.ep? e = some (c, p)) (hk : Ep.Kept p r) (hevs : ∀ k, .fault k ∉ evs) :
      StepEnd s imask .svc { s.setEp e r with
        tokenLatch := s.tokenLatch ||| tok, tokenPending := s.tokenPending || tok != 0
        history := s.history ++ evs }
  /-- A batch taken: endpoint 0, the control state and its address change, and FADDR when it is applied. -/
  | dispatch {c : EpCfg} {p r : Ep} {n : CtlState} {a f : Bits7} (hpend : s.tokenPending = true)
      (he : s.ep? 0 = some (c, p)) (hk : Ep.Kept p r)
      (hf : f = s.faddr ∨
        (s.ctlState = .awaitInForAddress ∧ s.tokenLatch.getLsbD 1 = true ∧ f = s.ctlAddr)) :
      StepEnd s imask .disp ({ s.takeBatch.setEp 0 r with ctlState := n, ctlAddr := a, faddr := f }.emit
        (.disp s.tokenLatch s.ctlState n))
  | answer {t : BusTxn} {e : Nat} {c : EpCfg} {p r : Ep} {y : Reply} (hne : t ≠ .reset)
      (he : s.ep? e = some (c, p)) (hk : Ep.Kept p r) :
      StepEnd s imask (.bus t) ((s.setEp e r).emit (.bus t y))
  | noAnswer {t : BusTxn} (hne : t ≠ .reset) : StepEnd s imask (.bus t) (s.emit (.bus t .none))
  | busReset : StepEnd s imask (.bus .reset) (s.busReset.emit (.bus .reset .none))
  | powerOn : StepEnd s imask .powerOn s.powerOn

section
variable {s t : State} {m : Bool}

theorem StepEnd.refl {act : Action} : StepEnd s m act s := .quiet

theorem cmdWrite_cases {w : Word} (h : cmdWrite w s = .next t) :
    StepEnd s m (.store s.cfg.regBase .word w) t := by
  cases hdec : decode w with
  | error err =>
    cases err with
    | illegalOpcode => cases h.symm.trans (cmdWrite_of_illegalOpcode hdec s); exact .noCommand
    | reservedBits => cases h.symm.trans (cmdWrite_of_reservedBits hdec s); exact .noCommand
  | ok i =>
    have hwrite : cmdWrite w s = exec i { s with cmd := w } := by rw [cmdWrite, hdec]
    exact .command hdec (exec_cases (hwrite.symm.trans h))

theorem regLoad_cases {addr : Word} {width : Width} {act : Action} (h : regLoad addr width s = .next t) :
    StepEnd s m act t := by
  unfold regLoad at h
  split at h
  · split at h
    · cases h; exact .quiet
    · cases h; exact .mmioFault
  · cases h; exact .refl

/-- A store that is a write of CMD is a 32-bit store at REG_BASE (R72). -/
theorem regStore_cases {addr v : Word} {width : Width} (h : regStore addr width v s = .next t) :
    StepEnd s m (.store addr width v) t := by
  unfold regStore at h
  split at h
  · split at h
    · rename_i hok
      obtain ⟨rfl, -⟩ : width = .word ∧ s.regOffset addr % 4 = 0 := by simpa [accessOk] using hok
      unfold regWrite at h
      split at h
      · rename_i hoff
        obtain rfl : addr = s.cfg.regBase := by
          have hzero : addr - s.cfg.regBase = 0 := BitVec.eq_of_toNat_eq hoff
          exact (BitVec.sub_eq_iff_eq_add.1 hzero).trans (BitVec.zero_add _)
        exact cmdWrite_cases h
      all_goals cases h; exact .quiet
    · cases h; exact .mmioFault
  · cases h; exact .refl

/-- Delivery captures the token of endpoint 0 and records events that are no faults (R199, R200). -/
theorem State.deliver_eq (s : State) (e : Nat) (tok : Token) (p : Ep) :
    ∃ evs, s.deliver e tok p = { s with
        tokenLatch := s.tokenLatch ||| (if e = 0 then tok else 0)
        tokenPending := s.tokenPending || (if e = 0 then tok else 0) != 0
        history := s.history ++ evs } ∧ ∀ k, .fault k ∉ evs := by
  by_cases h0 : e = 0
  · subst h0
    exact ⟨[.svc 0 tok], rfl, by simp⟩
  · refine ⟨.svc e tok :: if p.cb ≠ 0 ∧ tok ≠ 0 then [.callback e tok p.cb p.cbctx] else [], ?_, ?_⟩
    · rw [State.deliver_of_ne_zero h0]
      simp [h0]
    · intro k
      split <;> simp

theorem svcStep_cases (h : svcStep m s = .next t) : StepEnd s m .svc t := by
  unfold svcStep at h
  split at h
  · cases h; exact .refl
  · rename_i hmask
    split at h
    · cases h; exact .refl
    · split at h
      · cases h; exact .refl
      · rename_i he
        split at h
        · cases h
        · rename_i hrun
          obtain ⟨evs, hdel, hevs⟩ := State.deliver_eq (s.setEp _ _) _ _ _
          cases h.symm.trans (congrArg Host.Outcome.next hdel)
          exact .service (by simpa using hmask) he (.of_service hrun) hevs

/-- Each request rule writes endpoint 0, the control state and, for SET_ADDRESS, its address (R252 to R260). -/
theorem State.handleRequest_cases (s : State) (p : Ep) (r : Request) :
    ∃ p' n a, s.handleRequest p r = { s.setEp 0 p' with ctlState := n, ctlAddr := a } ∧ Ep.Kept p p' := by
  have hrespond (src : List Byte) : ∃ p' n a,
      s.respond p src = { s.setEp 0 p' with ctlState := n, ctlAddr := a } ∧ Ep.Kept p p' :=
    ⟨_, _, s.ctlAddr, rfl, (Ep.Kept.enqueueTx p src).trans (.doFlush _)⟩
  have hstall : ∃ p' n a,
      s.control p.doStall .setup = { s.setEp 0 p' with ctlState := n, ctlAddr := a } ∧ Ep.Kept p p' :=
    ⟨_, _, s.ctlAddr, rfl, .doStall p⟩
  unfold State.handleRequest
  split
  · unfold State.getDescriptor
    split
    · exact hrespond _
    · split <;> exact hrespond _
    · exact ⟨p, _, s.ctlAddr, rfl, .refl p⟩
    · exact hstall
  · exact ⟨_, _, _, rfl, .of_eq rfl rfl rfl⟩
  · exact ⟨_, _, s.ctlAddr, rfl, .doFlush p⟩
  · exact hrespond _
  · exact hstall

/-- What a transition can write: endpoint 0, the control state and its address, and FADDR when the latched
address is applied (R242 to R248). -/
theorem State.transition_cases {tok : Token} {c : EpCfg} {p : Ep} (he : s.ep? 0 = some (c, p))
    (h : s.transition tok c p = some t) :
    ∃ r n a f, t = { s.setEp 0 r with ctlState := n, ctlAddr := a, faddr := f } ∧ Ep.Kept p r ∧
      (f = s.faddr ∨ (s.ctlState = .awaitInForAddress ∧ tok.getLsbD 1 = true ∧ f = s.ctlAddr)) := by
  have hstay (n : CtlState) : ∃ r n' a f,
      { s with ctlState := n } = { s.setEp 0 r with ctlState := n', ctlAddr := a, faddr := f } ∧
        Ep.Kept p r ∧
        (f = s.faddr ∨ (s.ctlState = .awaitInForAddress ∧ tok.getLsbD 1 = true ∧ f = s.ctlAddr)) :=
    ⟨p, n, s.ctlAddr, s.faddr, by rw [State.setEp_self he], .refl p, .inl rfl⟩
  unfold State.transition at h
  split at h
  · split at h
    · split at h
      · cases h
      · rename_i r _
        obtain ⟨p', n, a, hrule, hk⟩ := s.handleRequest_cases { p with q := p.q.reset } r
        cases h
        have hreset : Ep.Kept p { p with q := p.q.reset } := .of_queue_mem rfl
        exact ⟨p', n, a, s.faddr, hrule, hreset.trans hk, .inl rfl⟩
    · cases h; exact hstay _
  · cases h
    split
    · exact hstay s.ctlState
    · exact hstay .setup
  · rename_i hst
    split at h
    · rename_i hin
      cases h
      exact ⟨_, _, s.ctlAddr, s.ctlAddr, rfl, (Ep.Kept.clearTxAck c p).trans (.of_queue_mem rfl),
        .inr ⟨hst, by rwa [tokHas_in] at hin, rfl⟩⟩
    · split at h
      · cases h; exact hstay .setup
      · cases h; exact hstay _

theorem dispStep_cases (h : dispStep s = .next t) : StepEnd s m .disp t := by
  unfold dispStep at h
  split at h
  · rename_i hpend
    split at h
    · cases h; exact .refl
    · rename_i c p he
      cases htrans : s.takeBatch.transition s.tokenLatch c p with
      | none => rw [State.takeBatch] at htrans; rw [htrans] at h; cases h
      | some u =>
        obtain ⟨r, n, a, f, rfl, hk, hf⟩ := State.transition_cases (s := s.takeBatch) he htrans
        rw [State.takeBatch] at htrans
        rw [htrans] at h
        cases h
        exact .dispatch hpend he hk hf
  · cases h; exact .refl

/-- A bus transaction that reaches an endpoint, and keeps its callback and storage. -/
theorem StepEnd.of_busReply {b : BusTxn} {e : Nat} {c : EpCfg} {p r : Ep} {y : Reply}
    (h : (s.setEp e r).busReply b y = .next t) (hne : b ≠ .reset) (he : s.ep? e = some (c, p))
    (hk : Ep.Kept p r) : StepEnd s m (.bus b) t := by
  cases h
  exact .answer hne he hk

theorem StepEnd.of_noReply {b : BusTxn} (hne : b ≠ .reset) (h : s.busReply b .none = .next t) :
    StepEnd s m (.bus b) t := by
  cases h
  exact .noAnswer hne

theorem busStep_cases {b : BusTxn} (h : busStep b s = .next t) : StepEnd s m (.bus b) t := by
  cases b with
  | setup a e d =>
    simp only [busStep] at h
    split at h
    · cases h
    · split at h
      · exact .of_noReply (by simp) h
      · rename_i ht
        obtain ⟨-, he⟩ := State.busTarget_eq_some.1 ht
        split at h
        · exact .of_busReply h (by simp) he (.receiveSetup _ d)
        all_goals exact .of_noReply (by simp) h
  | out a e d =>
    simp only [busStep] at h
    split at h
    · cases h
    · split at h
      · exact .of_noReply (by simp) h
      · rename_i ht
        obtain ⟨-, he⟩ := State.busTarget_eq_some.1 ht
        split at h
        · exact .of_busReply h (by simp) he (.outControl _ d)
        · exact .of_busReply h (by simp) he (.outData _ _ d)
        all_goals exact .of_noReply (by simp) h
  | inn a e =>
    rcases busStep_inn_reaches s a e with ⟨c, p, rfl, he, hk⟩ | hnone
    · cases hrun : p.inPoll c with
      | none => cases h.symm.trans (busStep_inn_unwritten he hk hrun)
      | some ry =>
        rw [busStep_inn he hk hrun] at h
        exact .of_busReply h (by simp) he (.of_inPoll hrun)
    · exact .of_noReply (by simp) (hnone.symm.trans h)
  | flowerr e =>
    simp only [busStep] at h
    split at h
    · exact .of_noReply (by simp) h
    · rename_i he
      exact .of_busReply h (by simp) he (.of_eq rfl rfl rfl)
  | reset => cases h; exact .busReset

/-- Every next state of an input is one of `StepEnd`. -/
theorem runInput_cases {i : Input} (h : runInput i s = .next t) : StepEnd s i.imask i.action t := by
  obtain ⟨imask, action⟩ := i
  cases action with
  | load addr width => exact regLoad_cases h
  | store addr width v => exact regStore_cases h
  | svc => exact svcStep_cases h
  | disp => exact dispStep_cases h
  | bus b => exact busStep_cases h
  | powerOn => cases h; exact .powerOn
  | hostStore a v => cases h; exact .quiet

theorem step_cases (h : step s = .next t) : StepEnd s.advance s.nextInput.imask s.nextInput.action t :=
  runInput_cases (step_next h).2

/-- A step that is a power-on reset. -/
theorem step_powerOn (h : step s = .next t) (hact : s.nextInput.action = .powerOn) : t = s.advance.powerOn := by
  have hrun := (step_next h).2
  rw [runInput, hact] at hrun
  cases hrun
  rfl

/-- A step that is a bus reset. -/
theorem step_busReset (h : step s = .next t) (hact : s.nextInput.action = .bus .reset) :
    t = s.advance.busReset.emit (.bus .reset .none) := by
  have hrun := (step_next h).2
  rw [runInput, hact] at hrun
  cases hrun
  rfl

end

/-! ### Who writes FADDR (R28) -/

section
variable {s t : State} {m : Bool} {act : Action} {i : Instr}

theorem CommandEnd.faddr (h : CommandEnd s i t) :
    t.faddr = s.faddr ∨ (i = .devSetAddress ∧ t.faddr = s.argB.extractLsb' 0 7) := by
  cases h with
  | address => exact .inr ⟨rfl, rfl⟩
  | error | query | endpoint | callback | refused => exact .inl rfl

theorem StepEnd.faddr (h : StepEnd s m act t) (hbus : act ≠ .bus .reset) (hpower : act ≠ .powerOn) :
    t.faddr = s.faddr ∨
      (∃ v, act = .store s.cfg.regBase .word v ∧ decode v = .ok .devSetAddress ∧
        t.faddr = s.argB.extractLsb' 0 7) ∨
      (act = .disp ∧ s.ctlState = .awaitInForAddress ∧ s.tokenLatch.getLsbD 1 = true ∧
        t.faddr = s.ctlAddr) := by
  cases h with
  | command hdec hend =>
    rcases hend.faddr with hsame | ⟨rfl, hnew⟩
    · exact .inl hsame
    · exact .inr (.inl ⟨_, rfl, hdec, hnew⟩)
  | dispatch _ _ _ hf => exact hf.imp id fun ⟨hst, hin, hnew⟩ => .inr ⟨rfl, hst, hin, hnew⟩
  | busReset => exact absurd rfl hbus
  | powerOn => exact absurd rfl hpower
  | quiet | mmioFault | noCommand | service | answer | noAnswer => exact .inl rfl

/-! ### Callback and storage (R38, R74) -/

/-- Every configured endpoint keeps its callback and the written bytes of its storage. -/
def State.Keeps (s t : State) : Prop :=
  ∀ e c p r, s.ep? e = some (c, p) → t.ep? e = some (c, r) → Ep.Kept p r

theorem State.Keeps.of_eps (hc : t.cfg = s.cfg) (heps : t.eps = s.eps) : s.Keeps t := by
  intro e c p r hp hr
  rw [State.ep?_congr hc heps] at hr
  cases hp.symm.trans hr
  exact .refl p

theorem State.Keeps.of_setEp {e : Nat} {c : EpCfg} {p r : Ep} (he : s.ep? e = some (c, p))
    (hk : Ep.Kept p r) (hc : t.cfg = s.cfg) (heps : t.eps = s.eps.set e r) : s.Keeps t := by
  intro j d p' r' hp hr
  have hr : (s.setEp e r).ep? j = some (d, r') := (State.ep?_congr (s := s.setEp e r) hc heps j).symm.trans hr
  rcases State.ep?_setEp_cases he hr with ⟨rfl, rfl, rfl⟩ | ⟨-, hsame⟩
  · cases he.symm.trans hp
    exact hk
  · cases hp.symm.trans hsame
    exact .refl p'

theorem State.Keeps.busReset (s : State) : s.Keeps s.busReset := by
  intro e c p r hp hr
  obtain ⟨p', hp', rfl⟩ := State.ep?_busReset hr
  cases hp.symm.trans hp'
  exact .busReset c p

/-- EP_SET_CALLBACK bound ARG_A and ARG_C on endpoint `e`, which is not 0, and changed no other endpoint. -/
def CallbackBound (s t : State) (e : Nat) : Prop :=
  e ≠ 0 ∧ t.cfg = s.cfg ∧ ∃ c p, s.ep? e = some (c, p) ∧
    t.eps = s.eps.set e { p with cb := s.argA, cbctx := s.argC }

theorem CommandEnd.keeps (h : CommandEnd s i t) :
    s.Keeps t ∨ ∃ e, i = .epSetCallback e ∧ CallbackBound s t e := by
  cases h with
  | callback he h0 => exact .inr ⟨_, rfl, h0, rfl, _, _, he, rfl⟩
  | endpoint he hk | refused he hk => exact .inl (.of_setEp he hk rfl rfl)
  | error | query | address => exact .inl (.of_eps rfl rfl)

theorem StepEnd.keeps (h : StepEnd s m act t) (hpower : act ≠ .powerOn) :
    s.Keeps t ∨ ∃ v e, act = .store s.cfg.regBase .word v ∧ decode v = .ok (.epSetCallback e) ∧
      CallbackBound s t e := by
  cases h with
  | command hdec hend =>
    rcases hend.keeps with hkeeps | ⟨e, rfl, hbound⟩
    · exact .inl hkeeps
    · exact .inr ⟨_, e, rfl, hdec, hbound⟩
  | service _ he hk | dispatch _ he hk | answer _ he hk => exact .inl (.of_setEp he hk rfl rfl)
  | busReset => exact .inl (State.Keeps.busReset s)
  | powerOn => exact absurd rfl hpower
  | quiet | mmioFault | noCommand | noAnswer => exact .inl (.of_eps rfl rfl)

/-- The endpoint named changes its callback alone; the others are as before. -/
theorem CallbackBound.endpoint {e j : Nat} {c : EpCfg} {p r : Ep} (h : CallbackBound s t e)
    (hp : s.ep? j = some (c, p)) (hr : t.ep? j = some (c, r)) :
    (j = e ∧ r = { p with cb := s.argA, cbctx := s.argC }) ∨ r = p := by
  obtain ⟨-, hc, d, q, he, heps⟩ := h
  have hr : (s.setEp e { q with cb := s.argA, cbctx := s.argC }).ep? j = some (c, r) :=
    (State.ep?_congr (s := s.setEp e _) hc heps j).symm.trans hr
  rcases State.ep?_setEp_cases he hr with ⟨rfl, rfl, rfl⟩ | ⟨-, hsame⟩
  · cases he.symm.trans hp
    exact .inl ⟨rfl, rfl⟩
  · cases hp.symm.trans hsame
    exact .inr rfl

/-! ### The control state and the token latch (R29 to R32) -/

/-- The control state machine and the token latch are as before. -/
structure SameControl (s t : State) : Prop where
  ctlState : t.ctlState = s.ctlState
  ctlAddr : t.ctlAddr = s.ctlAddr
  tokenLatch : t.tokenLatch = s.tokenLatch
  tokenPending : t.tokenPending = s.tokenPending

theorem CommandEnd.sameControl (h : CommandEnd s i t) : SameControl s t := by
  cases h <;> exact ⟨rfl, rfl, rfl, rfl⟩

theorem token_and_or_self : ∀ a b : Token, a &&& (a ||| b) = a := by decide

/-- Capturing a token keeps every latched bit; unless the token is 0 it sets TOKEN_PENDING. -/
theorem StepEnd.control (h : StepEnd s m act t) (hbus : act ≠ .bus .reset) (hpower : act ≠ .powerOn) :
    SameControl s t ∨
      (act = .disp ∧ s.tokenPending = true ∧ t.tokenLatch = 0 ∧ t.tokenPending = false) ∨
      (act = .svc ∧ m = false ∧ t.ctlState = s.ctlState ∧ t.ctlAddr = s.ctlAddr ∧
        s.tokenLatch &&& t.tokenLatch = s.tokenLatch ∧ t.tokenPending = true) := by
  cases h with
  | command _ hend =>
    obtain ⟨h1, h2, h3, h4⟩ := hend.sameControl
    exact .inl ⟨h1, h2, h3, h4⟩
  | @service e c p r tok evs hmask _ _ _ =>
    by_cases htok : tok = 0
    · subst htok
      exact .inl ⟨rfl, rfl, BitVec.or_zero, Bool.or_false _⟩
    · exact .inr (.inr ⟨rfl, hmask, rfl, rfl, token_and_or_self _ _,
        (congrArg _ (bne_iff_ne.2 htok)).trans (Bool.or_true _)⟩)
  | dispatch hpend => exact .inr (.inl ⟨rfl, hpend, rfl, rfl⟩)
  | busReset => exact absurd rfl hbus
  | powerOn => exact absurd rfl hpower
  | quiet | mmioFault | noCommand | answer | noAnswer => exact .inl ⟨rfl, rfl, rfl, rfl⟩

/-! ### History and fault bits (R81, R283) -/

/-- From `s` to `t` the events `evs` were recorded, and each fault bit was set exactly with its event. -/
structure Logs (s t : State) (evs : List Event) : Prop where
  history : t.history = s.history ++ evs
  mmio : t.faultMmio = true ↔ s.faultMmio = true ∨ .fault .mmioAccess ∈ evs
  host : t.faultHost = true ↔ s.faultHost = true ∨ .fault .hostAccess ∈ evs
  unwritten : t.faultUnwritten = true ↔ s.faultUnwritten = true ∨ .fault .unwrittenRead ∈ evs

theorem Logs.of_no_fault {evs : List Event} (h : t.history = s.history ++ evs) (hevs : ∀ k, .fault k ∉ evs)
    (h1 : t.faultMmio = s.faultMmio) (h2 : t.faultHost = s.faultHost)
    (h3 : t.faultUnwritten = s.faultUnwritten) : Logs s t evs :=
  ⟨h, by simp [h1, hevs], by simp [h2, hevs], by simp [h3, hevs]⟩

theorem Logs.recordFault (s : State) (k : FaultKind) : Logs s (s.recordFault k) [.fault k] := by
  cases k <;> constructor <;> simp

theorem CommandEnd.logs (h : CommandEnd s i t) : ∃ evs, Logs s t evs := by
  cases h with
  | @refused _ _ _ p' _ _ m =>
    obtain ⟨h1, h2, h3, h4⟩ := Logs.recordFault { s.setEp i.endpoint p' with hostMem := m } .hostAccess
    exact ⟨_, h1, h2, h3, h4⟩
  | error | query | endpoint | callback | address => exact ⟨_, .of_no_fault rfl (by simp) rfl rfl rfl⟩

theorem StepEnd.logs (h : StepEnd s m act t) (hpower : act ≠ .powerOn) : ∃ evs, Logs s t evs := by
  cases h with
  | quiet => exact ⟨[], .of_no_fault (List.append_nil _).symm (by simp) rfl rfl rfl⟩
  | mmioFault => exact ⟨_, .recordFault s .mmioAccess⟩
  | command _ hend =>
    obtain ⟨evs, h1, h2, h3, h4⟩ := hend.logs
    exact ⟨evs, h1, h2, h3, h4⟩
  | service _ _ _ hevs => exact ⟨_, .of_no_fault rfl hevs rfl rfl rfl⟩
  | powerOn => exact absurd rfl hpower
  | noCommand | dispatch | answer | noAnswer | busReset =>
    exact ⟨_, .of_no_fault rfl (by simp) rfl rfl rfl⟩

end

/-! ### The rules over every step -/

/-- Settles O26: of the ends of a step only DEV_SET_ADDRESS, the address application and the resets write
FADDR. -/
theorem addressWrittenOnlyBy : Obligations.AddressWrittenOnlyBy := by
  intro s t h
  refine ⟨?_, fun hbus hpower hne => ?_⟩
  · rintro (hact | hact)
    · rw [step_busReset h hact]; rfl
    · rw [step_powerOn h hact]; rfl
  · simpa [hne] using (step_cases h).faddr hbus hpower

/-- Settles O27: every other step keeps the callback (`StepEnd.keeps`), and power-on reset writes 0. -/
theorem callbackWrittenOnlyBy : Obligations.CallbackWrittenOnlyBy := by
  intro s t h e c p r hp hr
  refine ⟨fun hact => ?_, fun hpower hne => ?_⟩
  · rw [step_powerOn h hact] at hr
    obtain ⟨-, rfl, -⟩ := State.ep?_por (c := s.advance.cfg) hr
    exact ⟨rfl, rfl⟩
  · rcases (step_cases h).keeps hpower with hkeeps | ⟨v, j, hact, hdec, hbound⟩
    · have hk := hkeeps e c p r (by simpa using hp) hr
      exact absurd hk.cbctx (hne.resolve_left (absurd hk.cb))
    · rcases hbound.endpoint (by simpa using hp) hr with ⟨rfl, rfl⟩ | rfl
      · exact ⟨v, by simpa using hact, hdec, hbound.1, by simp, by simp⟩
      · simp at hne

/-- Settles O28: a step that changes them is a batch taken or a token captured (`StepEnd.control`). -/
theorem controlStateWrittenOnlyBy : Obligations.ControlStateWrittenOnlyBy := by
  intro s t h hbus hpower
  rcases (step_cases h).control hbus hpower with
    hsame | ⟨hact, hpend, hlatch, hclear⟩ | ⟨hact, hmask, hst, haddr, hkeep, hset⟩
  · obtain ⟨h1, h2, h3, h4⟩ := hsame
    simp [h1, h2, h3, h4]
  · have hpend : s.tokenPending = true := by simpa using hpend
    exact ⟨fun _ => ⟨hact, hpend⟩, fun _ => .inl ⟨hact, hpend, hlatch, hclear⟩⟩
  · exact ⟨by simp [hst, haddr], fun _ => .inr ⟨hact, hmask, by simpa using hkeep, hset⟩⟩

/-- Settles O29: a step keeps the written bytes of storage, and a callback bound does not touch them. -/
theorem storageNeverCleared : Obligations.StorageNeverCleared := by
  intro s t h hpower e c p r j hp hr hj
  rcases (step_cases h).keeps hpower with hkeeps | ⟨_, _, _, _, hbound⟩
  · exact (hkeeps e c p r (by simpa using hp) hr).written j hj
  · rcases hbound.endpoint (by simpa using hp) hr with ⟨_, rfl⟩ | rfl <;> exact hj

/-- Settles O30: the events of each end of a step (`StepEnd.logs`). -/
theorem historyAndFaultBitsKept : Obligations.HistoryAndFaultBitsKept := by
  intro s t h hpower
  obtain ⟨evs, h1, h2, h3, h4⟩ := (step_cases h).logs hpower
  simp only [State.advance_history, State.advance_faultMmio, State.advance_faultHost,
    State.advance_faultUnwritten] at h1 h2 h3 h4
  exact ⟨evs, h1, h2, h3, h4⟩

end Sys2Proof.Machine
end

section
/-!
PROOFS. Which endpoint a service step is taken for (10_state.md R41, 42_engine_service.md R170), and where the model
stops (10_state.md R51, 43_bus_agent.md R212).
-/

namespace Sys2Proof.Machine

/-! ### The endpoint served (R41, R170) -/

section
variable {s : State} {e : Nat} {c : EpCfg} {p : Ep}

/-- The endpoint served is the lowest-numbered one with a pending flag enabled. -/
theorem State.lowestIrq_eq (he : s.ep? e = some (c, p)) (hp : p.ipend &&& p.ien ≠ 0)
    (hlow : ∀ j d r, j < e → s.ep? j = some (d, r) → r.ipend &&& r.ien = 0) : s.lowestIrq = some e := by
  have hlt : e < s.cfg.eps.length := (List.getElem?_eq_some_iff.1 (State.ep?_eq_some.1 he).1).1
  refine List.find?_range_eq_some.2 ⟨State.irq_eq_true.2 ⟨c, p, he, hp⟩, List.mem_range.2 hlt, fun j hj => ?_⟩
  rw [Bool.not_eq_true', Bool.eq_false_iff]
  intro hirq
  obtain ⟨d, r, hr, hne⟩ := State.irq_eq_true.1 hirq
  exact hne (hlow j d r hj hr)

theorem State.lowestIrq_eq_none (h : ∀ e c p, s.ep? e = some (c, p) → p.ipend &&& p.ien = 0) :
    s.lowestIrq = none := by
  refine List.find?_eq_none.2 fun e _ hirq => ?_
  obtain ⟨c, p, he, hne⟩ := State.irq_eq_true.1 hirq
  exact hne (h e c p he)

theorem svcStep_masked (s : State) : svcStep true s = .next s := rfl

theorem svcStep_idle (h : s.lowestIrq = none) : svcStep false s = .next s := by
  simp only [svcStep, h, Bool.false_eq_true, if_false]

theorem svcStep_served (he : s.ep? e = some (c, p)) (hirq : s.lowestIrq = some e) {r : Ep} {tok : Token}
    (h : p.service c = some (r, tok)) : svcStep false s = .next ((s.setEp e r).deliver e tok r) := by
  simp only [svcStep, hirq, he, h, Bool.false_eq_true, if_false]

theorem svcStep_unwritten (he : s.ep? e = some (c, p)) (hirq : s.lowestIrq = some e)
    (h : p.service c = none) : svcStep false s = unwrittenFault s := by
  simp only [svcStep, hirq, he, h, Bool.false_eq_true, if_false]

end

theorem State.irqOutput_iff (s : State) :
    s.irqOutput = true ↔ ∃ e c p, s.ep? e = some (c, p) ∧ p.ipend &&& p.ien ≠ 0 := by
  rw [State.irqOutput, List.any_eq_true]
  constructor
  · rintro ⟨e, -, hirq⟩
    exact ⟨e, State.irq_eq_true.1 hirq⟩
  · rintro ⟨e, c, p, he, hp⟩
    have hlt : e < s.cfg.eps.length := (List.getElem?_eq_some_iff.1 (State.ep?_eq_some.1 he).1).1
    exact ⟨e, List.mem_range.2 hlt, State.irq_eq_true.2 ⟨c, p, he, hp⟩⟩

/-- Settles O32: the guard picks the endpoint (`State.lowestIrq_eq`), and its service is the step. -/
theorem serviceGuard : Obligations.ServiceGuard :=
  ⟨State.irqOutput_iff, svcStep_masked, fun _ hnone => svcStep_idle (State.lowestIrq_eq_none hnone),
    fun _ _ _ _ he hp hlow _ _ hrun => svcStep_served he (State.lowestIrq_eq he hp hlow) hrun⟩

/-! ### Where the model stops (10_state.md R51, 43_bus_agent.md R212) -/

/-- A run of reads with an unwritten byte among them gives nothing. -/
theorem Mem.readAll_eq_none {m : Mem} {k n i : Nat} (hi : i < n) (h : Mem.read m (k + i) = none) :
    Mem.readAll m k n = none := by
  rw [Option.eq_none_iff_forall_ne_some]
  intro vs hvs
  obtain ⟨hlen, hbytes⟩ := Mem.readAll_eq_some hvs
  have hlast := (hbytes i hi).symm.trans h
  rw [List.getElem?_eq_none_iff] at hlast
  omega

section
variable {q : Queue}

theorem Queue.pop_unwritten (h : q.size ≠ 0) (hv : Mem.read q.mem q.rd = none) : q.pop = none := by
  simp [Queue.pop, h, hv]

theorem Queue.peek_unwritten (h : q.size ≠ 0) (hv : Mem.read q.mem q.rd = none) : q.peek = none := by
  simp [Queue.peek, h, hv]

theorem queueToHost_unwritten {c : Config} {n : Nat} {a : Word} {m : Mem} (hn : n ≠ 0) (h : q.pop = none) :
    queueToHost c n a q m = none := by
  obtain ⟨n, rfl⟩ := Nat.exists_eq_succ_of_ne_zero hn
  simp only [queueToHost, h]

end

theorem requestView_unwritten {m : Mem} {i : Nat} (hi : i < 8) (h : Mem.read m i = none) :
    requestView m = none := by
  rw [requestView, Mem.readAll_eq_none (k := 0) hi (by rwa [Nat.zero_add])]

theorem dispStep_unwritten {s : State} {c : EpCfg} {p : Ep} (he : s.ep? 0 = some (c, p))
    (hpend : s.tokenPending = true) (hst : s.ctlState = .setup) (htok : s.tokenLatch.getLsbD 0 = true)
    (hview : requestView p.q.mem = none) : dispStep s = unwrittenFault s := by
  have htrans : s.takeBatch.transition s.tokenLatch c p = none := by
    have hsetup : s.takeBatch.ctlState = .setup := hst
    simp only [State.transition, hsetup, tokHas_setup, htok, if_true, hview]
  rw [State.takeBatch] at htrans
  simp only [dispStep, hpend, if_true, he, htrans]

theorem Ep.inPoll_unwritten {c : EpCfg} {p : Ep} (hs : p.stall = false)
    (h : (p.bank p.busPtr).st = .committed) {i : Nat} (hi : i < (p.bank p.busPtr).cnt)
    (hread : Mem.read (p.bank p.busPtr).data i = none) : p.inPoll c = none := by
  have hnone := Mem.readAll_eq_none (k := 0) hi (by rwa [Nat.zero_add])
  simp only [Ep.inPoll, hs, Bool.false_eq_true, if_false, if_pos h, hnone]

/-- Settles O31: each agent that reads an unwritten byte stops with the same fault; the moves and configurations
that do not exist are refused before any of that. -/
theorem namedStops : Obligations.NamedStops := by
  intro s f hf
  obtain rfl : f = unwrittenFault s := hf
  refine ⟨fun e c p he hsize hread => ⟨?_, ?_, fun harg => ?_⟩, fun e c p he hp hlow hnone => ?_,
    fun c p i he hpend hst htok hi hread => ?_, fun e c p i he hk hs hcom hi hread => ?_,
    fun a e d hd => if_pos hd, fun a e d c p he hlong => ?_, step_refused⟩
  · exact exec_qPop_unwritten he (Queue.pop_unwritten hsize hread)
  · exact exec_qPeek_unwritten he (Queue.peek_unwritten hsize hread)
  · have hlen : s.argLen ≠ 0 := fun h0 => harg (BitVec.eq_of_toNat_eq h0)
    exact exec_epRead_unwritten he (queueToHost_unwritten (by omega) (Queue.pop_unwritten hsize hread))
  · exact svcStep_unwritten he (State.lowestIrq_eq he hp hlow) hnone
  · exact dispStep_unwritten he hpend hst htok (requestView_unwritten hi hread)
  · exact busStep_inn_unwritten he hk (Ep.inPoll_unwritten hs hcom hi hread)
  · exact if_pos (by simp [State.outTooLong, he, hlong])

end Sys2Proof.Machine
end

section
/-!
PROOFS. The fill (42_engine_service.md R178 to R180): a packet moved whole into a queue with room for more, and the
bytes that fit when the queue becomes full.
-/

namespace Sys2Proof.Machine

/-! ### A packet moved whole (R173, R174, R178, R179) -/

/-- How a fill from `p` that moves the unread bytes `d` of the current bank and releases it ends in `r`. -/
structure Ep.FillDone (c : EpCfg) (p : Ep) (d : List Byte) (r : Ep) : Prop where
  contents : r.q.contents = p.q.contents ++ d.map some
  cap : r.q.cap = p.q.cap
  fail : r.q.fail = p.q.fail
  bank : r.bank p.cur = Bank.emptied c (p.bank p.cur)
  other : r.bank (!p.cur) = p.bank (!p.cur)
  dataReady : r.dataReady = decide ((p.bank p.cur).cnt < c.bsize)
  cur : r.cur = nextBank c p.cur
  ipend : r.ipend = p.ipend &&& 0x7B
  ien : r.ien = p.ien
  dir : r.dir = if d = [] then p.dir else .out
  flush : r.flush = p.flush
  stall : r.stall = p.stall
  busPtr : r.busPtr = p.busPtr

theorem idleState_ne_held (c : EpCfg) : idleState c ≠ .held := by
  unfold idleState
  split <;> decide

section
variable {c : EpCfg} {p : Ep} {d : List Byte}

/-- Once released, the bank the engine is to service next is not HELD unless the other one was. -/
theorem Ep.curHeld_releaseOut (ho : c.nbanks = 2 → (p.bank (!p.cur)).st ≠ .held) :
    (p.releaseOut c).curHeld = false := by
  obtain ⟨hbank, hother, hcur, -, -⟩ := Ep.releaseOut_spec c p
  rw [Ep.curHeld, decide_eq_false_iff_not, hcur, nextBank]
  split
  · rename_i hn
    rw [hother]
    exact ho hn
  · rw [hbank]
    exact idleState_ne_held c

/-- The last turn of a fill with room left: the bank read whole is released and RXOUT is cleared. -/
theorem Ep.fill_release (hroom : p.q.size < p.q.cap) (hheld : (p.bank p.cur).st = .held)
    (hread : (p.bank p.cur).rdp = (p.bank p.cur).cnt) (ho : c.nbanks = 2 → (p.bank (!p.cur)).st ≠ .held) :
    p.fill c = some { p.releaseOut c with ipend := p.ipend &&& 0x7B } := by
  have hno : ¬ (c.nbanks = 2 ∧ (p.bank p.cur).st = .held ∧ (p.bank (!p.cur)).st = .held) :=
    fun h => ho h.1 h.2.2
  rw [Ep.fill_eq, if_pos hroom, if_neg (by omega), if_neg hno, Ep.clearOutAck]
  simp only [if_pos (And.intro hheld hread), Ep.curHeld_releaseOut ho, Ep.releaseOut_ipend,
    setBit_out_false]

/-- The unread bytes `d` fit with room to spare: they move, and the bank is released. -/
theorem Ep.fill_packet (h1 : (p.bank p.cur).st = .held) (ho : c.nbanks = 2 → (p.bank (!p.cur)).st ≠ .held)
    (h2 : (p.bank p.cur).rdp + d.length = (p.bank p.cur).cnt)
    (h3 : ∀ i, i < d.length → Mem.read (p.bank p.cur).data ((p.bank p.cur).rdp + i) = d[i]?)
    (h4 : p.q.size + d.length < p.q.cap) : ∃ r, p.fill c = some r ∧ p.FillDone c d r := by
  obtain ⟨u, hfill, hq, hcur, hbank, hother, hdir, hien, hipend, hready, hflush, hstall, hbus⟩ :=
    Ep.fill_bytes c h1 (by omega) h3 (by omega)
  obtain ⟨hcont, hcap, -, hsize, hfail⟩ := Queue.pushAll_spec (q := p.q) (vs := d) (by omega)
  rw [← hq] at hcont hcap hsize hfail
  obtain ⟨rbank, rother, rcur, rready, rrest⟩ := Ep.releaseOut_spec c u
  rw [hcur] at rbank rother rcur rready
  refine ⟨{ u.releaseOut c with ipend := u.ipend &&& 0x7B }, ?_, ?_⟩
  · rw [hfill]
    refine Ep.fill_release (by omega) ?_ ?_ fun hn => ?_ <;> rw [hcur]
    · rw [hbank]; exact h1
    · rw [hbank]; exact h2
    · rw [hother]; exact ho hn
  · rw [rrest]
    exact
      { contents := hcont
        cap := hcap
        fail := hfail
        bank := rbank.trans (by rw [hbank]; rfl)
        other := rother.trans hother
        dataReady := rready.trans (by rw [hbank])
        cur := rcur
        ipend := by rw [← hipend]
        ien := hien
        dir := hdir
        flush := hflush
        stall := hstall
        busPtr := hbus }

/-! ### The queue becomes full (R178, R179, R180) -/

/-- How a fill from `p` ends in `r` when the bytes `d` of the current bank fill the queue. -/
structure Ep.FillStopped (p : Ep) (d : List Byte) (r : Ep) : Prop where
  contents : r.q.contents = p.q.contents ++ d.map some
  size : r.q.size = p.q.cap
  cap : r.q.cap = p.q.cap
  fail : r.q.fail = p.q.fail
  bank : r.bank p.cur = { p.bank p.cur with rdp := (p.bank p.cur).rdp + d.length }
  other : r.bank (!p.cur) = p.bank (!p.cur)
  cur : r.cur = p.cur
  ipend : r.ipend = p.ipend
  ien : r.ien = p.ien &&& 0x7B
  dataReady : r.dataReady = p.dataReady
  dir : r.dir = if d = [] then p.dir else .out
  flush : r.flush = p.flush

theorem Ep.fill_full (h : p.q.size = p.q.cap) : p.fill c = some p.backpressure := by
  rw [Ep.fill_eq, if_neg (by omega)]

/-- The unread bytes `d` fill the queue: they move, and OUT is disabled. -/
theorem Ep.fill_stop (h1 : (p.bank p.cur).st = .held)
    (h2 : (p.bank p.cur).rdp + d.length ≤ (p.bank p.cur).cnt)
    (h3 : ∀ i, i < d.length → Mem.read (p.bank p.cur).data ((p.bank p.cur).rdp + i) = d[i]?)
    (h4 : p.q.size + d.length = p.q.cap) : ∃ r, p.fill c = some r ∧ p.FillStopped d r := by
  obtain ⟨u, hfill, hq, hcur, hbank, hother, hdir, hien, hipend, hready, hflush, -, -⟩ :=
    Ep.fill_bytes c h1 h2 h3 h4.le
  obtain ⟨hcont, hcap, -, hsize, hfail⟩ := Queue.pushAll_spec (q := p.q) (vs := d) h4.le
  rw [← hq] at hcont hcap hsize hfail
  refine ⟨u.backpressure, by rw [hfill, Ep.fill_full (by omega)], ?_⟩
  exact
    { contents := hcont
      size := hsize.trans h4
      cap := hcap
      fail := hfail
      bank := hbank
      other := hother
      cur := hcur
      ipend := hipend
      ien := by rw [Ep.backpressure, setBit_out_false, hien]
      dataReady := hready
      dir := hdir
      flush := hflush }

end

/-- DIR after two packets of which each sets it when it has a byte. -/
theorem dir_of_append (a : Dir) (d e : List Byte) :
    (if e = [] then (if d = [] then a else Dir.out) else .out) = if d ++ e = [] then a else .out := by
  cases d <;> cases e <;> rfl

/-- Settles O34: one packet is `Ep.fill_packet`; with two, the fill toggles (`Ep.fill_toggle`) and the second is
again one packet. -/
theorem fillDeliversPacket : Obligations.FillDeliversPacket := by
  refine ⟨fun c p d _ h1 ho h2 h3 h4 => ?_, fun c p d e _ hn h1 ho h2 h3 g2 g3 h4 => ?_⟩
  · obtain ⟨r, hfill, hr⟩ := Ep.fill_packet h1 ho h2 h3 h4
    exact ⟨r, hfill, hr.contents, hr.cap, hr.fail, hr.bank, hr.other, hr.dataReady, hr.cur, hr.ipend, hr.ien,
      hr.dir, hr.flush, hr.stall, hr.busPtr⟩
  · obtain ⟨u, hturn, hq, hcur, hbank, hother, hdir, hien, hipend, -, hflush, hstall, hbus⟩ :=
      Ep.fill_toggle hn h1 ho h2 h3 (by omega)
    obtain ⟨hcont, hcap, -, hsize, hfail⟩ := Queue.pushAll_spec (q := p.q) (vs := d) (by omega)
    rw [← hq] at hcont hcap hsize hfail
    have hub : u.bank u.cur = p.bank (!p.cur) := by rw [hcur, hother]
    have huo : u.bank (!u.cur) = Bank.emptied c (p.bank p.cur) := by rw [hcur, Bool.not_not, hbank]
    obtain ⟨r, hfill, hr⟩ := Ep.fill_packet (c := c) (p := u) (d := e) (by rw [hub]; exact ho)
      (fun _ => by rw [huo]; exact idleState_ne_held c) (by rw [hub]; exact g2) (by rw [hub]; exact g3)
      (by omega)
    refine ⟨r, hturn.trans hfill, ?_, hr.cap.trans hcap, hr.fail.trans hfail, fun b => ?_, ?_, ?_, ?_,
      hr.ien.trans hien, ?_, hr.flush.trans hflush, hr.stall.trans hstall, hr.busPtr.trans hbus⟩
    · rw [hr.contents, hcont, List.map_append, List.append_assoc]
    · have hbanks := And.intro hr.bank hr.other
      rw [hub, huo, hcur, Bool.not_not] at hbanks
      obtain rfl | rfl := Bool.eq_or_eq_not b p.cur
      · exact hbanks.2
      · exact hbanks.1
    · rw [hr.dataReady, hub]
    · rw [hr.cur, nextBank, if_pos hn, hcur, Bool.not_not]
    · rw [hr.ipend, hipend]
    · rw [hr.dir, hdir, dir_of_append]

/-- Settles O35: the queue fills in the current bank (`Ep.fill_stop`) or, after a toggle, in the other. -/
theorem fillBackpressure : Obligations.FillBackpressure := by
  refine ⟨fun c p d _ h1 h4 h2 h3 => ?_, fun c p d e _ hn h1 ho h2 h3 he g2 g3 h4 => ?_⟩
  · obtain ⟨r, hfill, hr⟩ := Ep.fill_stop (c := c) h1 h2 h3 h4
    exact ⟨r, hfill, hr.contents, hr.size, hr.cap, hr.fail, hr.bank, hr.other, hr.cur, hr.ipend, hr.ien,
      hr.dataReady, hr.dir, hr.flush⟩
  · have hpos := List.length_pos_of_ne_nil he
    obtain ⟨u, hturn, hq, hcur, hbank, hother, -, hien, hipend, hready, hflush, -, -⟩ :=
      Ep.fill_toggle hn h1 ho h2 h3 (by omega)
    obtain ⟨hcont, hcap, -, hsize, hfail⟩ := Queue.pushAll_spec (q := p.q) (vs := d) (by omega)
    rw [← hq] at hcont hcap hsize hfail
    have hub : u.bank u.cur = p.bank (!p.cur) := by rw [hcur, hother]
    obtain ⟨r, hfill, hr⟩ := Ep.fill_stop (c := c) (p := u) (d := e) (by rw [hub]; exact ho)
      (by rw [hub]; exact g2) (by rw [hub]; exact g3) (by omega)
    refine ⟨r, hturn.trans hfill, ?_, hr.size.trans hcap, hr.cap.trans hcap, hr.fail.trans hfail, ?_, ?_,
      hr.cur.trans hcur, hr.ipend.trans hipend, ?_, hr.dataReady.trans hready, ?_, hr.flush.trans hflush⟩
    · rw [hr.contents, hcont, List.map_append, List.append_assoc]
    · have hkept := hr.other
      rw [hcur, Bool.not_not, hbank] at hkept
      exact hkept
    · have hmoved := hr.bank
      rw [hub, hcur] at hmoved
      exact hmoved
    · rw [hr.ien, hien]
    · rw [hr.dir, if_neg he]

end Sys2Proof.Machine
end

section
/-!
PROOFS. The drain (42_engine_service.md R183 to R186), the IN-abort (R194) and the progress of a service (R201).
-/

namespace Sys2Proof.Machine

/-! ### Where the bytes of a drain land (R175, R176, R183 to R186) -/

/-- A drain from an endpoint that differs in the queue's bytes, the banks and the pointer ends as one from `p`. -/
theorem Ep.DrainEnd.of_start {c : EpCfg} {p r : Ep} {rest : List Byte} {q : Queue} {b0 b1 : Bank} {cur : Bool}
    (h : Ep.DrainEnd c { p with q := q, bank0 := b0, bank1 := b1, cur := cur } r rest)
    (hcap : q.cap = p.q.cap) (hfail : q.fail = p.q.fail) : Ep.DrainEnd c p r rest :=
  { frame := h.frame
    contents := h.contents
    cap := h.cap.trans hcap
    fail := h.fail.trans hfail
    done := h.done
    goesOn := h.goesOn
    txin := h.txin
    otherFlags := h.otherFlags }

/-- The loop stops on an empty queue, or when neither the current bank nor another has room. -/
theorem Ep.drainAll_stop {c : EpCfg} {p : Ep}
    (h : p.q.size = 0 ∨ ¬ ((p.bank p.cur).st = .fill ∧ (p.bank p.cur).cnt < c.bsize) ∧
      ¬ (c.nbanks = 2 ∧ (p.bank (!p.cur)).st = .fill)) :
    p.drainAll c = some p := by
  rw [Ep.drainAll_eq]
  obtain hempty | ⟨hroom, hother⟩ := h
  · rw [if_neg (by omega)]
  · rw [if_neg hroom, if_neg hother, ite_self]

/-- The drain ends in the bank it begins in: the bytes `d` land there, which empties the queue or fills up the
only bank that is FILL, and the bank is committed. -/
theorem Ep.drain_packet {c : EpCfg} {p : Ep} {d rest : List Byte} (hq : Queue.Inv c p.q)
    (hst : (p.bank p.cur).st = .fill) (hcont : p.q.contents = (d ++ rest).map some)
    (hfit : (p.bank p.cur).cnt + d.length ≤ c.bsize)
    (hstop : rest = [] ∨
      (p.bank p.cur).cnt + d.length = c.bsize ∧ (c.nbanks = 2 → (p.bank (!p.cur)).st ≠ .fill)) :
    ∃ r, p.drain c = some r ∧ Ep.DrainEnd c p r rest ∧ Bank.Sent (p.bank p.cur) (r.bank p.cur) d ∧
      r.bank (!p.cur) = p.bank (!p.cur) ∧ r.cur = nextBank c p.cur := by
  obtain ⟨u, hall, -, ucont, ucap, ufail, hu, ust, ucnt, urdp, unew, uold, uother⟩ :=
    Ep.drainAll_bytes hq hst (hcont.trans List.map_append) hfit
  have hcur : u.cur = p.cur := by rw [hu]
  have hend : u.drainAll c = some u := Ep.drainAll_stop (by
    rw [hcur, ucnt, uother, ← Queue.contents_length, ucont]
    exact hstop.imp (fun h => by rw [h]; rfl)
      fun ⟨hfull, ho⟩ => ⟨fun hroom => absurd hroom.2 (by omega), fun h => ho h.1 h.2⟩)
  obtain ⟨r, hdrain, hr, hbank, hrcur⟩ :=
    Ep.drain_of_all (hall.trans hend) (by rw [hcur]; exact hu) ucont ucap ufail
  obtain ⟨cbank, cother, ccur, -⟩ := Ep.commit_spec c u
  rw [hcur, if_pos ust] at hbank hrcur
  rw [hcur] at cbank cother ccur
  refine ⟨r, hdrain, hr, ?_, ?_, hrcur.trans ccur⟩
  · rw [hbank, cbank]
    exact ⟨rfl, ucnt, urdp, unew, uold⟩
  · rw [hbank, cother, uother]

/-- When the engine's bank is not FILL no byte moves (R183, R184). -/
theorem Ep.Inv.drainAll_blocked {c : EpCfg} {p : Ep} (h : Ep.Inv c p) (hok : SlotOk c)
    (hst : (p.bank p.cur).st ≠ .fill) : p.drainAll c = some p :=
  Ep.drainAll_stop (.inr ⟨fun hroom => hst hroom.1, fun ho => hst (h.no_flip hok ho.1 ho.2)⟩)

/-- Settles O36: the drain ends in the current bank (`Ep.drain_packet`), or toggles once and then ends in the
other, or its loop stops at once. -/
theorem drainSendsPacket : Obligations.DrainSendsPacket := by
  intro c p d hp hcont
  refine ⟨fun hst hfit => ?_, ?_, ?_, fun hok hk hst => ?_⟩
  · exact Ep.drain_packet hp.queue hst (by rw [List.append_nil]; exact hcont) hfit (.inl rfl)
  · rintro d1 rest rfl hrest hst hfull ho
    exact Ep.drain_packet hp.queue hst hcont (by omega) (.inr ⟨hfull, ho⟩)
  · rintro d1 d2 rest rfl hrest hn hst hother hfull hfit hstop
    obtain ⟨u, hall, uq, ucont, ucap, ufail, hu, ucur, usent, uother⟩ :=
      Ep.drainAll_toggle hp.queue hn hst hother (hcont.trans List.map_append) (by simpa using hrest) hfull
    have hub : u.bank u.cur = p.bank (!p.cur) := by rw [ucur, uother]
    have huo : u.bank (!u.cur) = u.bank p.cur := by rw [ucur, Bool.not_not]
    obtain ⟨r, hdrain, hr, rsent, rother, rcur⟩ :=
      Ep.drain_packet uq (by rw [hub]; exact hother) ucont (by rw [hub]; exact hfit) (by
        rw [hub, huo, usent.state]
        exact (em (rest = [])).imp_right fun h => ⟨hstop h, fun _ => by decide⟩)
    have hsame : p.drain c = u.drain c := by rw [Ep.drain_eq, Ep.drain_eq, hall]
    rw [hu] at hr
    rw [hub, ucur] at rsent
    rw [huo, ucur, Bool.not_not] at rother
    refine ⟨r, hsame.trans hdrain, hr.of_start ucap ufail, rother ▸ usent, rsent, ?_⟩
    rw [rcur, nextBank, if_pos hn, ucur, Bool.not_not]
  · obtain ⟨r, hdrain, hr, hbank, hcur⟩ :=
      Ep.drain_of_all (hp.drainAll_blocked (.of_slotOk hok hk) hst) rfl hcont rfl rfl
    rw [if_neg hst] at hbank hcur
    exact ⟨r, hdrain, hr, hbank, hcur⟩

/-! ### The IN-abort (R194) -/

theorem setBit_out_in : ∀ (v : Bits7) (b : Bool), setBit (setBit v bitOut false) bitIn b =
    if b then (v &&& 0x7B) ||| 0x02 else v &&& 0x79 := by decide

/-- Settles O39: the fields of `in_abort`, with the flags written by masks. -/
theorem inAbortResult : Obligations.InAbortResult := by
  intro c p
  refine ⟨fun b hb => ?_, fun hn => if_neg hn, ?_⟩
  · cases b with
    | false => rfl
    | true => exact if_pos (hb rfl)
  · conv_lhs => rw [Ep.inAbort, setBit_in_out, setBit_out_in]
    simp only [decide_eq_true_eq]
    rfl

/-! ### Progress (R201) -/

/-- After a service the flag `k` is cleared or disabled, but for the two exceptions of R201. -/
def Ep.Progress (c : EpCfg) (r : Ep) (k : Nat) : Prop :=
  r.ipend.getLsbD k = false ∨ r.ien.getLsbD k = false ∨
    (k = 1 ∧ c.kind = .inn ∧ (r.bank r.cur).st = .fill) ∨ (k = 2 ∧ (r.bank r.cur).st = .held)

section
variable {c : EpCfg} {p r : Ep}

/-- A pending flag rules RXSTP out when it is TXIN or RXOUT. -/
theorem Ep.Inv.rxstp_of_data (h : Ep.Inv c p)
    (hd : p.ipend.getLsbD bitIn = true ∨ p.ipend.getLsbD bitOut = true) :
    p.ipend.getLsbD bitSetup = false := by
  by_contra hx
  obtain ⟨hin, hout⟩ := h.setupHeld.noData (by simpa using hx)
  rw [hin, hout] at hd
  cases hd with
  | inl h => cases h
  | inr h => cases h

/-- The IN-abort clears RXOUT, and TXIN unless an IN endpoint's bank is FILL, as it then is. -/
theorem Ep.inAbort_progress (c : EpCfg) (p : Ep) : (p.inAbort c).Progress c 1 ∧ (p.inAbort c).Progress c 2 := by
  have hipend : (p.inAbort c).ipend = setBit (setBit p.ipend bitOut false) bitIn (decide (c.kind = .inn)) := rfl
  refine ⟨?_, .inl (by rw [hipend, getLsbD_setBit, if_neg (by decide), getLsbD_setBit, if_pos rfl]; rfl)⟩
  by_cases hk : c.kind = .inn
  · have hfill : ((p.inAbort c).bank (p.inAbort c).cur).st = idleState c := rfl
    exact .inr (.inr (.inl ⟨rfl, hk, by rw [hfill, idleState, hk]; rfl⟩))
  · exact .inl (by rw [hipend, getLsbD_setBit, if_pos rfl, decide_eq_false hk]; rfl)

/-- SETUP handling clears RXSTP (R189). -/
theorem Ep.setupHandling_progress {t u : Token} (h : p.setupHandling t = some (r, u)) : r.Progress c 0 := by
  have hclear : ∀ q : Ep, q.clearSetupAck.cancelTransfer.ipend.getLsbD 0 = false := fun q => by
    rw [Ep.clearSetupAck_cancelTransfer]
    simp
  rw [Ep.setupHandling] at h
  split at h
  · cases h; exact .inl (hclear _)
  · split at h
    · cases h
    · cases h; exact .inl (hclear _)

/-- After a fill RXOUT says whether the engine's bank is HELD, or OUT is disabled (R178, R180). -/
theorem Ep.fill_progress : p.fill c = some r → r.Progress c 2 := by
  induction p using Ep.fill_induct with
  | h p ih =>
    rw [Ep.fill_eq]
    intro h
    split at h
    · split at h
      · split at h
        · cases h
        · exact ih _ (Ep.fillByte_turns _ ‹_›) h
      · split at h
        · rename_i hheld
          exact ih _ (Ep.releaseOut_turns hheld.2.1 hheld.2.2) h
        · cases h
          by_cases hh : ((p.clearOutAck c).bank (p.clearOutAck c).cur).st = .held
          · exact .inr (.inr (.inr ⟨rfl, hh⟩))
          · refine .inl ?_
            rw [Ep.clearOutAck, getLsbD_setBit, if_pos rfl, Bool.and_eq_false_iff]
            exact .inl (decide_eq_false hh)
    · cases h
      exact .inr (.inl (by rw [Ep.backpressure, getLsbD_setBit, if_pos rfl]; rfl))

/-- `drain_done` leaves the pending flags and the banks alone (R186). -/
theorem Ep.drainDone_banks (p : Ep) :
    p.drainDone.ipend = p.ipend ∧ p.drainDone.bank p.drainDone.cur = p.bank p.cur := by
  rw [Ep.drainDone]
  split
  · exact ⟨rfl, rfl⟩
  · exact ⟨rfl, rfl⟩

/-- After a drain TXIN says whether an IN endpoint's bank is FILL (R176). -/
theorem Ep.drain_progress_in (h : p.drain c = some r) : r.Progress c 1 := by
  rw [Ep.drain_eq] at h
  obtain ⟨u, -, rfl⟩ := Option.map_eq_some_iff.1 h
  obtain ⟨hipend, hbank⟩ := Ep.drainDone_banks (u.clearTxAck c)
  have htxin := (Ep.clearTxAck_spec c u).2.1
  rw [← hipend, ← hbank] at htxin
  by_cases hin : c.kind = .inn ∧ ((u.clearTxAck c).drainDone.bank (u.clearTxAck c).drainDone.cur).st = .fill
  · exact .inr (.inr (.inl ⟨rfl, hin⟩))
  · exact .inl (htxin.trans (decide_eq_false hin))

/-- A drain keeps RXOUT and the OUT enable, and a HELD bank stops it. -/
theorem Ep.Inv.drain_progress_out (hp : Ep.Inv c p) (hok : SlotOk c) (hprog : p.Progress c 2)
    (h : p.drain c = some r) : r.Progress c 2 := by
  obtain ⟨hempty, hrest⟩ := drainCompletion c p r h
  rw [Ep.drain_eq] at h
  obtain ⟨u, hall, rfl⟩ := Option.map_eq_some_iff.1 h
  obtain ⟨hipend, hbank⟩ := Ep.drainDone_banks (u.clearTxAck c)
  obtain ⟨hack, -, hother⟩ := Ep.clearTxAck_spec c u
  rcases hprog with hclear | hdis | ⟨hk, -⟩ | ⟨-, hheld⟩
  · obtain ⟨u', hall', -, hsame, -⟩ := hp.drainAll hok
    obtain rfl : u' = u := Option.some.inj (hall'.symm.trans hall)
    exact .inl (by rw [hipend, hother 2 (by decide), hsame]; exact hclear)
  · refine .inr (.inl ?_)
    by_cases hz : (u.clearTxAck c).drainDone.q.size = 0
    · rw [(hempty hz).2.2, BitVec.getLsbD_and, hdis, Bool.false_and]
    · rw [(hrest hz).2.2]; exact hdis
  · cases hk
  · have hst : (p.bank p.cur).st ≠ .fill := by rw [hheld]; decide
    obtain rfl : p = u := Option.some.inj ((hp.drainAll_blocked hok hst).symm.trans hall)
    refine .inr (.inr (.inr ⟨rfl, ?_⟩))
    rw [hbank, hack, if_neg hst]
    exact hheld

/-- The flags of the token that the work of a service acts on make progress: the branches of R172. -/
theorem Ep.Inv.serviceWork_progress (hp : Ep.Inv c p) (hok : SlotOk c) {t : Token}
    (h : p.serviceWork c (tokenOf p.pending) = some (r, t)) {k : Nat} (hk : k ≤ 2)
    (hpend : p.pending.getLsbD k = true) : r.Progress c k := by
  have hflag : ∀ j, p.pending.getLsbD j = true → p.ipend.getLsbD j = true := fun j hj => by
    rw [Ep.pending_getLsbD] at hj
    exact (Bool.and_eq_true_iff.1 hj).1
  have hnoSetup : ∀ j, j = 1 ∨ j = 2 → p.pending.getLsbD j = true → p.ipend.getLsbD bitSetup = false := by
    rintro j (rfl | rfl) hj
    · exact hp.rxstp_of_data (.inl (hflag _ hj))
    · exact hp.rxstp_of_data (.inr (hflag _ hj))
  rw [Ep.serviceWork_tokenOf] at h
  split at h
  next habort =>
    cases h
    obtain ⟨hin, hout⟩ := Ep.inAbort_progress c p
    obtain rfl | rfl | rfl : k = 0 ∨ k = 1 ∨ k = 2 := by omega
    · exact absurd (hflag 0 hpend) (Bool.eq_false_iff.1 (hnoSetup 1 (.inl rfl) habort.1))
    · exact hin
    · exact hout
  next =>
    split at h
    next hsetup =>
      obtain rfl | hdata : k = 0 ∨ (k = 1 ∨ k = 2) := by omega
      · exact Ep.setupHandling_progress h
      · exact absurd (hflag 0 hsetup) (Bool.eq_false_iff.1 (hnoSetup k hdata hpend))
    next hsetup =>
      obtain ⟨u, hwork, hu⟩ := Option.map_eq_some_iff.1 h
      cases hu
      obtain ⟨p1, hfill, hdrain⟩ := Option.bind_eq_some_iff.1 hwork
      obtain rfl | rfl | rfl : k = 0 ∨ k = 1 ∨ k = 2 := by omega
      · exact absurd hpend hsetup
      · rw [if_pos hpend] at hdrain
        exact Ep.drain_progress_in hdrain
      · rw [if_pos hpend] at hfill
        obtain ⟨p1', hfill', hp1, -⟩ := hp.fill hok (hnoSetup 2 (.inr rfl) hpend)
        obtain rfl : p1' = p1 := Option.some.inj (hfill'.symm.trans hfill)
        split at hdrain
        · exact hp1.drain_progress_out hok (Ep.fill_progress hfill) hdrain
        · cases hdrain
          exact Ep.fill_progress hfill

end

/-- The last act of a service clears the auxiliary flags it saw and no other (R196). -/
theorem getLsbD_clearAux_aux (v : Bits7) {w : Bits7} {k : Nat} (hk : 2 < k) (hw : w.getLsbD k = true) :
    (v &&& ~~~(w &&& 0x78)).getLsbD k = false := by
  have hmask : ∀ j : Fin 7, 2 < j.val → (0x78 : Bits7).getLsbD j = true := by decide
  rw [BitVec.getLsbD_and, BitVec.getLsbD_not, BitVec.getLsbD_and, hw, hmask ⟨k, BitVec.lt_of_getLsbD hw⟩ hk]
  simp

/-- Settles O41: the work makes progress on RXSTP, TXIN and RXOUT, and the auxiliary flags are cleared after. -/
theorem serviceMakesProgress : Obligations.ServiceMakesProgress := by
  intro c p r tok hslot hkind hp h k hk
  rw [Ep.service_eq (v := p.pending) rfl] at h
  obtain ⟨⟨u, t⟩, hwork, hr⟩ := Option.map_eq_some_iff.1 h
  cases hr
  obtain hlow | haux := Nat.lt_or_ge k 3 
  · obtain hclear | hdone := hp.serviceWork_progress (.of_slotOk hslot hkind) hwork (Nat.le_of_lt_succ hlow) hk
    · exact .inl ((getLsbD_clearAux (Nat.le_of_lt_succ hlow)).trans hclear)
    · exact .inr hdone
  · exact .inl (getLsbD_clearAux_aux u.ipend haux hk)

end Sys2Proof.Machine
end

section
/-!
PROOFS. The dispatcher on a batch that dispatches no request (44_control_fsm.md R240 to R248).
-/

namespace Sys2Proof.Machine

section
variable {s t : State} {c : EpCfg} {p : Ep}

/-- Without its guard a DISP step does nothing (R240). -/
theorem dispStep_idle (hpend : s.tokenPending = false) : dispStep s = .next s := by
  simp only [dispStep, hpend, Bool.false_eq_true, if_false]

/-- A DISP step from the control state `a` to `b` records both (R241). -/
theorem dispStep_between (he : s.ep? 0 = some (c, p)) (hpend : s.tokenPending = true) {a b : CtlState}
    (ha : s.ctlState = a) (ht : s.takeBatch.transition s.tokenLatch c p = some t) (hb : t.ctlState = b) :
    dispStep s = .next (t.emit (.disp s.tokenLatch a b)) := by
  rw [dispStep_of_transition he hpend ht, ha, hb]

variable {k : Token}

/-- In SETUP a batch without SETUP is dropped (R244). -/
theorem State.transition_setup_idle (hst : s.ctlState = .setup) (hk : k.getLsbD 0 = false) :
    s.transition k c p = some s := by
  simp only [State.transition, hst, tokHas_setup, hk, Bool.false_eq_true, if_false]

/-- AWAIT_FLUSH ends with the flush (R245). -/
theorem State.transition_awaitFlush (hst : s.ctlState = .awaitFlush) :
    s.transition k c p = some (if p.flush then s else { s with ctlState := .setup }) := by
  simp only [State.transition, hst]

/-- A SETUP without IN ends AWAIT_IN_FOR_ADDRESS, the address not applied (R247, R248). -/
theorem State.transition_awaitIn_idle (hst : s.ctlState = .awaitInForAddress) (hk : k.getLsbD 1 = false) :
    s.transition k c p = some (if k.getLsbD 0 then { s with ctlState := .setup } else s) := by
  simp only [State.transition, hst, tokHas_in, tokHas_setup, hk, Bool.false_eq_true, if_false]
  split <;> rfl

end

/-- Settles O48: the transition of each control state on a batch that dispatches nothing. -/
theorem dispatchWithoutRequest : Obligations.DispatchWithoutRequest := by
  intro s c p he
  refine ⟨dispStep_idle, fun hpend => ⟨fun hst hk => ?_, fun hst hflush => ?_, fun hst hflush => ?_,
    fun hst hin hsetup => ?_, fun hst hin hsetup => ?_⟩⟩
  · exact dispStep_between he hpend hst (State.transition_setup_idle (s := s.takeBatch) hst hk) hst
  · have ht := State.transition_awaitFlush (s := s.takeBatch) (k := s.tokenLatch) (c := c) (p := p) hst
    rw [hflush] at ht
    exact dispStep_between he hpend hst ht hst
  · have ht := State.transition_awaitFlush (s := s.takeBatch) (k := s.tokenLatch) (c := c) (p := p) hst
    rw [hflush] at ht
    exact dispStep_between he hpend hst ht rfl
  · have ht := State.transition_awaitIn_idle (s := s.takeBatch) (c := c) (p := p) hst hin
    rw [hsetup] at ht
    exact dispStep_between he hpend hst ht rfl
  · have ht := State.transition_awaitIn_idle (s := s.takeBatch) (c := c) (p := p) hst hin
    rw [hsetup] at ht
    exact dispStep_between he hpend hst ht hst

end Sys2Proof.Machine
end

section
/-!
PROOFS. The processor's register accesses and the register map (20_memory.md R71, R72, R76, R77).
-/

namespace Sys2Proof.Machine

/-! ### Register accesses (R71, R72) -/

section
variable {s : State} {addr v : Word} {width : Width}

theorem accessOk_eq_false {off : Nat} (h : width ≠ .word ∨ off % 4 ≠ 0) : accessOk width off = false := by
  rw [accessOk, Bool.and_eq_false_iff, decide_eq_false_iff_not, decide_eq_false_iff_not]
  exact h

theorem accessOk_word {off : Nat} (h : off % 4 = 0) : accessOk .word off = true := by
  rw [accessOk, decide_eq_true h]
  rfl

/-- Above ARG_C a write does nothing (R72). -/
theorem regWrite_readOnly {off : Nat} (h : 0x010 ≤ off) : regWrite off v s = .next s := by
  unfold regWrite
  split
  case h_5 => rfl
  all_goals omega

theorem regLoad_outside (h : ¬ s.regOffset addr < 0x500) : regLoad addr width s = .next s := if_neg h

theorem regStore_outside (h : ¬ s.regOffset addr < 0x500) : regStore addr width v s = .next s := if_neg h

theorem regLoad_refused (h : s.regOffset addr < 0x500) (hacc : accessOk width (s.regOffset addr) = false) :
    regLoad addr width s = .next (s.recordFault .mmioAccess) := by
  rw [regLoad, if_pos h, if_neg (Bool.eq_false_iff.1 hacc)]

theorem regStore_refused (h : s.regOffset addr < 0x500) (hacc : accessOk width (s.regOffset addr) = false) :
    regStore addr width v s = .next (s.recordFault .mmioAccess) := by
  rw [regStore, if_pos h, if_neg (Bool.eq_false_iff.1 hacc)]

theorem regLoad_word (h : s.regOffset addr < 0x500) (hacc : accessOk width (s.regOffset addr) = true) :
    regLoad addr width s = .next { s with rdata := s.regRead (s.regOffset addr) } := by
  rw [regLoad, if_pos h, if_pos hacc]

theorem regStore_word (h : s.regOffset addr < 0x500) (hacc : accessOk width (s.regOffset addr) = true) :
    regStore addr width v s = regWrite (s.regOffset addr) v s := by
  rw [regStore, if_pos h, if_pos hacc]

end

/-- Settles O52: an access is refused, outside the block, or a read or write of one register. -/
theorem registerAccess : Obligations.RegisterAccess := by
  rintro s addr v width off rfl
  refine ⟨fun hin hbad => ?_, fun hout => ?_, ?_⟩
  · have hacc := accessOk_eq_false hbad
    exact ⟨regLoad_refused hin hacc, regStore_refused hin hacc⟩
  · exact ⟨regLoad_outside (Nat.not_lt.2 hout), regStore_outside (Nat.not_lt.2 hout)⟩
  · rintro hin rfl hmul
    have hacc := accessOk_word hmul
    have hstore := regStore_word (v := v) hin hacc
    refine ⟨regLoad_word hin hacc, fun h => ?_, fun h => ?_, fun h => ?_, fun h => ?_, fun h => ?_⟩
    · rw [hstore, State.regOffset, h]; rfl
    · rw [hstore, State.regOffset, h]; rfl
    · rw [hstore, State.regOffset, h, BitVec.setWidth_eq_extractLsb' (by decide)]; rfl
    · rw [hstore, State.regOffset, h]; rfl
    · exact hstore.trans (regWrite_readOnly h)

/-! ### The fields of a register word -/

theorem toNat_field {n k : Nat} (h : 2 ^ k * n < 2 ^ 32) : (field n k).toNat = 2 ^ k * n := by
  have hn : n < 2 ^ 32 := lt_of_le_of_lt (Nat.le_mul_of_pos_left n (Nat.two_pow_pos k)) h
  rw [field, BitVec.toNat_shiftLeft, BitVec.toNat_ofNat, Nat.mod_eq_of_lt hn, Nat.shiftLeft_eq, Nat.mul_comm,
    Nat.mod_eq_of_lt h]

/-- A field placed above the bits of `w` adds its value. -/
theorem toNat_or_field {w : Word} {n k : Nat} (hw : w.toNat < 2 ^ k) (h : 2 ^ k * n < 2 ^ 32) :
    (w ||| field n k).toNat = w.toNat + 2 ^ k * n := by
  rw [BitVec.toNat_or, toNat_field h, Nat.or_comm, ← Nat.two_pow_add_eq_or_of_lt hw, Nat.add_comm]

theorem field_toNat {w : Nat} (v : BitVec w) : field v.toNat 0 = v.setWidth 32 := by
  rw [field, BitVec.ofNat_toNat, BitVec.shiftLeft_zero]

/-- A field at bit 0 reads as its value. -/
theorem toNat_field_zero {n : Nat} (h : n < 2 ^ 32) : (field n 0).toNat = n := by
  rw [toNat_field (by omega)]
  omega

/-- Two fields, the first at bit 0. -/
theorem toNat_two_fields {m n k : Nat} (hk : k ≤ 32) (hm : m < 2 ^ k) (hn : 2 ^ k * n < 2 ^ 32) :
    (field m 0 ||| field n k).toNat = m + 2 ^ k * n := by
  have hlow := toNat_field_zero (lt_of_lt_of_le hm (Nat.pow_le_pow_right (by decide) hk))
  rw [toNat_or_field (by rw [hlow]; exact hm) hn, hlow]

theorem CtlState.code_lt (x : CtlState) : x.code < 2 ^ 2 := by cases x <;> decide
theorem Dir.code_lt (x : Dir) : x.code < 2 ^ 2 := by cases x <;> decide
theorem BankState.code_lt (x : BankState) : x.code < 2 ^ 2 := by cases x <;> decide
theorem epTypeCode_lt (x : EpType) : epTypeCode x < 2 ^ 2 := by cases x <;> decide

/-- A one-bit field at bit `e` is that bit alone. -/
theorem getLsbD_field_bool {b : Bool} {e j : Nat} (he : e < 32) :
    (field b.toNat e).getLsbD j = true ↔ j = e ∧ b = true := by
  cases b with
  | false => simp [field]
  | true =>
    have hbit : field true.toNat e = BitVec.twoPow 32 e := rfl
    rw [hbit, BitVec.getLsbD_twoPow]
    simp
    omega

/-! ### The global registers (R76) -/

/-- A word gathered bit by bit holds exactly the bits that are set. -/
theorem getLsbD_foldl_field {f : Nat → Bool} {l : List Nat} (hl : ∀ e ∈ l, e < 32) (w : Word) (j : Nat) :
    (l.foldl (fun w e => w ||| field (f e).toNat e) w).getLsbD j = true ↔
      w.getLsbD j = true ∨ j ∈ l ∧ f j = true := by
  induction l generalizing w with
  | nil => simp
  | cons e l ih =>
    have hbit := getLsbD_field_bool (b := f e) (j := j) (hl e List.mem_cons_self)
    rw [List.foldl_cons, ih fun x hx => hl x (List.mem_cons_of_mem _ hx), BitVec.getLsbD_or, Bool.or_eq_true,
      hbit, List.mem_cons, or_assoc, or_and_right]
    have hsame : j = e ∧ f e = true ↔ j = e ∧ f j = true := and_congr_right fun h => by rw [h]
    rw [hsame]

theorem State.irqStat_getLsbD {s : State} (hlen : s.cfg.eps.length ≤ 16) (e : Nat) :
    s.irqStat.getLsbD e = true ↔ ∃ c p, s.ep? e = some (c, p) ∧ p.pending ≠ 0 := by
  rw [State.irqStat, getLsbD_foldl_field fun x hx => by rw [List.mem_range] at hx; omega]
  rw [← State.irq_eq_true, List.mem_range]
  refine ⟨fun h => ?_, fun h => .inr ⟨?_, h⟩⟩
  · obtain h | ⟨-, h⟩ := h
    · simp at h
    · exact h
  · obtain ⟨c, p, he, -⟩ := State.irq_eq_true.1 h
    exact (List.getElem?_eq_some_iff.1 (State.ep?_eq_some.1 he).1).1

theorem State.globalReg_unmapped (s : State) {off : Nat} (h : 0x02C ≤ off) : s.globalReg off = 0 := by
  unfold State.globalReg
  split
  case h_12 => rfl
  all_goals omega

/-! ### An endpoint's block (R77) -/

/-- Which block and which register of it an offset of 0x100 or more selects. -/
theorem block_index {e off : Nat} (h : off < 0x40) :
    ¬ 0x100 + 0x40 * e + off < 0x100 ∧ (0x100 + 0x40 * e + off - 0x100) / 0x40 = e ∧
      (0x100 + 0x40 * e + off - 0x100) % 0x40 = off := by
  omega

theorem State.regRead_unconfigured {s : State} {e off : Nat} (he : s.ep? e = none) (h : off < 0x40) :
    s.regRead (0x100 + 0x40 * e + off) = 0 := by
  obtain ⟨hge, hblock, -⟩ := block_index (e := e) h
  rw [State.regRead, if_neg hge, hblock, he]

theorem State.regRead_ep {s : State} {e off : Nat} {c : EpCfg} {p : Ep} (he : s.ep? e = some (c, p))
    (h : off < 0x40) : s.regRead (0x100 + 0x40 * e + off) = p.reg c off := by
  obtain ⟨hge, hblock, hoff⟩ := block_index (e := e) h
  rw [State.regRead, if_neg hge, hblock, hoff, he]

theorem Ep.reg_unmapped (c : EpCfg) (p : Ep) {off : Nat} (h : 0x38 ≤ off) : p.reg c off = 0 := by
  unfold Ep.reg
  split
  case h_15 => rfl
  all_goals omega

theorem Ep.flagsReg_toNat (p : Ep) :
    p.flagsReg.toNat = p.flush.toNat + 2 * p.dir.code + 2 ^ 3 * p.dataReady.toNat := by
  have hflush := p.flush.toNat_lt
  have hdir := p.dir.code_lt
  have hready := p.dataReady.toNat_lt
  have hlow : (field p.flush.toNat 0 ||| field p.dir.code 1).toNat = p.flush.toNat + 2 * p.dir.code :=
    toNat_two_fields (by decide) hflush (by omega)
  rw [Ep.flagsReg, toNat_or_field (by omega) (by omega), hlow]

theorem Bank.reg_toNat {b : Bank} (hcnt : b.cnt < 2 ^ 8) (hrdp : b.rdp < 2 ^ 8) :
    b.reg.toNat = b.st.code + 2 ^ 8 * b.cnt + 2 ^ 16 * b.rdp := by
  have hst := b.st.code_lt
  have hlow : (field b.st.code 0 ||| field b.cnt 8).toNat = b.st.code + 2 ^ 8 * b.cnt :=
    toNat_two_fields (by decide) (by omega) (by omega)
  rw [Bank.reg, toNat_or_field (by omega) (by omega), hlow]

/-- The parameters of an endpoint in one word (R77). -/
theorem SlotOk.type_toNat {c : EpCfg} (h : SlotOk c) :
    (field (epTypeCode c.kind) 0 ||| field (c.nbanks - 1) 2 ||| field c.bsize 8 ||| field c.qmax 16).toNat =
      epTypeCode c.kind + 2 ^ 2 * (c.nbanks - 1) + 2 ^ 8 * c.bsize + 2 ^ 16 * c.qmax := by
  have hkind := epTypeCode_lt c.kind
  obtain ⟨-, hbanks, -, hsize, hqmax⟩ := h
  have hlow : (field (epTypeCode c.kind) 0 ||| field (c.nbanks - 1) 2).toNat
      = epTypeCode c.kind + 2 ^ 2 * (c.nbanks - 1) := toNat_two_fields (by decide) hkind (by omega)
  have hmid := toNat_or_field (n := c.bsize) (k := 8) (hlow.trans_lt (by omega)) (by omega)
  rw [hlow] at hmid
  rw [toNat_or_field (hmid.trans_lt (by omega)) (by omega), hmid]

/-- The bounds of a bank's fields (10_state.md R44). -/
theorem Bank.Inv.bounds {c : EpCfg} {b : Bank} (h : Bank.Inv c b) (hok : SlotOk c) :
    b.cnt < 2 ^ 8 ∧ b.rdp < 2 ^ 8 := by
  have hcnt := h.cnt_le
  have hrdp := h.rdp_le
  have hsize := hok.bsize
  omega

/-- Settles O53: each register word is the sum of its fields, whose bounds the invariant gives. -/
theorem registerMap : Obligations.RegisterMap := by
  intro s
  refine ⟨⟨rfl, rfl, field_toNat _, rfl, field_toNat _, field_toNat _, field_toNat _, ?_, ?_⟩,
    fun hlen e => ⟨State.irqStat_getLsbD hlen e, toNat_field_zero (by omega)⟩,
    fun off hlo hhi => ?_, fun e off hoff he => State.regRead_unconfigured he hoff, fun e c p he hslot hp => ?_⟩
  · have hcode := s.ctlState.code_lt
    exact toNat_two_fields (by decide) (by omega) (by have := s.ctlAddr.isLt; omega)
  · have hpend := s.tokenPending.toNat_lt
    exact toNat_two_fields (by decide) (by have := s.tokenLatch.isLt; omega) (by omega)
  · rw [State.regRead, if_pos hhi, State.globalReg_unmapped s hlo]
  · have hok : SlotOk c := .of_slotOk hslot (State.ep?_eq_some.1 he).2.2
    have hreg : ∀ off, off < 0x40 → s.regRead (0x100 + 0x40 * e + off) = p.reg c off :=
      fun off => State.regRead_ep he
    have hflag : ∀ b : Bool, (field b.toNat 0).toNat = b.toNat := fun b =>
      toNat_field_zero (by have := b.toNat_lt; omega)
    obtain ⟨-, hcap, hsize, hrd, -, -, -⟩ := hp.queue
    have hqmax := hok.qmax
    obtain ⟨hcnt0, hrdp0⟩ := hp.bank0.bounds hok
    obtain ⟨hcnt1, hrdp1⟩ := hp.bank1.bounds hok
    refine ⟨?_, ?_, ?_, ?_, ?_, ?_, ?_, ?_, ?_, ?_, ?_, ?_, ?_, ?_, fun off hlo hhi => ?_⟩
    all_goals rw [hreg _ (by omega)]
    · exact field_toNat _
    · exact field_toNat _
    · exact p.flagsReg_toNat
    · exact hflag _
    · exact toNat_field_zero (by omega)
    · exact toNat_field_zero (by omega)
    · exact toNat_field_zero (by omega)
    · exact hflag _
    · exact Bank.reg_toNat hcnt0 hrdp0
    · rw [Ep.reg]
      split
      · exact Bank.reg_toNat hcnt1 hrdp1
      · rfl
    · exact toNat_two_fields (k := 1) (by decide) p.cur.toNat_lt (by have := p.busPtr.toNat_lt; omega)
    · rfl
    · rfl
    · exact hok.type_toNat
    · exact Ep.reg_unmapped c p hlo

end Sys2Proof.Machine
end

section
/-!
PROOFS. Power-on reset and bus reset (70_reset_and_hazards.md R310 to R313).
-/

namespace Sys2Proof.Machine

/-! ### An endpoint after reset (R311, R312) -/

/-- IEN and IPEND after either reset, by the endpoint's type (R312). -/
theorem Ep.por_flags (c : EpCfg) :
    (c.kind = .control → (Ep.por c).ien = 0x05 ∧ (Ep.por c).ipend = 0x00) ∧
    (c.kind = .out → (Ep.por c).ien = 0x04 ∧ (Ep.por c).ipend = 0x00) ∧
    (c.kind = .inn → (Ep.por c).ien = 0x00 ∧ (Ep.por c).ipend = 0x02) := by
  refine ⟨fun h => ?_, fun h => ?_, fun h => ?_⟩
  all_goals rw [Ep.por, h]; exact ⟨rfl, rfl⟩

/-- No reset value of IPEND is enabled (R313). -/
theorem Ep.por_pending (c : EpCfg) : (Ep.por c).ipend &&& (Ep.por c).ien = 0 := by
  cases hk : c.kind <;> simp [Ep.por, hk]

theorem Ep.por_bank (c : EpCfg) (b : Bool) : (Ep.por c).bank b = Bank.por c := by cases b <;> rfl

theorem Ep.busReset_of_conf {c : EpCfg} (hk : c.kind ≠ .unconf) (p : Ep) : p.busReset c = { Ep.por c with
    cb := p.cb
    cbctx := p.cbctx
    q := { Queue.por c with mem := p.q.mem }
    bank0 := Bank.busReset c p.bank0
    bank1 := Bank.busReset c p.bank1 } := if_neg hk

theorem Ep.busReset_bank {c : EpCfg} (hk : c.kind ≠ .unconf) (p : Ep) (b : Bool) :
    (p.busReset c).bank b = Bank.busReset c (p.bank b) := by
  rw [Ep.busReset_of_conf hk]
  cases b <;> rfl

/-! ### The machine after reset -/

section
variable {s : State} {e : Nat} {c : EpCfg}

theorem State.ep?_powerOn (hc : s.cfg.eps[e]? = some c) (hk : c.kind ≠ .unconf) :
    s.powerOn.ep? e = some (c, Ep.por c) := by
  have heps : (s.cfg.eps.map Ep.por)[e]? = some (Ep.por c) := by rw [List.getElem?_map, hc]; rfl
  exact State.ep?_eq_some.2 ⟨hc, heps, hk⟩

theorem State.ep?_busReset_of_ep {p : Ep} (he : s.ep? e = some (c, p)) :
    s.busReset.ep? e = some (c, p.busReset c) := by
  obtain ⟨hc, hp, hk⟩ := State.ep?_eq_some.1 he
  have heps : (List.zipWith Ep.busReset s.cfg.eps s.eps)[e]? = some (p.busReset c) := by
    rw [List.getElem?_zipWith, hc, hp]
  exact State.ep?_eq_some.2 ⟨hc, heps, hk⟩

/-- An SVC step and a DISP step do nothing without a pending interrupt and a pending token (R313). -/
theorem idle_of_quiet (hirq : ∀ e c p, s.ep? e = some (c, p) → p.ipend &&& p.ien = 0)
    (htok : s.tokenPending = false) : svcStep false s = .next s ∧ dispStep s = .next s :=
  ⟨svcStep_idle (State.lowestIrq_eq_none hirq), dispStep_idle htok⟩

end

/-- Settles O54: every field of the reset state is its POR value. -/
theorem powerOnResetResult : Obligations.PowerOnResetResult := by
  intro s m
  refine ⟨s.powerOn, rfl, rfl, rfl, rfl, rfl, rfl, rfl, rfl, rfl, rfl, rfl, rfl, rfl, ⟨rfl, rfl, rfl⟩, rfl,
    fun e c hc hk => ⟨Ep.por c, State.ep?_powerOn hc hk, ?_⟩⟩
  obtain ⟨hcontrol, hout, hin⟩ := Ep.por_flags c
  refine ⟨rfl, rfl, rfl, rfl, rfl, rfl, hcontrol, hout, hin, rfl, rfl, rfl, rfl, rfl, rfl, fun b => ?_,
    fun k => ⟨rfl, fun b => ?_⟩⟩
  · rw [Ep.por_bank]
    exact ⟨rfl, rfl, rfl⟩
  · rw [Ep.por_bank]
    rfl

/-- Settles O55: each endpoint takes its reset values and keeps its callback and its bytes. -/
theorem busResetResult : Obligations.BusResetResult := by
  intro s _
  refine ⟨s.busReset.emit (.bus .reset .none), rfl, rfl, fun e c p he => ?_⟩
  have hk : c.kind ≠ .unconf := (State.ep?_eq_some.1 he).2.2
  refine ⟨p.busReset c, State.ep?_busReset_of_ep he, ?_⟩
  obtain ⟨hcontrol, hout, hin⟩ := Ep.por_flags c
  have hbank := Ep.busReset_bank hk p
  rw [Ep.busReset_of_conf hk] at hbank ⊢
  exact ⟨rfl, rfl, rfl, rfl, rfl, rfl, hcontrol, hout, hin, rfl, rfl, rfl, hbank⟩

/-- Settles O56: after a reset no endpoint has an enabled pending flag (`Ep.por_pending`) and the latch is empty. -/
theorem idleAfterReset : Obligations.IdleAfterReset := by
  rintro s t m - (h | h)
  · cases h
    refine idle_of_quiet (fun e c r hr => ?_) rfl
    have hbus : s.busReset.ep? e = some (c, r) := hr
    obtain ⟨p, he, rfl⟩ := State.ep?_busReset hbus
    rw [Ep.busReset_of_conf (State.ep?_eq_some.1 he).2.2]
    exact Ep.por_pending c
  · cases h
    refine idle_of_quiet (fun e c r hr => ?_) rfl
    have hpor : (State.por s.cfg).ep? e = some (c, r) := hr
    obtain ⟨-, rfl, -⟩ := State.ep?_por hpor
    exact Ep.por_pending c

end Sys2Proof.Machine
end
